-- ==== Sys2Proof/Word.lean ====
section
/-! DEFINITION. The bit and byte types of the block (20_memory.md R76): a pin is 1 bit, a bus or serial access
1 byte, a character on the display's wire 7 bits (30_encoding.md R125). -/

namespace Sys2Proof

/-- A pin level or a bit of a frame: `true` is 1, `false` is 0. -/
abbrev Bit := Bool

/-- A byte given to a primitive or carried in a command frame (00_scope.md R11). -/
abbrev Byte := BitVec 8

/-- The seven data bits of one serial character (30_encoding.md R125). -/
abbrev Char7 := BitVec 7

/-- An ENC_EDGE tick: 32 bits, unsigned, wrapping (00_scope.md R8, TICK_WIDTH). -/
abbrev Tick := BitVec 32

/-- The step accumulator: 32 bits, two's complement (00_scope.md R8, POS_WIDTH). -/
abbrev Position := BitVec 32

end Sys2Proof
end

