-- ==== Sys2Proof/Config.lean ====
section
/-! DEFINITION. What is fixed for the life of the block (10_state.md R22): the parameters of 00_scope.md R7 and R8 at
the values the spec gives them, the parameters it leaves OPEN as opaque constants, and the free values the
environment and the launch supply (93_implementation_defined.md), opaque too, so that no proof knows them. -/

namespace Sys2Proof.Config

/-! ### Parameters fixed by the source (00_scope.md R7) -/

/-- ROWS. -/
def rows : Nat := 6
/-- COLS. -/
def cols : Nat := 40
/-- QUERY_MAX = ROWS * COLS. -/
def queryMax : Nat := rows * cols
/-- BAUD. -/
def baud : Nat := 9600
/-- DATA_BITS (90_conflicts.md C2). -/
def dataBits : Nat := 7
/-- STOP_BITS. -/
def stopBits : Nat := 1

/-! ### Parameters the spec gives a value (00_scope.md R8) -/

/-- ADC_CHANNELS_FITTED: 8. No rule of the block reads it; with 4 fitted, channels 4..7 answer levels with no relation
to an input, and here every level is a free answer in any case (42_analog.md R184). -/
def adcChannelsFitted : Nat := 8
/-- STEP_SIZE. -/
def stepSize : Int := 1
/-- DEBOUNCE_MS, in ticks of TICK_UNIT = 1 ms. -/
def debounceMs : Nat := 200
/-- The default KEYMAP (30_encoding.md R114), one line per row-select pattern. -/
def defaultKeymap : List (Byte × Byte) :=
  [(0xEE#8, 0x31#8), (0xDE#8, 0x32#8), (0xBE#8, 0x33#8), (0x7E#8, 0x41#8)] ++
  [(0xED#8, 0x34#8), (0xDD#8, 0x35#8), (0xBD#8, 0x36#8), (0x7D#8, 0x42#8)] ++
  [(0xEB#8, 0x37#8), (0xDB#8, 0x38#8), (0xBB#8, 0x39#8), (0x7B#8, 0x43#8)] ++
  [(0xE7#8, 0x2A#8), (0xD7#8, 0x30#8), (0xB7#8, 0x23#8), (0x77#8, 0x44#8)]
/-- KP_SETTLE_MS. -/
def kpSettleMs : Nat := 10
/-- OPEN_WAIT_MS. -/
def openWaitMs : Nat := 100
/-- CLEAR_WAIT_MS. -/
def clearWaitMs : Nat := 50
/-- READ_TIMEOUT, in ms. -/
def readTimeoutMs : Nat := 1000
/-- QUERY_MAX_EMPTY. -/
def queryMaxEmpty : Nat := 3
/-- QUERY_RETRY_SLEEP_MS. -/
def queryRetrySleepMs : Nat := 100
/-- OPEN_INIT_SEQ: scroll-enable. -/
def openInitSeq : List Byte := [0x10#8]
/-- CLEAR_SEQ: clear, then home. -/
def clearSeq : List Byte := [0x19#8, 0x0C#8, 0x19#8, 0x0E#8]
/-- SCROLL_SEQ: the wire newline. -/
def scrollSeq : List Byte := [0x0D#8, 0x0A#8]
/-- CS_ACTIVE: chip-select is active low. -/
def csActive : Bit := false
/-- INACTIVE = 1 - CS_ACTIVE (42_analog.md). -/
def csInactive : Bit := !csActive

/-- A duration in milliseconds, as the microseconds a `Delay` event carries. -/
def ms (n : Nat) : Nat := 1000 * n

/-! ### OPEN parameters (00_scope.md R8): opaque, so a statement holds for every value -/

/-- VREF is a positive rational: this is its numerator less one. -/
opaque vrefNum : Nat
/-- VREF is a positive rational: this is its denominator less one. -/
opaque vrefDen : Nat
/-- VREF, in volts: any positive rational. -/
def vref : Rat := ((vrefNum + 1 : Nat) : Rat) / ((vrefDen + 1 : Nat) : Rat)
/-- T_SETTLE_US is positive: this is its value less one. -/
opaque settleLessOne : Nat
/-- T_SETTLE_US, the ADC bit settle delay, in microseconds. -/
def tSettleUs : Nat := settleLessOne + 1
/-- PORT, the serial device the display is on. -/
opaque port : String
/-- KP_ADDR, the I/O expander's 7-bit bus address (93_implementation_defined.md U10). -/
opaque kpAddr : BitVec 7

/-! ### Launch inputs (70_reset_and_hazards.md R290, R292): opaque -/

/-- A0, the level of ENC_PIN_A sampled at launch. -/
opaque phaseA0 : Bit
/-- B0, the level of ENC_PIN_B sampled at launch. -/
opaque phaseB0 : Bit
/-- The I/O expander's output latch at launch. -/
opaque expanderLatch0 : Byte
/-- The converter's held command word at launch. -/
opaque converterCommand0 : BitVec 5

/-! ### Free values: the n-th value the environment draws where no answer is written in the state -/

/-- Whether a pin, bus or port-open primitive succeeds (93_implementation_defined.md U14). -/
opaque ackDraw : Nat → Bool
/-- What a PinRead answers; `none` is a failure (93_implementation_defined.md U4). -/
opaque levelDraw : Nat → Option Bit
/-- What a BusRead answers; `none` is a failure (93_implementation_defined.md U8). -/
opaque byteDraw : Nat → Option Byte
/-- What the serial receive side holds when it is read (92_eei_decisions.md D35). -/
opaque rxDraw : Nat → List Char7
/-- A cell of the display in an unspecified state: draw, row, column (93_implementation_defined.md U1). -/
opaque displayCell : Nat → Nat → Nat → Byte
/-- The display's row in an unspecified state, before it is brought into 0..5. -/
opaque displayRow : Nat → Nat
/-- The display's column in an unspecified state, before it is brought into 0..40. -/
opaque displayCol : Nat → Nat
/-- The display's blink mode in an unspecified state. -/
opaque displayBlink : Nat → Bool
/-- The display's scroll mode in an unspecified state. -/
opaque displayScroll : Nat → Bool

end Sys2Proof.Config

namespace Sys2Proof

/-! ### The keypad's parameters

A model takes the expander's address, the row-select patterns and the key table as parameters (00_scope.md R8;
30_encoding.md R111, R113). They are one record here, an argument of the launch that the state carries unchanged, so
that a statement over every state is one over all their values. -/

/-- KP_ADDR, ROWPAT[0..3] and KEYMAP. -/
structure KpParams where
  addr : BitVec 7
  row0 : Byte
  row1 : Byte
  row2 : Byte
  row3 : Byte
  keymap : List (Byte × Byte)
  deriving DecidableEq, Repr

/-- ROWPAT, in the order KP_SCAN writes it (30_encoding.md R110). -/
def KpParams.rowPat (p : KpParams) : List Byte := [p.row0, p.row1, p.row2, p.row3]

/-- Exactly one bit 0 and the other seven 1 (30_encoding.md R110). -/
def isRowPattern (b : Byte) : Bool := (List.range 8).countP (fun k => !b.getLsbD k) == 1

/-- The constraints on the parameters: ROWPAT's of 30_encoding.md R110, and KEYMAP's of R113. -/
def KpParams.Legal (p : KpParams) : Prop :=
  (∀ b ∈ p.rowPat, isRowPattern b = true) ∧ p.keymap.length = 16 ∧ (p.keymap.map Prod.fst).Nodup

/-- The ROWPAT and KEYMAP the spec takes (30_encoding.md R111, R114), for an expander at `addr`. -/
def KpParams.standard (addr : BitVec 7) : KpParams :=
  { addr := addr, row0 := 0xFE#8, row1 := 0xFD#8, row2 := 0xFB#8, row3 := 0xF7#8, keymap := Config.defaultKeymap }

end Sys2Proof
end

