-- ==== Sys2Proof/Syntax.lean ====
section
/-! DEFINITION. The instructions: one constructor per row of spec/opcode_table.json. The 17 operations of the host
command port carry the abstract operands of 30_encoding.md R90 and R92 (integers, so that a negative one, which has
no frame, still has its meaning); the 26 rows of the three wires are what the block sends on them. -/

namespace Sys2Proof

/-- Every row of the opcode table. The docstring of a constructor names the row and the rule that gives its meaning. -/
inductive Instr where
  /-- VFD_OPEN, 41_display.md R130. -/
  | vfdOpen
  /-- VFD_CLOSE, 41_display.md R131. -/
  | vfdClose
  /-- VFD_CLEAR, 41_display.md R132. -/
  | vfdClear
  /-- VFD_WRITE, 41_display.md R139: a text of any length. -/
  | vfdWrite (text : List Byte)
  /-- VFD_WRITE_BLINKING, 41_display.md R143: a text of any length. -/
  | vfdWriteBlinking (text : List Byte)
  /-- VFD_SET_CURSOR, 41_display.md R144. -/
  | vfdSetCursor (row col : Int)
  /-- VFD_QUERY, 41_display.md R146. -/
  | vfdQuery
  /-- ADC_INIT, 42_analog.md R180. -/
  | adcInit
  /-- ADC_READ, 42_analog.md R181. -/
  | adcRead (ch : Int)
  /-- ADC_READ_VOLTAGE, 42_analog.md R185. -/
  | adcReadVoltage (ch : Int)
  /-- ENC_EDGE, 43_quadrature.md R210: the sampled phase levels and the notification's tick. -/
  | encEdge (a b : Bit) (t : Tick)
  /-- ENC_READ, 43_quadrature.md R214. -/
  | encRead
  /-- ENC_CLEAR_CHANGED, 43_quadrature.md R215. -/
  | encClearChanged
  /-- KP_SCAN, 44_keypad.md R230. -/
  | kpScan
  /-- KP_READ, 44_keypad.md R234. -/
  | kpRead
  /-- KP_CLEAR_FLAG, 44_keypad.md R235. -/
  | kpClearFlag
  /-- KP_CLEAR_KEY, 44_keypad.md R236. -/
  | kpClearKey
  /-- WIRE_CLEAR `19 0C`, 41_display.md R148. -/
  | wireClear
  /-- WIRE_HOME `19 0E`, 41_display.md R149. -/
  | wireHome
  /-- WIRE_CURSOR_UP `19 0B`, 41_display.md R150. -/
  | wireCursorUp
  /-- WIRE_SET_ROW `19 11 rr`, 41_display.md R151: the raw parameter, row + 1 where the block sends it. -/
  | wireSetRow (rr : Char7)
  /-- WIRE_SET_COL `19 13 cc`, 41_display.md R152: the raw parameter, column + 1 where the block sends it. -/
  | wireSetCol (cc : Char7)
  /-- WIRE_NEWLINE `0D 0A`, 41_display.md R153. -/
  | wireNewline
  /-- WIRE_BACKSPACE `08`, 41_display.md R154. -/
  | wireBackspace
  /-- WIRE_DELETE_CHAR `19 10`, 41_display.md R155. -/
  | wireDeleteChar
  /-- WIRE_BLINK_START `0B`, 41_display.md R156. -/
  | wireBlinkStart
  /-- WIRE_BLINK_END `0C`, 41_display.md R157. -/
  | wireBlinkEnd
  /-- WIRE_BRIGHTNESS `19 4F`, 41_display.md R158. -/
  | wireBrightness
  /-- WIRE_SCROLL_ENABLE `10`, 41_display.md R159. -/
  | wireScrollEnable
  /-- WIRE_CONTENT_QUERY `04 00`, 41_display.md R160. -/
  | wireContentQuery
  /-- WIRE_CHARACTER, 41_display.md R161: the seven bits the wire carries. -/
  | wireCharacter (x : Char7)
  /-- ADC_CMD_CH0, the converter frame whose command word is 24 (30_encoding.md R107, R108). -/
  | adcCmdCh0
  /-- ADC_CMD_CH1, command word 25. -/
  | adcCmdCh1
  /-- ADC_CMD_CH2, command word 26. -/
  | adcCmdCh2
  /-- ADC_CMD_CH3, command word 27. -/
  | adcCmdCh3
  /-- ADC_CMD_CH4, command word 28. -/
  | adcCmdCh4
  /-- ADC_CMD_CH5, command word 29. -/
  | adcCmdCh5
  /-- ADC_CMD_CH6, command word 30. -/
  | adcCmdCh6
  /-- ADC_CMD_CH7, command word 31. -/
  | adcCmdCh7
  /-- KP_ROWSEL_0, the row-select pattern ROWPAT[0], 0xFE in the table (30_encoding.md R110, R111). -/
  | kpRowsel0
  /-- KP_ROWSEL_1, the row-select pattern ROWPAT[1], 0xFD in the table. -/
  | kpRowsel1
  /-- KP_ROWSEL_2, the row-select pattern ROWPAT[2], 0xFB in the table. -/
  | kpRowsel2
  /-- KP_ROWSEL_3, the row-select pattern ROWPAT[3], 0xF7 in the table. -/
  | kpRowsel3
  deriving DecidableEq, Repr

end Sys2Proof
end

