-- ==== Sys2Proof/WellFormed.lean ====
section
/-! DEFINITION. Which instructions have a word: the operand ranges of the encodings (30_encoding.md R92, R105). -/

namespace Sys2Proof

/-- The values one operand byte carries: unsigned 0..255, never sign-extended (30_encoding.md R92). -/
def fitsByte (v : Int) : Bool := decide (0 ≤ v) && decide (v ≤ 255)

/-- The single-byte display controls and the escape prefix: a wire byte with one of these values is read as that
control and not as a character (30_encoding.md R105). -/
def controlCodes : List Char7 := [0x08#7, 0x0B#7, 0x0C#7, 0x10#7, 0x19#7]

/-- The instruction has a word. An operand outside its field, or a text longer than one T frame holds, has a meaning
but no word (30_encoding.md R92, R93). -/
def Instr.wellFormed : Instr → Bool
  | .vfdWrite text => decide (text.length ≤ 255)
  | .vfdWriteBlinking text => decide (text.length ≤ 255)
  | .vfdSetCursor row col => fitsByte row && fitsByte col
  | .adcRead ch => fitsByte ch
  | .adcReadVoltage ch => fitsByte ch
  | .wireCharacter x => !controlCodes.contains x
  | .vfdOpen | .vfdClose | .vfdClear | .vfdQuery | .adcInit | .encEdge _ _ _ | .encRead | .encClearChanged
  | .kpScan | .kpRead | .kpClearFlag | .kpClearKey
  | .wireClear | .wireHome | .wireCursorUp | .wireSetRow _ | .wireSetCol _ | .wireNewline | .wireBackspace
  | .wireDeleteChar | .wireBlinkStart | .wireBlinkEnd | .wireBrightness | .wireScrollEnable | .wireContentQuery
  | .adcCmdCh0 | .adcCmdCh1 | .adcCmdCh2 | .adcCmdCh3 | .adcCmdCh4 | .adcCmdCh5 | .adcCmdCh6 | .adcCmdCh7
  | .kpRowsel0 | .kpRowsel1 | .kpRowsel2 | .kpRowsel3 => true

end Sys2Proof
end

