-- ==== Sys2Proof/Decode.lean ====
section
/-! DEFINITION. The decoders and the encoder of the four encoded surfaces (30_encoding.md): the host command port
(R90 to R99), the display's serial wire (R100 to R106), the ADC wire (R107) and the keypad bus (R110, R111).
`decode` is total on any bytes and rejects by name. -/

namespace Sys2Proof

/-- The surface that bytes arrive on; the opcode table's "space" column. -/
inductive Surface where
  /-- the host command port, 30_encoding.md R90 -/
  | hostPort
  /-- the display's serial wire, 30_encoding.md R100 -/
  | displayWire
  /-- the ADC bit-bang wire, 30_encoding.md R107; one byte holds the 5-bit word -/
  | adcWire
  /-- the keypad bus, 30_encoding.md R110 -/
  | keypadBus
  deriving DecidableEq, Repr

/-- Why bytes are no instruction. -/
inductive Reject where
  /-- fewer bytes than the form needs (30_encoding.md R96) -/
  | truncated
  /-- a reserved opcode of the host port (30_encoding.md R98) -/
  | reservedOpcode (opcode : Byte)
  /-- an ENC_EDGE frame with f[1][7:2] nonzero (30_encoding.md R97) -/
  | reservedBits
  /-- an escape sequence outside the display's command list (30_encoding.md R106) -/
  | unlistedEscape (code : Char7)
  /-- a byte on the ADC wire that is no 5-bit word `1 1 C2 C1 C0` (30_encoding.md R107) -/
  | notCommandWord (byte : Byte)
  /-- a byte on the keypad bus that is no row-select pattern (30_encoding.md R110) -/
  | notRowPattern (byte : Byte)
  deriving DecidableEq, Repr

/-! ### The host command port -/

/-- The operands of format T (30_encoding.md R92): the length byte, then that many text bytes. -/
def decodeText (mk : List Byte → Instr) : List Byte → Except Reject (Instr × List Byte)
  | [] => .error .truncated
  | len :: rest =>
    if len.toNat ≤ rest.length then .ok (mk (rest.take len.toNat), rest.drop len.toNat) else .error .truncated

/-- The operand of format C (30_encoding.md R92): one byte, zero-extended. -/
def decodeChannel (mk : Int → Instr) : List Byte → Except Reject (Instr × List Byte)
  | [] => .error .truncated
  | ch :: rest => .ok (mk ch.toNat, rest)

/-- The operands of format RC (30_encoding.md R92): row, then column, zero-extended. -/
def decodeRowCol (mk : Int → Int → Instr) : List Byte → Except Reject (Instr × List Byte)
  | r :: c :: rest => .ok (mk r.toNat c.toNat, rest)
  | _ => .error .truncated

/-- The operands of format E (30_encoding.md R92, R97): `{000000, b, a}`, then the tick, big-endian. -/
def decodeEdge : List Byte → Except Reject (Instr × List Byte)
  | f :: t3 :: t2 :: t1 :: t0 :: rest =>
    if f.extractLsb' 2 6 = 0#6 then .ok (.encEdge (f.getLsbD 0) (f.getLsbD 1) (t3 ++ t2 ++ t1 ++ t0), rest)
    else .error .reservedBits
  | _ => .error .truncated

/-- One host command frame: the opcode map of 30_encoding.md R91, each opcode with its format. -/
def decodeHost : List Byte → Except Reject (Instr × List Byte)
  | [] => .error .truncated
  | op :: rest =>
    match op with
    | 0x01#8 => .ok (.vfdOpen, rest)
    | 0x02#8 => .ok (.vfdClose, rest)
    | 0x03#8 => .ok (.vfdClear, rest)
    | 0x04#8 => decodeText .vfdWrite rest
    | 0x05#8 => decodeText .vfdWriteBlinking rest
    | 0x06#8 => decodeRowCol .vfdSetCursor rest
    | 0x07#8 => .ok (.vfdQuery, rest)
    | 0x10#8 => .ok (.adcInit, rest)
    | 0x11#8 => decodeChannel .adcRead rest
    | 0x12#8 => decodeChannel .adcReadVoltage rest
    | 0x20#8 => decodeEdge rest
    | 0x21#8 => .ok (.encRead, rest)
    | 0x22#8 => .ok (.encClearChanged, rest)
    | 0x30#8 => .ok (.kpScan, rest)
    | 0x31#8 => .ok (.kpRead, rest)
    | 0x32#8 => .ok (.kpClearFlag, rest)
    | 0x33#8 => .ok (.kpClearKey, rest)
    | _ => .error (.reservedOpcode op)

/-- The opcodes of 30_encoding.md R91; every other first byte is reserved (R98). -/
def hostOpcodes : List Byte :=
  [0x01#8, 0x02#8, 0x03#8, 0x04#8, 0x05#8, 0x06#8, 0x07#8, 0x10#8, 0x11#8, 0x12#8, 0x20#8, 0x21#8, 0x22#8,
   0x30#8, 0x31#8, 0x32#8, 0x33#8]

/-- A frame's length in bytes, from byte 0, or from bytes 0 and 1 for format T (30_encoding.md R96); `none` for a
reserved opcode, and for a T frame without its length byte. -/
def frameLength : List Byte → Option Nat
  | [] => none
  | op :: rest =>
    match op with
    | 0x04#8 | 0x05#8 => rest.head?.map fun len => 2 + len.toNat
    | 0x06#8 => some 3
    | 0x11#8 | 0x12#8 => some 2
    | 0x20#8 => some 6
    | _ => if hostOpcodes.contains op then some 1 else none

/-! ### The display's serial wire -/

/-- One escape sequence, after the prefix 0x19 (30_encoding.md R101, R104, R105, R106). -/
def decodeEscape : List Char7 → Except Reject (Instr × List Char7)
  | [] => .error .truncated
  | code :: rest =>
    match code with
    | 0x0B#7 => .ok (.wireCursorUp, rest)
    | 0x0C#7 => .ok (.wireClear, rest)
    | 0x0E#7 => .ok (.wireHome, rest)
    | 0x10#7 => .ok (.wireDeleteChar, rest)
    | 0x4F#7 => .ok (.wireBrightness, rest)
    | 0x11#7 =>
      match rest with
      | rr :: rest' => .ok (.wireSetRow rr, rest')
      | [] => .error .truncated
    | 0x13#7 =>
      match rest with
      | cc :: rest' => .ok (.wireSetCol cc, rest')
      | [] => .error .truncated
    | _ => .error (.unlistedEscape code)

/-- The first command of a stream of serial characters, as `parse` of 30_encoding.md R105 reads it. -/
def decodeWire : List Char7 → Except Reject (Instr × List Char7)
  | [] => .error .truncated
  | x :: rest =>
    if x = 0x19#7 then decodeEscape rest
    else if x = 0x04#7 ∧ rest.head? = some 0x00#7 then .ok (.wireContentQuery, rest.tail)
    else if x = 0x0D#7 ∧ rest.head? = some 0x0A#7 then .ok (.wireNewline, rest.tail)
    else if x = 0x08#7 then .ok (.wireBackspace, rest)
    else if x = 0x0B#7 then .ok (.wireBlinkStart, rest)
    else if x = 0x0C#7 then .ok (.wireBlinkEnd, rest)
    else if x = 0x10#7 then .ok (.wireScrollEnable, rest)
    else .ok (.wireCharacter x, rest)

/-- The commands of a stream, in order, with `fuel` bounding how many are read; each command takes at least one
character, so the stream's length is fuel enough (30_encoding.md R105). -/
def parseWire : Nat → List Char7 → Except Reject (List Instr)
  | _, [] => .ok []
  | 0, _ :: _ => .ok []
  | fuel + 1, x :: xs =>
    match decodeWire (x :: xs) with
    | .error e => .error e
    | .ok (i, rest) =>
      match parseWire fuel rest with
      | .error e => .error e
      | .ok is => .ok (i :: is)

/-- The wire carries the low seven bits of a byte (30_encoding.md R125). -/
def onWire (b : Byte) : Char7 := b.setWidth 7

/-- A serial character as the byte that carries it unchanged (30_encoding.md R103, R125). -/
def offWire (x : Char7) : Byte := x.setWidth 8

/-! ### The ADC wire and the keypad bus -/

/-- The 5-bit command word `1 1 C2 C1 C0` (30_encoding.md R107; 42_analog.md R189). -/
def decodeAdcWord : List Byte → Except Reject (Instr × List Byte)
  | [] => .error .truncated
  | w :: rest =>
    match w with
    | 0x18#8 => .ok (.adcCmdCh0, rest)
    | 0x19#8 => .ok (.adcCmdCh1, rest)
    | 0x1A#8 => .ok (.adcCmdCh2, rest)
    | 0x1B#8 => .ok (.adcCmdCh3, rest)
    | 0x1C#8 => .ok (.adcCmdCh4, rest)
    | 0x1D#8 => .ok (.adcCmdCh5, rest)
    | 0x1E#8 => .ok (.adcCmdCh6, rest)
    | 0x1F#8 => .ok (.adcCmdCh7, rest)
    | _ => .error (.notCommandWord w)

/-- A row-select pattern of the parameters (30_encoding.md R110, R111). -/
def decodeRowPattern (p : KpParams) : List Byte → Except Reject (Instr × List Byte)
  | [] => .error .truncated
  | b :: rest =>
    if b = p.row0 then .ok (.kpRowsel0, rest)
    else if b = p.row1 then .ok (.kpRowsel1, rest)
    else if b = p.row2 then .ok (.kpRowsel2, rest)
    else if b = p.row3 then .ok (.kpRowsel3, rest)
    else .error (.notRowPattern b)

/-! ### The decoder of all four surfaces -/

/-- The instruction at the front of `bytes` on a surface, with the bytes after it. The parameters are read on the keypad
bus alone. -/
def decode (p : KpParams) : Surface → List Byte → Except Reject (Instr × List Byte)
  | .hostPort, bytes => decodeHost bytes
  | .displayWire, bytes =>
    match decodeWire (bytes.map onWire) with
    | .ok (i, rest) => .ok (i, rest.map offWire)
    | .error e => .error e
  | .adcWire, bytes => decodeAdcWord bytes
  | .keypadBus, bytes => decodeRowPattern p bytes

/-! ### The encoder -/

/-- The surface an instruction is encoded on: the opcode table's "space" column. -/
def Instr.surface : Instr → Surface
  | .vfdOpen | .vfdClose | .vfdClear | .vfdWrite _ | .vfdWriteBlinking _ | .vfdSetCursor _ _ | .vfdQuery
  | .adcInit | .adcRead _ | .adcReadVoltage _ | .encEdge _ _ _ | .encRead | .encClearChanged
  | .kpScan | .kpRead | .kpClearFlag | .kpClearKey => .hostPort
  | .wireClear | .wireHome | .wireCursorUp | .wireSetRow _ | .wireSetCol _ | .wireNewline | .wireBackspace
  | .wireDeleteChar | .wireBlinkStart | .wireBlinkEnd | .wireBrightness | .wireScrollEnable | .wireContentQuery
  | .wireCharacter _ => .displayWire
  | .adcCmdCh0 | .adcCmdCh1 | .adcCmdCh2 | .adcCmdCh3 | .adcCmdCh4 | .adcCmdCh5 | .adcCmdCh6 | .adcCmdCh7 => .adcWire
  | .kpRowsel0 | .kpRowsel1 | .kpRowsel2 | .kpRowsel3 => .keypadBus

/-- A T frame (30_encoding.md R92). -/
def encodeText (op : Byte) (text : List Byte) : List Byte := op :: BitVec.ofNat 8 text.length :: text

/-- An E frame (30_encoding.md R92): f[1] = {000000, b, a}, then the tick, most significant byte first. -/
def encodeEdge (a b : Bit) (t : Tick) : List Byte :=
  [0x20#8, 0#6 ++ BitVec.ofBool b ++ BitVec.ofBool a,
   t.extractLsb' 24 8, t.extractLsb' 16 8, t.extractLsb' 8 8, t.extractLsb' 0 8]

/-- The bytes of an instruction on its surface: its frame (30_encoding.md R91, R92), its wire bytes (R101), its
command word in one byte (R107) or its pattern (R111), which the parameters give. Meant for well-formed
instructions. -/
def encode (p : KpParams) : Instr → List Byte
  | .vfdOpen => [0x01#8]
  | .vfdClose => [0x02#8]
  | .vfdClear => [0x03#8]
  | .vfdWrite text => encodeText 0x04#8 text
  | .vfdWriteBlinking text => encodeText 0x05#8 text
  | .vfdSetCursor row col => [0x06#8, BitVec.ofInt 8 row, BitVec.ofInt 8 col]
  | .vfdQuery => [0x07#8]
  | .adcInit => [0x10#8]
  | .adcRead ch => [0x11#8, BitVec.ofInt 8 ch]
  | .adcReadVoltage ch => [0x12#8, BitVec.ofInt 8 ch]
  | .encEdge a b t => encodeEdge a b t
  | .encRead => [0x21#8]
  | .encClearChanged => [0x22#8]
  | .kpScan => [0x30#8]
  | .kpRead => [0x31#8]
  | .kpClearFlag => [0x32#8]
  | .kpClearKey => [0x33#8]
  | .wireClear => [0x19#8, 0x0C#8]
  | .wireHome => [0x19#8, 0x0E#8]
  | .wireCursorUp => [0x19#8, 0x0B#8]
  | .wireSetRow rr => [0x19#8, 0x11#8, offWire rr]
  | .wireSetCol cc => [0x19#8, 0x13#8, offWire cc]
  | .wireNewline => [0x0D#8, 0x0A#8]
  | .wireBackspace => [0x08#8]
  | .wireDeleteChar => [0x19#8, 0x10#8]
  | .wireBlinkStart => [0x0B#8]
  | .wireBlinkEnd => [0x0C#8]
  | .wireBrightness => [0x19#8, 0x4F#8]
  | .wireScrollEnable => [0x10#8]
  | .wireContentQuery => [0x04#8, 0x00#8]
  | .wireCharacter x => [offWire x]
  | .adcCmdCh0 => [0x18#8]
  | .adcCmdCh1 => [0x19#8]
  | .adcCmdCh2 => [0x1A#8]
  | .adcCmdCh3 => [0x1B#8]
  | .adcCmdCh4 => [0x1C#8]
  | .adcCmdCh5 => [0x1D#8]
  | .adcCmdCh6 => [0x1E#8]
  | .adcCmdCh7 => [0x1F#8]
  | .kpRowsel0 => [p.row0]
  | .kpRowsel1 => [p.row1]
  | .kpRowsel2 => [p.row2]
  | .kpRowsel3 => [p.row3]

/-! ### A row of the opcode table as bytes on a surface

DESIGN CHOICE (notes/assumptions/12.md). The table numbers a row's bits as ONE number whose most significant byte is
the first byte sent (`19 0C` is 0x190C), and its rows lie on four surfaces that share byte values. A number of one byte
is taken on the first surface that has a row of its own for it: the host port, the ADC wire, the keypad bus, and else
the display's wire; a longer number that begins with a display command is taken on the display's wire. The table gives
its row patterns at the values of 30_encoding.md R111. -/

/-- The parameters the table's words are given at; the address is in no word. -/
def tableParams : KpParams := KpParams.standard 0#7

/-- The bytes of a table number of `nbits` bits, first byte sent first. -/
def tableBytes (nbits w : Nat) : List Byte :=
  ((List.range ((nbits + 7) / 8)).map fun k => BitVec.ofNat 8 (w / 256 ^ k)).reverse

/-- The surface a table number is taken on. -/
def tableSurface : List Byte → Surface
  | [b] =>
    if hostOpcodes.contains b then .hostPort
    else if b.extractLsb' 3 5 = 3#5 then .adcWire
    else if tableParams.rowPat.contains b then .keypadBus
    else if b.toNat < 128 then .displayWire
    else .hostPort
  | b :: _ => if [0x19#8, 0x04#8, 0x0D#8].contains b then .displayWire else .hostPort
  | [] => .hostPort

/-- The same bytes with zeros after them, up to the longest frame (2 + 255 bytes): the bits the table does not give. -/
def paddedTableBytes (nbits w : Nat) : List Byte := tableBytes nbits w ++ List.replicate 257 0x00#8

/-- What the decoder answers for a table number. -/
def decodeTable (nbits w : Nat) : Except Reject (Instr × List Byte) :=
  decode tableParams (tableSurface (tableBytes nbits w)) (paddedTableBytes nbits w)

/-- The instruction the decoder reads from a table number, if it reads one. -/
def decodeTableWord (nbits w : Nat) : Option Instr :=
  match decodeTable nbits w with
  | .ok (i, _) => some i
  | .error _ => none

/-- The bytes of the one instruction a table number stands for: as many of the padded bytes as the decoder takes. -/
def tableFrame (nbits w : Nat) : List Byte :=
  match decodeTable nbits w with
  | .ok (_, rest) => (paddedTableBytes nbits w).take ((paddedTableBytes nbits w).length - rest.length)
  | .error _ => tableBytes nbits w

end Sys2Proof
end

