-- ==== Sys2Proof/Machine/State.lean ====
section
/-! DEFINITION. The state: the block's own fields (10_state.md R23 to R38), what it leaves behind (its event history,
20_memory.md, and the result records it yields, 60_exceptions.md R260), the external state the spec names
(10_state.md R42), the answers the environment has ready, and what the agents have issued. All of it is plain data.
`State.reset` is the machine at launch (70_reset_and_hazards.md R290 to R293). -/

namespace Sys2Proof.Machine

/-- The two agents (00_scope.md R9). -/
inductive Agent where
  /-- the polling thread -/
  | host
  /-- the pin-change notification context -/
  | notifier
  deriving DecidableEq, Repr

/-- The six GPIO pins the block uses, by their roles (20_memory.md R70). -/
inductive Pin where
  | adcCs | adcClk | adcMosi | adcMiso | encA | encB
  deriving DecidableEq, Repr

/-- A pin's direction (20_memory.md R60). -/
inductive Dir where
  | input | output
  deriving DecidableEq, Repr

/-- The parity settings of a serial line (10_state.md R27). -/
inductive Parity where
  | none | even | odd
  deriving DecidableEq, Repr

/-- `vfd.line_cfg` (10_state.md R27). -/
structure LineCfg where
  baud : Nat
  dataBits : Nat
  parity : Parity
  stopBits : Nat
  localLine : Bool
  readTimeoutMs : Nat
  deriving DecidableEq, Repr

/-- The fixed values of `vfd.line_cfg` (10_state.md R27; 30_encoding.md R116). -/
def LineCfg.standard : LineCfg :=
  { baud := Config.baud, dataBits := Config.dataBits, parity := .even, stopBits := Config.stopBits,
    localLine := true, readTimeoutMs := Config.readTimeoutMs }

/-- What a `Log` event says (92_eei_decisions.md D34): which transaction of which row failed. -/
inductive LogKind where
  | kpBusWriteFail (row : Nat)
  | kpBusReadFail (row : Nat)
  deriving DecidableEq, Repr

/-- One primitive call: its arguments and the environment's response (20_memory.md section 1). -/
inductive Event where
  /-- R60 -/
  | pinMode (pin : Pin) (dir : Dir) (ok : Bool)
  /-- R61 -/
  | pinWrite (pin : Pin) (level : Bit) (ok : Bool)
  /-- R62; `none` is a failure -/
  | pinRead (pin : Pin) (answer : Option Bit)
  /-- R63 -/
  | busWrite (addr : BitVec 7) (byte : Byte) (ok : Bool)
  /-- R64; `none` is a failure -/
  | busRead (addr : BitVec 7) (answer : Option Byte)
  /-- R65 -/
  | serialOpen (port : String) (cfg : LineCfg) (ok : Bool)
  /-- R66 -/
  | setRts (level : Bit) (ok : Bool)
  /-- R66 -/
  | serialClose
  /-- R67 -/
  | serialTx (byte : Byte)
  /-- R67 -/
  | serialRx (max : Nat) (answer : List Byte)
  /-- R68: the duration in microseconds -/
  | delay (us : Nat)
  /-- R68 -/
  | log (kind : LogKind)
  deriving DecidableEq, Repr

/-- The status codes (60_exceptions.md R261). -/
inductive Status where
  | ok | portError | timeoutError | invalidChannel | busTransactionError | notInitialized | noSession | illegalCommand
  deriving DecidableEq, Repr

/-- The result records (60_exceptions.md R260): a status with the values the operation's row gives. -/
inductive Result where
  /-- `(status)` -/
  | status (st : Status)
  /-- VFD_QUERY: `(status, data)` -/
  | data (st : Status) (bytes : List Byte)
  /-- ADC_READ: `(status, raw)` -/
  | raw (st : Status) (value : BitVec 10)
  /-- ADC_READ_VOLTAGE: `(status, raw, voltage)`, with the channel asked for, as in the AnalogChannelSample of
  42_analog.md R187 -/
  | sample (st : Status) (channel : Int) (value : BitVec 10) (volts : Rat)
  /-- ENC_READ: `(status, position, changed)` -/
  | encoder (st : Status) (position : Int) (changed : Bool)
  /-- KP_SCAN and KP_READ: `(status, last_key, key_pressed)` -/
  | keypad (st : Status) (lastKey : Option Byte) (keyPressed : Bool)
  deriving DecidableEq, Repr

/-- The display renderer (10_state.md R23 to R28). -/
structure Vfd where
  session : Bool
  cursorRow : Nat
  cursorCol : Nat
  rts : Bool
  lineCfg : LineCfg
  deriving DecidableEq, Repr

/-- The analog sampler (10_state.md R29, R30); `none` is UNDRIVEN. -/
structure Adc where
  init : Bool
  csOut : Option Bit
  clkOut : Option Bit
  mosiOut : Option Bit
  deriving DecidableEq, Repr

/-- The quadrature decoder (10_state.md R32 to R35). -/
structure Enc where
  position : Position
  lastA : Bit
  lastB : Bit
  lastEventTick : Option Tick
  changed : Bool
  deriving DecidableEq, Repr

/-- The keypad scanner (10_state.md R37, R38). -/
structure Kp where
  lastKey : Option Byte
  keyPressed : Bool
  deriving DecidableEq, Repr

/-- The serial transmit line (20_memory.md R72): each character put on it, as its bit times in order of time. -/
structure Link where
  tx : List (List Bit)
  deriving DecidableEq, Repr

/-- The reference display model (41_display.md R162): external, and informative in the spec. -/
structure Display where
  grid : List (List Byte)
  row : Nat
  col : Nat
  blink : Bool
  scroll : Bool
  deriving DecidableEq, Repr

/-- The converter, as far as the spec names what it holds (10_state.md R42 (d); 30_encoding.md R107): the command word
it was last sent. -/
structure Converter where
  command : BitVec 5
  deriving DecidableEq, Repr

/-- The I/O expander (10_state.md R42 (b); 20_memory.md R71): its output latch. -/
structure Expander where
  latch : Byte
  deriving DecidableEq, Repr

/-- The environment's answers to the primitives to come (00_scope.md R10; 20_memory.md R60 to R67). MODEL'S OWN
(notes/assumptions/3.md): one list per kind of answer, read from its front; where a list is empty the answer is the
opaque value of `Config` at the counter `draws`, which then advances. `rx` is the serial receive side, burst by burst:
what a `SerialRx` leaves of a burst stays in front (10_state.md R42 (a)). -/
structure Env where
  acks : List Bool
  levels : List (Option Bit)
  bytes : List (Option Byte)
  rx : List (List Char7)
  draws : Nat
  deriving DecidableEq, Repr

/-- What an agent has issued (20_memory.md R73; 30_encoding.md R90): bytes on a surface, or the operation itself.
`during` says that it was issued while a HOST operation was still in progress (70_reset_and_hazards.md R305).
MODEL'S OWN (notes/assumptions/2.md). -/
inductive Request where
  | frame (agent : Agent) (during : Bool) (surface : Surface) (bytes : List Byte)
  | operation (agent : Agent) (during : Bool) (i : Instr)
  deriving DecidableEq, Repr

/-- The machine: the block, its environment, and what is issued to it. `kpParams` is the keypad's configuration, fixed
for the life of the block (10_state.md R22), carried as `vfd.lineCfg` is (notes/assumptions/25.md). -/
structure State where
  vfd : Vfd
  adc : Adc
  enc : Enc
  kp : Kp
  link : Link
  display : Display
  converter : Converter
  expander : Expander
  kpParams : KpParams
  env : Env
  inbox : List Request
  issuer : Agent
  events : List Event
  results : List (Agent × Result)
  deriving DecidableEq, Repr

/-- How the machine can stop with a fault: it cannot. "Every status code of rule R261 is an ordinary result: a step
to a next state. None is a fault, because the chip does not trap" (60_exceptions.md R271). The type has no value, so
that no step faults is a fact of the types. -/
inductive Fault where
  deriving DecidableEq, Repr

/-- Why a step has no meaning. -/
inductive Refusal where
  /-- An instruction without a meaning in this model, by its mnemonic. No arm of `exec` raises it. Safe. -/
  | notModelled (mnemonic : String)
  /-- `fetch` raises it on bytes cut short: "the decoder refuses it" (30_encoding.md R96; 60_exceptions.md R271). Safe. -/
  | truncatedFrame
  /-- `fetch` raises it on a HOST request made while a HOST operation is in progress (70_reset_and_hazards.md R305).
  Safe. -/
  | concurrentHostOperation
  /-- `fetch` raises it on an escape sequence outside the display's list, to which no effect is given
  (30_encoding.md R106; 93_implementation_defined.md U11). Safe. -/
  | unlistedEscape (code : Char7)
  /-- `fetch` raises it on an ADC-wire byte that is no command word, which the block never sends
  (30_encoding.md R107). Safe. -/
  | notCommandWord (byte : Byte)
  /-- `fetch` raises it on a keypad-bus byte that is no row-select pattern, which the block never sends
  (30_encoding.md R110). Safe. -/
  | notRowPattern (byte : Byte)
  deriving DecidableEq, Repr

/-- The display in an unspecified state of the right shape, the n-th drawn (41_display.md R162;
93_implementation_defined.md U1). -/
def Display.unspecified (n : Nat) : Display :=
  { grid := (List.range Config.rows).map fun r => (List.range Config.cols).map fun c => Config.displayCell n r c
    row := Config.displayRow n % Config.rows
    col := Config.displayCol n % (Config.cols + 1)
    blink := Config.displayBlink n
    scroll := Config.displayScroll n }

/-- The machine at launch with the keypad's parameters `p` and the encoder's lines at `a0` and `b0`
(70_reset_and_hazards.md R290, R291). The external state is unspecified (R292), no event has been issued (R293), and
nothing is issued to the block yet. -/
def State.launch (p : KpParams) (a0 b0 : Bit) : State :=
  { vfd := { session := false, cursorRow := 0, cursorCol := 0, rts := false, lineCfg := LineCfg.standard }
    adc := { init := false, csOut := none, clkOut := none, mosiOut := none }
    enc := { position := 0#32, lastA := a0, lastB := b0, lastEventTick := none, changed := false }
    kp := { lastKey := none, keyPressed := false }
    link := { tx := [] }
    display := Display.unspecified 0
    converter := { command := Config.converterCommand0 }
    expander := { latch := Config.expanderLatch0 }
    kpParams := p
    env := { acks := [], levels := [], bytes := [], rx := [], draws := 1 }
    inbox := []
    issuer := .host
    events := []
    results := [] }

/-- The machine right after reset: launch with the free launch parameters A0 and B0, an expander at the OPEN address,
and the spec's ROWPAT and KEYMAP. -/
def State.reset : State := State.launch (KpParams.standard Config.kpAddr) Config.phaseA0 Config.phaseB0

end Sys2Proof.Machine
end

