-- ==== Sys2Proof/Machine/Operands.lean ====
section
/-! DEFINITION. What the operations compute from their operands and their answers: ranges, the words and frames put on
the wires, the assembled result and the voltage. -/

namespace Sys2Proof.Machine

/-- The request of VFD_SET_CURSOR is in the grid (41_display.md R144). -/
def inGrid (r c : Int) : Bool :=
  decide (0 ≤ r) && decide (r < Config.rows) && decide (0 ≤ c) && decide (c < Config.cols)

/-- The channel operand is one the 3-bit select carries (42_analog.md R181): 0..7. -/
def validChannel (ch : Int) : Bool := decide (0 ≤ ch) && decide (ch ≤ 7)

/-- C2 C1 C0 of a channel operand (30_encoding.md R107). -/
def channelBits (ch : Int) : BitVec 3 := BitVec.ofInt 3 ch

/-- `cmd5 = 0b11000 | ch` (30_encoding.md R107; 42_analog.md R189). -/
def commandWord (ch : BitVec 3) : BitVec 5 := 0b11#2 ++ ch

/-- The command bits in the order sent, most significant first (42_analog.md R182). -/
def commandBits (w : BitVec 5) : List Bit :=
  [w.getLsbD 4, w.getLsbD 3, w.getLsbD 2, w.getLsbD 1, w.getLsbD 0]

/-- `raw <- 2*raw + d` over the sampled levels, first sampled first (42_analog.md R182; 30_encoding.md R109). -/
def assembleNat : List Bit → Nat → Nat
  | [], raw => raw
  | d :: ds, raw => assembleNat ds (2 * raw + d.toNat)

/-- `raw[9:0]` of the ten sampled levels (30_encoding.md R109). -/
def assemble (ds : List Bit) : BitVec 10 := BitVec.ofNat 10 (assembleNat ds 0)

/-- `raw × vref / 1023`, exact (42_analog.md R186). -/
def voltsAt (vref : Rat) (raw : BitVec 10) : Rat := (raw.toNat : Rat) * vref / 1023

/-- `VOLT(raw)` with the parameter VREF (42_analog.md R186). -/
def volt (raw : BitVec 10) : Rat := voltsAt Config.vref raw

/-- The one text byte that is a newline; every other is an ordinary character (41_display.md R134). -/
def isNewline (b : Byte) : Bool := b == 0x0A#8

/-- The set-row or set-col parameter of a 0-based row or column: the 1-based number, in binary (30_encoding.md R102). -/
def oneBased (n : Nat) : Char7 := BitVec.ofNat 7 (n + 1)

/-- A character the reference display shows (41_display.md R163). -/
def isPrintable (x : Char7) : Bool := decide (0x20 ≤ x.toNat) && decide (x.toNat ≤ 0x7E)

/-- The even-parity bit of the seven data bits (30_encoding.md R125). -/
def parityBit (x : Char7) : Bit :=
  xor (x.getLsbD 0) (xor (x.getLsbD 1) (xor (x.getLsbD 2) (xor (x.getLsbD 3)
    (xor (x.getLsbD 4) (xor (x.getLsbD 5) (x.getLsbD 6))))))

/-- The ten bit times of one transmitted byte: start 0, d0..d6 of `byte[6:0]`, parity, stop 1 (30_encoding.md R125).
PRESUMED by the spec from general knowledge (93_implementation_defined.md G2): the bit order and the levels of the
start and stop bits. -/
def serialFrame (b : Byte) : List Bit :=
  let x := onWire b
  [false, x.getLsbD 0, x.getLsbD 1, x.getLsbD 2, x.getLsbD 3, x.getLsbD 4, x.getLsbD 5, x.getLsbD 6, parityBit x, true]

/-- The Char a column byte stands for, if KEYMAP has an entry for it: the whole byte is the key (30_encoding.md R112,
R113). -/
def keyOf (p : KpParams) (column : Byte) : Option Byte := p.keymap.lookup column

/-- The number of a status code (60_exceptions.md R261). -/
def statusCode : Status → Nat
  | .ok => 0
  | .portError => 1
  | .timeoutError => 2
  | .invalidChannel => 3
  | .busTransactionError => 4
  | .notInitialized => 5
  | .noSession => 6
  | .illegalCommand => 7

/-- The status of a result record (60_exceptions.md R260). -/
def resultStatus : Result → Status
  | .status st | .data st _ | .raw st _ | .sample st _ _ _ | .encoder st _ _ | .keypad st _ _ => st

end Sys2Proof.Machine
end

