-- ==== Sys2Proof/Machine/Flags.lean ====
section
/-! DEFINITION. When the block's two status flags are set (10_state.md R40): the tests of ENC_EDGE and KP_SCAN. -/

namespace Sys2Proof.Machine

/-- A phase-A rising edge: the last A was 0 and the new A is 1 (43_quadrature.md R210). -/
def isRising (lastA a : Bit) : Bool := !lastA && a

/-- `(t - t0) mod 2^32` (43_quadrature.md R211). -/
def tickGap (t0 t : Tick) : Nat := (t - t0).toNat

/-- DEBOUNCE_OK(t): no edge accepted yet, or the last accepted one at least DEBOUNCE_MS ago (43_quadrature.md R211). -/
def debounceOk (last : Option Tick) (t : Tick) : Bool :=
  match last with
  | none => true
  | some t0 => decide (Config.debounceMs ≤ tickGap t0 t)

/-- The event is an accepted edge, the one case in which ENC_EDGE sets `enc.changed` (43_quadrature.md R210). -/
def isAccepted (e : Enc) (a : Bit) (t : Tick) : Bool := isRising e.lastA a && debounceOk e.lastEventTick t

/-- `+STEP_SIZE` if B is high, `-STEP_SIZE` if it is low (43_quadrature.md R212). -/
def stepDelta (b : Bit) : Int := if b then Config.stepSize else -Config.stepSize

/-- The decoded key differs from the recorded one, the one case in which KP_SCAN sets `kp.key_pressed`
(44_keypad.md R231). -/
def isNewKey (last : Option Byte) (k : Byte) : Bool := last != some k

end Sys2Proof.Machine
end

