-- ==== Sys2Proof/Machine/Ops.lean ====
section
/-! DEFINITION. The named operations: the environment's answers, the primitives of 20_memory.md R60 to R68 with the
event each leaves, how an operation ends (60_exceptions.md R260, R269), the reference display's response to each wire
command (41_display.md R163), and what the block sends on its three wires. -/

namespace Sys2Proof.Machine

/-! ### The environment's answers (00_scope.md R10; notes/assumptions/3.md)

For each kind: the answer the next primitive of that kind gets, and the state once it is taken. -/

/-- The answer the next ok/fail primitive gets: `true` is ok. -/
def State.nextAck (s : State) : Bool :=
  match s.env.acks with
  | a :: _ => a
  | [] => Config.ackDraw s.env.draws

/-- That answer taken. -/
def State.dropAck (s : State) : State :=
  match s.env.acks with
  | _ :: rest => { s with env := { s.env with acks := rest } }
  | [] => { s with env := { s.env with draws := s.env.draws + 1 } }

/-- The level the next PinRead answers; `none` is a failure. -/
def State.nextLevel (s : State) : Option Bit :=
  match s.env.levels with
  | l :: _ => l
  | [] => Config.levelDraw s.env.draws

/-- That level taken. -/
def State.dropLevel (s : State) : State :=
  match s.env.levels with
  | _ :: rest => { s with env := { s.env with levels := rest } }
  | [] => { s with env := { s.env with draws := s.env.draws + 1 } }

/-- The byte the next BusRead answers; `none` is a failure. -/
def State.nextByte (s : State) : Option Byte :=
  match s.env.bytes with
  | b :: _ => b
  | [] => Config.byteDraw s.env.draws

/-- That byte taken. -/
def State.dropByte (s : State) : State :=
  match s.env.bytes with
  | _ :: rest => { s with env := { s.env with bytes := rest } }
  | [] => { s with env := { s.env with draws := s.env.draws + 1 } }

/-- The burst the next SerialRx finds waiting: the front one, or a draw where none is listed. -/
def State.nextBurst (s : State) : List Char7 :=
  match s.env.rx with
  | burst :: _ => burst
  | [] => Config.rxDraw s.env.draws

/-- The bytes the next SerialRx(max) answers: at most `max` of the burst waiting, each zero-extended from seven bits
(20_memory.md R67; 30_encoding.md R125). -/
def State.nextRx (max : Nat) (s : State) : List Byte := (s.nextBurst.take max).map offWire

/-- The receive buffer after a read of at most `max` bytes of `burst`: what is left of it stays in front
(10_state.md R42 (a)). -/
def unread (max : Nat) (burst : List Char7) (later : List (List Char7)) : List (List Char7) :=
  if burst.length ≤ max then later else burst.drop max :: later

/-- Those bytes taken. -/
def State.dropRx (max : Nat) (s : State) : State :=
  match s.env.rx with
  | burst :: later => { s with env := { s.env with rx := unread max burst later } }
  | [] => { s with env := { s.env with rx := unread max s.nextBurst [], draws := s.env.draws + 1 } }

/-! ### The primitives (20_memory.md section 1) -/

/-- One more event of the history (20_memory.md section 1). -/
def State.record (e : Event) (s : State) : State := { s with events := s.events ++ [e] }

/-- The block's record of a pin's output becomes `level` (20_memory.md R61; 10_state.md R30). Only the three ADC
outputs have one. -/
def State.drive (pin : Pin) (level : Bit) (s : State) : State :=
  match pin with
  | .adcCs => { s with adc := { s.adc with csOut := some level } }
  | .adcClk => { s with adc := { s.adc with clkOut := some level } }
  | .adcMosi => { s with adc := { s.adc with mosiOut := some level } }
  | .adcMiso | .encA | .encB => s

/-- `PinMode(pin, dir)`; its response is `s.nextAck` (20_memory.md R60). -/
def pinMode (pin : Pin) (dir : Dir) (s : State) : State := s.dropAck.record (.pinMode pin dir s.nextAck)

/-- `PinWrite(pin, level)`; its response is `s.nextAck` (20_memory.md R61). -/
def pinWrite (pin : Pin) (level : Bit) (s : State) : State :=
  if s.nextAck then (s.dropAck.record (.pinWrite pin level true)).drive pin level
  else s.dropAck.record (.pinWrite pin level false)

/-- `PinRead(pin)`; its response is `s.nextLevel` (20_memory.md R62). -/
def pinRead (pin : Pin) (s : State) : State := s.dropLevel.record (.pinRead pin s.nextLevel)

/-- `BusWrite(addr, byte)`; its response is `s.nextAck` (20_memory.md R63). A write that succeeds sets the output
latch of the one device on the bus (20_memory.md R71). -/
def busWrite (addr : BitVec 7) (byte : Byte) (s : State) : State :=
  if s.nextAck then { s.dropAck.record (.busWrite addr byte true) with expander := { latch := byte } }
  else s.dropAck.record (.busWrite addr byte false)

/-- `BusRead(addr)`; its response is `s.nextByte` (20_memory.md R64). -/
def busRead (addr : BitVec 7) (s : State) : State := s.dropByte.record (.busRead addr s.nextByte)

/-- `SerialOpen(port, cfg)`; its response is `s.nextAck` (20_memory.md R65). -/
def serialOpen (port : String) (cfg : LineCfg) (s : State) : State :=
  s.dropAck.record (.serialOpen port cfg s.nextAck)

/-- `SetRTS(level)`; its response is `s.nextAck` (20_memory.md R66). -/
def setRts (level : Bit) (s : State) : State := s.dropAck.record (.setRts level s.nextAck)

/-- `SerialClose()` (20_memory.md R66). -/
def serialClose (s : State) : State := s.record .serialClose

/-- `SerialTx(byte)`: the byte's character goes on the line (20_memory.md R67; 30_encoding.md R125). -/
def serialTx (byte : Byte) (s : State) : State :=
  { s.record (.serialTx byte) with link := { tx := s.link.tx ++ [serialFrame byte] } }

/-- `SerialRx(max)`; its response is `s.nextRx max` (20_memory.md R67). -/
def serialRx (max : Nat) (s : State) : State := (s.dropRx max).record (.serialRx max (s.nextRx max))

/-- `Delay(d)`, in microseconds (20_memory.md R68; 70_reset_and_hazards.md R300). -/
def delay (us : Nat) (s : State) : State := s.record (.delay us)

/-- `Log(kind)` (20_memory.md R68; 60_exceptions.md R280). -/
def logEvent (kind : LogKind) (s : State) : State := s.record (.log kind)

/-- `emit [b0 b1 ...]` (00_scope.md R14). -/
def emit : List Byte → State → State
  | [], s => s
  | b :: bs, s => emit bs (serialTx b s)

/-! ### The end of an operation -/

/-- `return (status, values...)` (00_scope.md R12; 60_exceptions.md R260): the record goes back to the agent whose
request is run. The block has no exception to take: error entry (60_exceptions.md R269) is this same return, with the
error's status and sentinels, and no error return is needed after it (R270). -/
def State.deliver (r : Result) (s : State) : State := { s with results := s.results ++ [(s.issuer, r)] }

/-! ### The reference display's responses (41_display.md R162, R163) -/

/-- A row of spaces. -/
def blankRow : List Byte := List.replicate Config.cols 0x20#8

/-- A response R163 leaves unspecified: the display's whole state becomes free (93_implementation_defined.md U1). -/
def displayUnspecified (s : State) : State :=
  { s with display := Display.unspecified s.env.draws, env := { s.env with draws := s.env.draws + 1 } }

/-- CLEAR: every cell a space. -/
def displayClear (s : State) : State :=
  { s with display := { s.display with grid := List.replicate Config.rows blankRow } }

/-- HOME: the cursor to (0, 0). -/
def displayHome (s : State) : State := { s with display := { s.display with row := 0, col := 0 } }

/-- SET_ROW rr: row rr - 1, for the parameters 1..ROWS (30_encoding.md R101); no other parameter has a stated effect. -/
def displaySetRow (rr : Char7) (s : State) : State :=
  if 1 ≤ rr.toNat ∧ rr.toNat ≤ Config.rows then { s with display := { s.display with row := rr.toNat - 1 } }
  else displayUnspecified s

/-- SET_COL cc: column cc - 1, for the parameters 1..COLS (30_encoding.md R101); no other parameter has a stated
effect. -/
def displaySetCol (cc : Char7) (s : State) : State :=
  if 1 ≤ cc.toNat ∧ cc.toNat ≤ Config.cols then { s with display := { s.display with col := cc.toNat - 1 } }
  else displayUnspecified s

/-- SCROLL_ENABLE: scroll mode on. -/
def displayScrollEnable (s : State) : State := { s with display := { s.display with scroll := true } }

/-- BLINK_START and BLINK_END: blink mode on, off. -/
def displayBlink (on : Bool) (s : State) : State := { s with display := { s.display with blink := on } }

/-- A character: a printable one before the last column's end is shown at the display's cursor, which moves right;
any other effect is unspecified. -/
def displayCharacter (x : Char7) (s : State) : State :=
  if isPrintable x ∧ s.display.col < Config.cols then
    { s with
      display :=
        { s.display with
          grid := s.display.grid.modify s.display.row fun line => line.set s.display.col (offWire x)
          col := s.display.col + 1 } }
  else displayUnspecified s

/-- NEWLINE: with scroll mode on, the next row's start, and on the last row a scroll, which discards the oldest row
(41_display.md R138); with scroll mode off the effect is unspecified. -/
def displayNewline (s : State) : State :=
  if s.display.scroll then
    if s.display.row < Config.rows - 1 then
      { s with display := { s.display with row := s.display.row + 1, col := 0 } }
    else { s with display := { s.display with grid := s.display.grid.drop 1 ++ [blankRow], col := 0 } }
  else displayUnspecified s

/-! ### What the block sends on the display's wire (30_encoding.md R101): the bytes, and the display's response -/

/-- `19 0C` (41_display.md R148). -/
def sendClear (s : State) : State := displayClear (emit [0x19#8, 0x0C#8] s)

/-- `19 0E` (41_display.md R149). -/
def sendHome (s : State) : State := displayHome (emit [0x19#8, 0x0E#8] s)

/-- `19 0B` (41_display.md R150): no response stated beyond the name. -/
def sendCursorUp (s : State) : State := displayUnspecified (emit [0x19#8, 0x0B#8] s)

/-- `19 11 rr` (41_display.md R151). -/
def sendSetRow (rr : Char7) (s : State) : State := displaySetRow rr (emit [0x19#8, 0x11#8, offWire rr] s)

/-- `19 13 cc` (41_display.md R152). -/
def sendSetCol (cc : Char7) (s : State) : State := displaySetCol cc (emit [0x19#8, 0x13#8, offWire cc] s)

/-- `0D 0A` (41_display.md R153), SCROLL_SEQ. -/
def sendNewline (s : State) : State := displayNewline (emit Config.scrollSeq s)

/-- `08` (41_display.md R154): no response stated beyond the name. -/
def sendBackspace (s : State) : State := displayUnspecified (emit [0x08#8] s)

/-- `19 10` (41_display.md R155): no response stated beyond the name. -/
def sendDeleteChar (s : State) : State := displayUnspecified (emit [0x19#8, 0x10#8] s)

/-- `0B` (41_display.md R156). -/
def sendBlinkStart (s : State) : State := displayBlink true (emit [0x0B#8] s)

/-- `0C` (41_display.md R157). -/
def sendBlinkEnd (s : State) : State := displayBlink false (emit [0x0C#8] s)

/-- `19 4F` (41_display.md R158): no response stated beyond the name, and no level byte (93_implementation_defined.md
U12). -/
def sendBrightness (s : State) : State := displayUnspecified (emit [0x19#8, 0x4F#8] s)

/-- `10` (41_display.md R159), OPEN_INIT_SEQ. -/
def sendScrollEnable (s : State) : State := displayScrollEnable (emit Config.openInitSeq s)

/-- `04 00` (41_display.md R160): the display answers on the receive line, which is read by SerialRx; R163 states no
other response. -/
def sendContentQuery (s : State) : State := displayUnspecified (emit [0x04#8, 0x00#8] s)

/-- One character, given to SerialTx as `b` and carried as `b[6:0]` (41_display.md R161). -/
def sendCharacter (b : Byte) (s : State) : State := displayCharacter (onWire b) (serialTx b s)

/-! ### The text renderer (41_display.md section 2) -/

/-- The cursor becomes `(row, col)`. -/
def State.moveCursor (row col : Nat) (s : State) : State :=
  { s with vfd := { s.vfd with cursorRow := row, cursorCol := col } }

/-- The two-part positioning command for a 0-based cell, row first (41_display.md R136, R144). -/
def sendPosition (row col : Nat) (s : State) : State := sendSetCol (oneBased col) (sendSetRow (oneBased row) s)

/-- NEWLINE() (41_display.md R135): to the next row with a reposition, or, on the last row, a scroll. -/
def newline (s : State) : State :=
  if s.vfd.cursorRow < Config.rows - 1 then
    sendPosition (s.vfd.cursorRow + 1) 0 (s.moveCursor (s.vfd.cursorRow + 1) 0)
  else sendNewline (s.moveCursor s.vfd.cursorRow 0)

/-- The column moves one to the right. -/
def State.advance (s : State) : State := s.moveCursor s.vfd.cursorRow (s.vfd.cursorCol + 1)

/-- PUTC(b), with the eager autowrap (41_display.md R140, R141). -/
def putc (b : Byte) (s : State) : State :=
  let s' := (sendCharacter b s).advance
  if s'.vfd.cursorCol = Config.cols then newline s' else s'

/-- One byte of a text (41_display.md R134). -/
def writeByte (b : Byte) (s : State) : State := if isNewline b then newline s else putc b s

/-- WRITE_BODY(text) (41_display.md R139). -/
def writeBody : List Byte → State → State
  | [], s => s
  | b :: text, s => writeBody text (writeByte b s)

/-- The read loop of VFD_QUERY (41_display.md R146), from a buffer and a count of consecutive empty reads: the buffer
it ends with, and the state. `fuel` bounds the reads; QUERY_MAX * QUERY_MAX_EMPTY of them are enough from the start
(41_display.md R147). -/
def queryLoop : Nat → List Byte → Nat → State → List Byte × State
  | 0, buf, _, s => (buf, s)
  | fuel + 1, buf, empties, s =>
    let got := s.nextRx (Config.queryMax - buf.length)
    let s' := serialRx (Config.queryMax - buf.length) s
    let buf' := buf ++ got
    let empties' := if got.length = 0 then empties + 1 else 0
    if buf'.length = Config.queryMax ∨ empties' = Config.queryMaxEmpty then (buf', s')
    else queryLoop fuel buf' empties' (delay (Config.ms Config.queryRetrySleepMs) s')

/-- The most SerialRx calls one VFD_QUERY issues (41_display.md R147). -/
def queryFuel : Nat := Config.queryMax * Config.queryMaxEmpty

/-! ### The analog sampler's pin sequences (42_analog.md) -/

/-- One step of a pin sequence: drive an output, or sample MISO. -/
inductive PinStep where
  | write (pin : Pin) (level : Bit)
  | sample
  deriving DecidableEq, Repr

/-- Run a pin sequence: every write is followed by `Delay(T_SETTLE_US)`, a sample is not; the first failing primitive
ends it with no bits (42_analog.md R182, `P` and `R`). The bits sampled are added to `bits`. -/
def runPins : List PinStep → List Bit → State → Option (List Bit) × State
  | [], bits, s => (some bits, s)
  | .write pin level :: rest, bits, s =>
    if s.nextAck then runPins rest bits (delay Config.tSettleUs (pinWrite pin level s))
    else (none, pinWrite pin level s)
  | .sample :: rest, bits, s =>
    match s.nextLevel with
    | some d => runPins rest (bits ++ [d]) (pinRead .adcMiso s)
    | none => (none, pinRead .adcMiso s)

/-- One clock period without a sample: CLK up, CLK down. -/
def clockPulse : List PinStep := [.write .adcClk true, .write .adcClk false]

/-- Chip-select active, then the five command clocks, MOSI set before each rising edge (42_analog.md R182). -/
def commandSteps (w : BitVec 5) : List PinStep :=
  .write .adcCs Config.csActive :: (commandBits w).flatMap fun c => .write .adcMosi c :: clockPulse

/-- One result clock: CLK up, sample, CLK down (42_analog.md R182). -/
def resultClock : List PinStep := [.write .adcClk true, .sample, .write .adcClk false]

/-- The null clock, the ten result clocks, and chip-select inactive (42_analog.md R182). -/
def resultSteps : List PinStep :=
  clockPulse ++ (List.replicate 10 resultClock).flatten ++ [.write .adcCs Config.csInactive]

/-- ABANDON: CLK to 0, chip-select inactive, both responses ignored (42_analog.md R183). -/
def abandon (s : State) : State := pinWrite .adcCs Config.csInactive (pinWrite .adcClk false s)

/-- The command word has reached the converter (30_encoding.md R107; 10_state.md R42 (d)). -/
def State.sendCommand (w : BitVec 5) (s : State) : State := { s with converter := { command := w } }

/-- ADC_TRANSACTION(ch) (42_analog.md R182): the raw value, or `none` once the transaction is abandoned (R183). -/
def adcTransaction (ch : BitVec 3) (s : State) : Option (BitVec 10) × State :=
  match runPins (commandSteps (commandWord ch)) [] s with
  | (none, s1) => (none, abandon s1)
  | (some _, s1) =>
    match runPins resultSteps [] (s1.sendCommand (commandWord ch)) with
    | (none, s2) => (none, abandon s2)
    | (some ds, s2) => (some (assemble ds), s2)

/-- The status and value of a transaction: the raw value, or BusTransactionError with the sentinel 0
(42_analog.md R181, R183). -/
def transactionResult : Option (BitVec 10) → Status × BitVec 10
  | some raw => (.ok, raw)
  | none => (.busTransactionError, 0#10)

/-- What ADC_READ(ch) and ADC_READ_VOLTAGE(ch) do before they return: the checks in order, then the transaction
(42_analog.md R181, R185; 60_exceptions.md R272). -/
def readChannel (ch : Int) (s : State) : (Status × BitVec 10) × State :=
  if !validChannel ch then ((.invalidChannel, 0#10), s)
  else if !s.adc.init then ((.notInitialized, 0#10), s)
  else (transactionResult (adcTransaction (channelBits ch) s).1, (adcTransaction (channelBits ch) s).2)

/-- `adc.init <- v`. -/
def State.setInit (v : Bool) (s : State) : State := { s with adc := { s.adc with init := v } }

/-- The PinModes of ADC_INIT in order, up to the first that fails: whether all succeeded (42_analog.md R180). -/
def configurePins : List (Pin × Dir) → State → Bool × State
  | [], s => (true, s)
  | (pin, dir) :: rest, s =>
    if s.nextAck then configurePins rest (pinMode pin dir s) else (false, pinMode pin dir s)

/-- The idle PinWrites of ADC_INIT in order, up to the first that fails: whether all succeeded (42_analog.md R180). -/
def driveIdle : List (Pin × Bit) → State → Bool × State
  | [], s => (true, s)
  | (pin, level) :: rest, s =>
    if s.nextAck then driveIdle rest (pinWrite pin level s) else (false, pinWrite pin level s)

/-- The four ADC lines with their directions (42_analog.md R180; 20_memory.md R70). -/
def adcPinModes : List (Pin × Dir) :=
  [(.adcCs, .output), (.adcClk, .output), (.adcMosi, .output), (.adcMiso, .input)]

/-- The idle levels ADC_INIT drives (42_analog.md R180). -/
def adcIdleLevels : List (Pin × Bit) := [(.adcCs, Config.csInactive), (.adcClk, false), (.adcMosi, false)]

/-! ### The keypad scanner's pass (44_keypad.md) -/

/-- What one pass has found: whether a row's byte decoded to a key, whether no row was skipped, and the state. -/
structure Pass where
  matched : Bool
  allOk : Bool
  state : State

/-- A decoded key: recorded, with the flag set, if it differs from the last one (44_keypad.md R231). -/
def State.noteKey (k : Byte) (s : State) : State :=
  if isNewKey s.kp.lastKey k then { s with kp := { lastKey := some k, keyPressed := true } } else s

/-- Send a row-select pattern to the expander (44_keypad.md R230; 30_encoding.md R110). -/
def selectRow (p : KpParams) (pattern : Byte) (s : State) : State := busWrite p.addr pattern s

/-- The rows of one pass, each a pattern with its index, from a pass that has skipped none (`ok`) or some
(44_keypad.md R230, R233). -/
def scanRows (p : KpParams) : List (Byte × Nat) → Bool → State → Pass
  | [], ok, s => { matched := false, allOk := ok, state := s }
  | (pattern, i) :: rest, ok, s =>
    let s1 := selectRow p pattern s
    if s.nextAck then
      let s2 := delay (Config.ms Config.kpSettleMs) s1
      let s3 := busRead p.addr s2
      match s2.nextByte with
      | none => scanRows p rest false (logEvent (.kpBusReadFail i) s3)
      | some column =>
        match keyOf p column with
        | none => scanRows p rest ok s3
        | some k => { matched := true, allOk := ok, state := s3.noteKey k }
    else scanRows p rest false (logEvent (.kpBusWriteFail i) s1)

/-- `kp.last_key <- NONE`. -/
def State.forgetKey (s : State) : State := { s with kp := { s.kp with lastKey := none } }

/-- The whole pass over ROWPAT. -/
def scanPass (s : State) : Pass := scanRows s.kpParams s.kpParams.rowPat.zipIdx true s

/-- A pass that read all four rows and decoded no key clears `kp.last_key` (44_keypad.md R232). -/
def Pass.settle (p : Pass) : State := if !p.matched && p.allOk then p.state.forgetKey else p.state

/-- The unit's state as a result record (44_keypad.md R230, R234). -/
def keypadResult (st : Status) (kp : Kp) : Result := .keypad st kp.lastKey kp.keyPressed

end Sys2Proof.Machine
end

