-- ==== Sys2Proof/Machine/Adc.lean ====
section
/-! DEFINITION. The analog sampler's operations (42_analog.md) and its eight command frames (30_encoding.md R107,
R108). -/

namespace Sys2Proof.Machine

/-- ADC_INIT up to its return: whether every pin primitive succeeded, and the state (42_analog.md R180). -/
def initAdc (s : State) : Bool × State :=
  let modes := configurePins adcPinModes (s.setInit false)
  if modes.1 then
    let idle := driveIdle adcIdleLevels modes.2
    if idle.1 then (true, idle.2.setInit true) else (false, idle.2)
  else (false, modes.2)

/-- ADC_INIT (42_analog.md R180; 60_exceptions.md R265). -/
def execAdcInit (s : State) : Host.Outcome State Fault Refusal :=
  .next ((initAdc s).2.deliver (.status (if (initAdc s).1 then .ok else .busTransactionError)))

/-- ADC_READ (42_analog.md R181, R188). -/
def execAdcRead (ch : Int) (s : State) : Host.Outcome State Fault Refusal :=
  .next ((readChannel ch s).2.deliver (.raw (readChannel ch s).1.1 (readChannel ch s).1.2))

/-- The record of ADC_READ_VOLTAGE: on an error raw 0 and voltage 0 (42_analog.md R185, R187). -/
def sampleResult (ch : Int) (st : Status) (raw : BitVec 10) : Result :=
  if st = .ok then .sample .ok ch raw (volt raw) else .sample st ch 0#10 0

/-- ADC_READ_VOLTAGE (42_analog.md R185). -/
def execAdcReadVoltage (ch : Int) (s : State) : Host.Outcome State Fault Refusal :=
  .next ((readChannel ch s).2.deliver (sampleResult ch (readChannel ch s).1.1 (readChannel ch s).1.2))

/-- One command frame on the ADC wire: the transaction of 42_analog.md R182 for a channel, with the status and value
it returns (R182, R183) as the record. DESIGN CHOICE (notes/assumptions/8.md). -/
def sendFrame (ch : BitVec 3) (s : State) : State :=
  let t := adcTransaction ch s
  t.2.deliver (.raw (transactionResult t.1).1 (transactionResult t.1).2)

/-- ADC_CMD_CH0 (30_encoding.md R107; 42_analog.md R189). -/
def execAdcCmdCh0 (s : State) : Host.Outcome State Fault Refusal := .next (sendFrame 0#3 s)

/-- ADC_CMD_CH1. -/
def execAdcCmdCh1 (s : State) : Host.Outcome State Fault Refusal := .next (sendFrame 1#3 s)

/-- ADC_CMD_CH2. -/
def execAdcCmdCh2 (s : State) : Host.Outcome State Fault Refusal := .next (sendFrame 2#3 s)

/-- ADC_CMD_CH3. -/
def execAdcCmdCh3 (s : State) : Host.Outcome State Fault Refusal := .next (sendFrame 3#3 s)

/-- ADC_CMD_CH4. -/
def execAdcCmdCh4 (s : State) : Host.Outcome State Fault Refusal := .next (sendFrame 4#3 s)

/-- ADC_CMD_CH5. -/
def execAdcCmdCh5 (s : State) : Host.Outcome State Fault Refusal := .next (sendFrame 5#3 s)

/-- ADC_CMD_CH6. -/
def execAdcCmdCh6 (s : State) : Host.Outcome State Fault Refusal := .next (sendFrame 6#3 s)

/-- ADC_CMD_CH7. -/
def execAdcCmdCh7 (s : State) : Host.Outcome State Fault Refusal := .next (sendFrame 7#3 s)

end Sys2Proof.Machine
end

