-- ==== Sys2Proof/Machine/Enc.lean ====
section
/-! DEFINITION. The quadrature decoder's operations (43_quadrature.md); each is one atomic step (20_memory.md R75). -/

namespace Sys2Proof.Machine

/-- What an accepted edge writes (43_quadrature.md R210, R212): the position wraps in 32 bits. -/
def acceptEdge (b : Bit) (t : Tick) (e : Enc) : Enc :=
  { e with position := e.position + BitVec.ofInt 32 (stepDelta b), lastEventTick := some t, changed := true }

/-- The decoder after one notification: the step if the edge is accepted, and the phase bookkeeping always
(43_quadrature.md R210, R213). -/
def edgeStep (a b : Bit) (t : Tick) (e : Enc) : Enc :=
  { (if isAccepted e a t then acceptEdge b t e else e) with lastA := a, lastB := b }

/-- ENC_EDGE (43_quadrature.md R210). -/
def execEncEdge (a b : Bit) (t : Tick) (s : State) : Host.Outcome State Fault Refusal :=
  .next (State.deliver (.status .ok) { s with enc := edgeStep a b t s.enc })

/-- ENC_READ (43_quadrature.md R214). -/
def execEncRead (s : State) : Host.Outcome State Fault Refusal :=
  .next (s.deliver (.encoder .ok s.enc.position.toInt s.enc.changed))

/-- ENC_CLEAR_CHANGED (43_quadrature.md R215). -/
def execEncClearChanged (s : State) : Host.Outcome State Fault Refusal :=
  .next (State.deliver (.status .ok) { s with enc := { s.enc with changed := false } })

end Sys2Proof.Machine
end

