-- ==== Sys2Proof/Machine/Kp.lean ====
section
/-! DEFINITION. The keypad scanner's operations (44_keypad.md) and its four row-select patterns (30_encoding.md R110,
R111). -/

namespace Sys2Proof.Machine

/-- KP_SCAN (44_keypad.md R230): BusTransactionError if a row was skipped, in either case with the unit's real
state. -/
def execKpScan (s : State) : Host.Outcome State Fault Refusal :=
  let p := scanPass s
  .next (p.settle.deliver (keypadResult (if p.allOk then .ok else .busTransactionError) p.settle.kp))

/-- KP_READ (44_keypad.md R234). -/
def execKpRead (s : State) : Host.Outcome State Fault Refusal := .next (s.deliver (keypadResult .ok s.kp))

/-- KP_CLEAR_FLAG (44_keypad.md R235). -/
def execKpClearFlag (s : State) : Host.Outcome State Fault Refusal :=
  .next (State.deliver (.status .ok) { s with kp := { s.kp with keyPressed := false } })

/-- KP_CLEAR_KEY (44_keypad.md R236). -/
def execKpClearKey (s : State) : Host.Outcome State Fault Refusal := .next (s.forgetKey.deliver (.status .ok))

/-- KP_ROWSEL_0 (30_encoding.md R110, R111): ROWPAT[0] sent to the expander. -/
def execKpRowsel0 (s : State) : Host.Outcome State Fault Refusal := .next (selectRow s.kpParams s.kpParams.row0 s)

/-- KP_ROWSEL_1: ROWPAT[1]. -/
def execKpRowsel1 (s : State) : Host.Outcome State Fault Refusal := .next (selectRow s.kpParams s.kpParams.row1 s)

/-- KP_ROWSEL_2: ROWPAT[2]. -/
def execKpRowsel2 (s : State) : Host.Outcome State Fault Refusal := .next (selectRow s.kpParams s.kpParams.row2 s)

/-- KP_ROWSEL_3: ROWPAT[3]. -/
def execKpRowsel3 (s : State) : Host.Outcome State Fault Refusal := .next (selectRow s.kpParams s.kpParams.row3 s)

end Sys2Proof.Machine
end

