-- ==== Sys2Proof/Machine/Vfd.lean ====
section
/-! DEFINITION. The display renderer's operations (41_display.md sections 1 to 4). -/

namespace Sys2Proof.Machine

/-- The session guard of every VFD operation but VFD_OPEN: NoSession, with no primitive and no state written
(41_display.md R133; 60_exceptions.md R268). -/
def withSession (s : State) (live : State) : State := if s.vfd.session then live else s.deliver (.status .noSession)

/-- The end of a successful VFD_OPEN: RTS asserted, the stabilisation delay, OPEN_INIT_SEQ, the cursor at (0,0), the
session live (41_display.md R130). -/
def startSession (s : State) : State :=
  let s1 : State := { s with vfd := { s.vfd with rts := true } }
  let s2 := (sendScrollEnable (delay (Config.ms Config.openWaitMs) s1)).moveCursor 0 0
  { s2 with vfd := { s2.vfd with session := true } }

/-- VFD_OPEN up to its return: whether the session started, and the state (41_display.md R130; 60_exceptions.md R262). -/
def openSession (s : State) : Bool × State :=
  if s.vfd.session then (false, s)
  else
    let s1 := serialOpen Config.port s.vfd.lineCfg s
    if s.nextAck then
      let s2 := setRts true s1
      if s1.nextAck then (true, startSession s2) else (false, serialClose s2)
    else (false, s1)

/-- VFD_OPEN (41_display.md R130). -/
def execVfdOpen (s : State) : Host.Outcome State Fault Refusal :=
  .next ((openSession s).2.deliver (.status (if (openSession s).1 then .ok else .portError)))

/-- VFD_CLOSE (41_display.md R131). -/
def execVfdClose (s : State) : Host.Outcome State Fault Refusal :=
  let s1 := serialClose s
  .next (withSession s
    (State.deliver (.status .ok) { s1 with vfd := { s1.vfd with session := false, rts := false } }))

/-- VFD_CLEAR (41_display.md R132): CLEAR_SEQ, which the display takes as clear and home, then the delay. -/
def execVfdClear (s : State) : Host.Outcome State Fault Refusal :=
  let s1 := displayHome (displayClear (emit Config.clearSeq s))
  .next (withSession s
    (((delay (Config.ms Config.clearWaitMs) s1).moveCursor 0 0).deliver (.status .ok)))

/-- VFD_WRITE (41_display.md R139). -/
def execVfdWrite (text : List Byte) (s : State) : Host.Outcome State Fault Refusal :=
  .next (withSession s ((writeBody text s).deliver (.status .ok)))

/-- VFD_WRITE_BLINKING (41_display.md R143). -/
def execVfdWriteBlinking (text : List Byte) (s : State) : Host.Outcome State Fault Refusal :=
  .next (withSession s ((sendBlinkEnd (writeBody text (sendBlinkStart s))).deliver (.status .ok)))

/-- VFD_SET_CURSOR (41_display.md R144, R145): a request outside the grid is rejected with OK and no effect. -/
def execVfdSetCursor (row col : Int) (s : State) : Host.Outcome State Fault Refusal :=
  .next (withSession s
    (if inGrid row col then
      ((sendPosition row.toNat col.toNat s).moveCursor row.toNat col.toNat).deliver (.status .ok)
    else s.deliver (.status .ok)))

/-- VFD_QUERY's record: TimeoutError if no byte at all was received (41_display.md R146; 60_exceptions.md R263). -/
def queryResult (buf : List Byte) : Result := if buf.length = 0 then .data .timeoutError [] else .data .ok buf

/-- VFD_QUERY (41_display.md R146). Without a session the record carries the empty data (60_exceptions.md R260). -/
def execVfdQuery (s : State) : Host.Outcome State Fault Refusal :=
  let q := queryLoop queryFuel [] 0 (sendContentQuery s)
  .next (if s.vfd.session then q.2.deliver (queryResult q.1) else s.deliver (.data .noSession []))

end Sys2Proof.Machine
end

