-- ==== Sys2Proof/Machine/Wire.lean ====
section
/-! DEFINITION. The display's wire commands as instructions of their own (41_display.md section 5): the bytes go on the
line and the reference display responds (R163). They yield no result record (60_exceptions.md R260 gives them none)
and, being no operation of the host port, they have no session guard. DESIGN CHOICE (notes/assumptions/7.md). -/

namespace Sys2Proof.Machine

/-- WIRE_CLEAR (41_display.md R148). -/
def execWireClear (s : State) : Host.Outcome State Fault Refusal := .next (sendClear s)

/-- WIRE_HOME (41_display.md R149). -/
def execWireHome (s : State) : Host.Outcome State Fault Refusal := .next (sendHome s)

/-- WIRE_CURSOR_UP (41_display.md R150). -/
def execWireCursorUp (s : State) : Host.Outcome State Fault Refusal := .next (sendCursorUp s)

/-- WIRE_SET_ROW (41_display.md R151). -/
def execWireSetRow (rr : Char7) (s : State) : Host.Outcome State Fault Refusal := .next (sendSetRow rr s)

/-- WIRE_SET_COL (41_display.md R152). -/
def execWireSetCol (cc : Char7) (s : State) : Host.Outcome State Fault Refusal := .next (sendSetCol cc s)

/-- WIRE_NEWLINE (41_display.md R153). -/
def execWireNewline (s : State) : Host.Outcome State Fault Refusal := .next (sendNewline s)

/-- WIRE_BACKSPACE (41_display.md R154). -/
def execWireBackspace (s : State) : Host.Outcome State Fault Refusal := .next (sendBackspace s)

/-- WIRE_DELETE_CHAR (41_display.md R155). -/
def execWireDeleteChar (s : State) : Host.Outcome State Fault Refusal := .next (sendDeleteChar s)

/-- WIRE_BLINK_START (41_display.md R156). -/
def execWireBlinkStart (s : State) : Host.Outcome State Fault Refusal := .next (sendBlinkStart s)

/-- WIRE_BLINK_END (41_display.md R157). -/
def execWireBlinkEnd (s : State) : Host.Outcome State Fault Refusal := .next (sendBlinkEnd s)

/-- WIRE_BRIGHTNESS (41_display.md R158). -/
def execWireBrightness (s : State) : Host.Outcome State Fault Refusal := .next (sendBrightness s)

/-- WIRE_SCROLL_ENABLE (41_display.md R159). -/
def execWireScrollEnable (s : State) : Host.Outcome State Fault Refusal := .next (sendScrollEnable s)

/-- WIRE_CONTENT_QUERY (41_display.md R160). -/
def execWireContentQuery (s : State) : Host.Outcome State Fault Refusal := .next (sendContentQuery s)

/-- WIRE_CHARACTER (41_display.md R161). -/
def execWireCharacter (x : Char7) (s : State) : Host.Outcome State Fault Refusal := .next (sendCharacter (offWire x) s)

end Sys2Proof.Machine
end

