-- ==== Sys2Proof/Machine/Dispatch.lean ====
section
/-! DEFINITION. `exec`: one arm per constructor of Instr, each one call of that instruction's own meaning. -/

namespace Sys2Proof.Machine

def exec (i : Instr) (s : State) : Host.Outcome State Fault Refusal :=
  match i with
  | .vfdOpen => Sys2Proof.Machine.execVfdOpen s
  | .vfdClose => Sys2Proof.Machine.execVfdClose s
  | .vfdClear => Sys2Proof.Machine.execVfdClear s
  | .vfdWrite text => Sys2Proof.Machine.execVfdWrite text s
  | .vfdWriteBlinking text => Sys2Proof.Machine.execVfdWriteBlinking text s
  | .vfdSetCursor row col => Sys2Proof.Machine.execVfdSetCursor row col s
  | .vfdQuery => Sys2Proof.Machine.execVfdQuery s
  | .adcInit => Sys2Proof.Machine.execAdcInit s
  | .adcRead ch => Sys2Proof.Machine.execAdcRead ch s
  | .adcReadVoltage ch => Sys2Proof.Machine.execAdcReadVoltage ch s
  | .encEdge a b t => Sys2Proof.Machine.execEncEdge a b t s
  | .encRead => Sys2Proof.Machine.execEncRead s
  | .encClearChanged => Sys2Proof.Machine.execEncClearChanged s
  | .kpScan => Sys2Proof.Machine.execKpScan s
  | .kpRead => Sys2Proof.Machine.execKpRead s
  | .kpClearFlag => Sys2Proof.Machine.execKpClearFlag s
  | .kpClearKey => Sys2Proof.Machine.execKpClearKey s
  | .wireClear => Sys2Proof.Machine.execWireClear s
  | .wireHome => Sys2Proof.Machine.execWireHome s
  | .wireCursorUp => Sys2Proof.Machine.execWireCursorUp s
  | .wireSetRow rr => Sys2Proof.Machine.execWireSetRow rr s
  | .wireSetCol cc => Sys2Proof.Machine.execWireSetCol cc s
  | .wireNewline => Sys2Proof.Machine.execWireNewline s
  | .wireBackspace => Sys2Proof.Machine.execWireBackspace s
  | .wireDeleteChar => Sys2Proof.Machine.execWireDeleteChar s
  | .wireBlinkStart => Sys2Proof.Machine.execWireBlinkStart s
  | .wireBlinkEnd => Sys2Proof.Machine.execWireBlinkEnd s
  | .wireBrightness => Sys2Proof.Machine.execWireBrightness s
  | .wireScrollEnable => Sys2Proof.Machine.execWireScrollEnable s
  | .wireContentQuery => Sys2Proof.Machine.execWireContentQuery s
  | .wireCharacter x => Sys2Proof.Machine.execWireCharacter x s
  | .adcCmdCh0 => Sys2Proof.Machine.execAdcCmdCh0 s
  | .adcCmdCh1 => Sys2Proof.Machine.execAdcCmdCh1 s
  | .adcCmdCh2 => Sys2Proof.Machine.execAdcCmdCh2 s
  | .adcCmdCh3 => Sys2Proof.Machine.execAdcCmdCh3 s
  | .adcCmdCh4 => Sys2Proof.Machine.execAdcCmdCh4 s
  | .adcCmdCh5 => Sys2Proof.Machine.execAdcCmdCh5 s
  | .adcCmdCh6 => Sys2Proof.Machine.execAdcCmdCh6 s
  | .adcCmdCh7 => Sys2Proof.Machine.execAdcCmdCh7 s
  | .kpRowsel0 => Sys2Proof.Machine.execKpRowsel0 s
  | .kpRowsel1 => Sys2Proof.Machine.execKpRowsel1 s
  | .kpRowsel2 => Sys2Proof.Machine.execKpRowsel2 s
  | .kpRowsel3 => Sys2Proof.Machine.execKpRowsel3 s

end Sys2Proof.Machine
end

