-- ==== Sys2Proof/Machine/Fetch.lean ====
section
/-! DEFINITION. Taking the next request an agent has issued (10_state.md R21: the block fetches nothing; it executes
what HOST and NOTIFIER issue), and placing one. -/

namespace Sys2Proof.Machine

/-- What the front of the inbox comes to. -/
inductive Fetched where
  /-- nothing is issued: nothing happens (10_state.md R21) -/
  | idle
  /-- an instruction to run, in the state with its request taken -/
  | run (i : Instr) (s : State)
  /-- an illegal frame, in the state with the frame taken (30_encoding.md R97, R98) -/
  | illegal (s : State)
  /-- no meaning -/
  | stop (r : Refusal)
  deriving DecidableEq, Repr

/-- The request is a HOST operation made while a HOST operation is in progress; only NOTIFIER's ENC_EDGE interleaves
with one (70_reset_and_hazards.md R305; 20_memory.md R82). -/
def clashes (agent : Agent) (during : Bool) (i : Instr) : Bool :=
  match during, agent, i with
  | false, _, _ => false
  | true, .notifier, .encEdge _ _ _ => false
  | true, _, _ => true

/-- The state in which an agent's request is run, with `rest` still issued. -/
def State.accept (agent : Agent) (rest : List Request) (s : State) : State := { s with inbox := rest, issuer := agent }

/-- The bytes after an instruction are the agent's next ones. -/
def pushRest (agent : Agent) (during : Bool) (surface : Surface) (bytes : List Byte) (q : List Request) : List Request :=
  match bytes with
  | [] => q
  | b :: bs => .frame agent during surface (b :: bs) :: q

/-- The bytes after an illegal frame: a frame with reserved bits set has its format's length, and one with a reserved
opcode has none, so all its bytes are dropped (30_encoding.md R96 to R98). -/
def afterIllegal (bytes : List Byte) : List Byte :=
  match frameLength bytes with
  | some n => bytes.drop n
  | none => []

/-- What the front of the inbox comes to (30_encoding.md R90, R96 to R98; 70_reset_and_hazards.md R305). -/
def fetch (s : State) : Fetched :=
  match s.inbox with
  | [] => .idle
  | .operation agent during i :: q =>
    if clashes agent during i then .stop .concurrentHostOperation else .run i (s.accept agent q)
  | .frame agent during surface bytes :: q =>
    if during && agent == .host then .stop .concurrentHostOperation
    else
      match decode s.kpParams surface bytes with
      | .ok (i, rest) =>
        if clashes agent during i then .stop .concurrentHostOperation
        else .run i (s.accept agent (pushRest agent during surface rest q))
      | .error .truncated => .stop .truncatedFrame
      | .error (.reservedOpcode _) => .illegal (s.accept agent (pushRest agent during surface (afterIllegal bytes) q))
      | .error .reservedBits => .illegal (s.accept agent (pushRest agent during surface (afterIllegal bytes) q))
      | .error (.unlistedEscape code) => .stop (.unlistedEscape code)
      | .error (.notCommandWord byte) => .stop (.notCommandWord byte)
      | .error (.notRowPattern byte) => .stop (.notRowPattern byte)

/-- The step an illegal frame makes: IllegalCommand, no primitive, no state written (60_exceptions.md R267). -/
def illegalStep (s : State) : State := s.deliver (.status .illegalCommand)

/-- HOST issues the instruction of a table number, ahead of everything else issued. -/
def placeTableWord (nbits w : Nat) (s : State) : State :=
  { s with inbox := .frame .host false (tableSurface (tableBytes nbits w)) (tableFrame nbits w) :: s.inbox }

end Sys2Proof.Machine
end

