-- ==== Sys2Proof/Machine/Step.lean ====
section
/-! DEFINITION. One step: the front request of the inbox is taken and run. -/

namespace Sys2Proof.Machine

/-- One step. With nothing issued, nothing advances (10_state.md R21). -/
def step (s : State) : Host.Outcome State Fault Refusal :=
  match fetch s with
  | .idle => .next s
  | .run i s' => exec i s'
  | .illegal s' => .next (illegalStep s')
  | .stop r => .refused r

/-- `s` with the instruction of a table number issued by HOST, so that the next step runs it. -/
def State.withFetchWord (s : State) (nbits w : Nat) : State := placeTableWord nbits w s

end Sys2Proof.Machine
end

