-- ==== Sys2Proof/Machine/Text.lean ====
section
/-! DEFINITION. The textual syntax of operation sequences (30_encoding.md R126): one operation a line, and the request
a line stands for. The pseudo-operations of R127 are names for operations that have lines of their own. -/

namespace Sys2Proof.Machine

/-- One more byte in front of a text already read. -/
def consByte (b : Byte) : Option (List Byte × List Char) → Option (List Byte × List Char)
  | some (text, rest) => some (b :: text, rest)
  | none => none

/-- The value of a hexadecimal digit. -/
def hexValue (c : Char) : Option Nat :=
  if '0' ≤ c ∧ c ≤ '9' then some (c.toNat - 48)
  else if 'A' ≤ c ∧ c ≤ 'F' then some (c.toNat - 55)
  else if 'a' ≤ c ∧ c ≤ 'f' then some (c.toNat - 87)
  else none

/-- The byte of an escape's two hexadecimal digits. -/
def hexByte (hi lo : Char) : Option Byte :=
  match hexValue hi, hexValue lo with
  | some h, some l => some (BitVec.ofNat 8 (16 * h + l))
  | _, _ => none

/-- A quoted text after its opening quote, up to the closing one. Escapes: `\n` and `\xNN` as R126 gives them, and, as
in C, `\"` and `\\` (notes/assumptions/24.md). -/
def readText : List Char → Option (List Byte × List Char)
  | [] => none
  | '"' :: rest => some ([], rest)
  | '\\' :: 'n' :: rest => consByte 0x0A#8 (readText rest)
  | '\\' :: '"' :: rest => consByte 0x22#8 (readText rest)
  | '\\' :: '\\' :: rest => consByte 0x5C#8 (readText rest)
  | '\\' :: 'x' :: hi :: lo :: rest =>
    match hexByte hi lo with
    | some b => consByte b (readText rest)
    | none => none
  | c :: rest =>
    if c ≠ '\\' ∧ c.toNat < 128 then consByte (BitVec.ofNat 8 c.toNat) (readText rest) else none

/-- A decimal natural number at the front. -/
def readNat (cs : List Char) : Option (Nat × List Char) :=
  match cs.takeWhile Char.isDigit with
  | [] => none
  | d :: ds => some ((d :: ds).foldl (fun n c => 10 * n + (c.toNat - 48)) 0, cs.dropWhile Char.isDigit)

/-- A decimal integer at the front. -/
def readInt (cs : List Char) : Option (Int × List Char) :=
  match cs with
  | '-' :: rest => (readNat rest).map fun p => (-(p.1 : Int), p.2)
  | _ => (readNat cs).map fun p => ((p.1 : Int), p.2)

/-- The text without its leading spaces. -/
def skipSpaces (cs : List Char) : List Char := cs.dropWhile fun c => c == ' '

/-- A given word at the front, after spaces. -/
def expect (w : List Char) (cs : List Char) : Option (List Char) :=
  if w.isPrefixOf (skipSpaces cs) then some ((skipSpaces cs).drop w.length) else none

/-- The instruction, if nothing but spaces or a comment follows it. -/
def endOfLine (i : Instr) (rest : List Char) : Option Instr :=
  match skipSpaces rest with
  | [] => some i
  | c :: _ => if c = ';' then some i else none

/-- The operand of a text operation. -/
def lineText (mk : List Byte → Instr) (rest : List Char) : Option Instr := do
  let (text, rest) ← readText (← expect ['"'] rest)
  endOfLine (mk text) rest

/-- The operand of a channel operation. -/
def lineChannel (mk : Int → Instr) (rest : List Char) : Option Instr := do
  let (ch, rest) ← readInt (skipSpaces rest)
  endOfLine (mk ch) rest

/-- The operands of VFD_SET_CURSOR. -/
def lineRowCol (rest : List Char) : Option Instr := do
  let (r, rest) ← readInt (skipSpaces rest)
  let (c, rest) ← readInt (skipSpaces (← expect [','] rest))
  endOfLine (.vfdSetCursor r c) rest

/-- One bit of an ENC_EDGE line. -/
def readBit : List Char → Option (Bit × List Char)
  | '0' :: rest => some (false, rest)
  | '1' :: rest => some (true, rest)
  | _ => none

/-- The operands of ENC_EDGE: `a=<0|1>, b=<0|1>, t=<tick>`, the tick in 32 bits. -/
def lineEdge (rest : List Char) : Option Instr := do
  let (a, rest) ← readBit (← expect "a=".toList rest)
  let (b, rest) ← readBit (← expect "b=".toList (← expect [','] rest))
  let (t, rest) ← readNat (← expect "t=".toList (← expect [','] rest))
  if t < 2 ^ 32 then endOfLine (.encEdge a b (BitVec.ofNat 32 t)) rest else none

/-- The lines without operands. -/
def plainLines : List (List Char × Instr) :=
  [("VFD_OPEN".toList, .vfdOpen), ("VFD_CLOSE".toList, .vfdClose), ("VFD_CLEAR".toList, .vfdClear),
   ("VFD_QUERY".toList, .vfdQuery), ("ADC_INIT".toList, .adcInit), ("ENC_READ".toList, .encRead),
   ("ENC_CLEAR_CHANGED".toList, .encClearChanged), ("KP_SCAN".toList, .kpScan), ("KP_READ".toList, .kpRead),
   ("KP_CLEAR_FLAG".toList, .kpClearFlag), ("KP_CLEAR_KEY".toList, .kpClearKey)]

/-- A mnemonic's characters. -/
def isMnemonic (c : Char) : Bool := c.isUpper || c == '_'

/-- The operation one line stands for (30_encoding.md R126). -/
def parseLine (line : List Char) : Option Instr :=
  let word := (skipSpaces line).takeWhile isMnemonic
  let rest := (skipSpaces line).dropWhile isMnemonic
  match plainLines.lookup word with
  | some i => endOfLine i rest
  | none =>
    if word = "VFD_WRITE".toList then lineText .vfdWrite rest
    else if word = "VFD_WRITE_BLINKING".toList then lineText .vfdWriteBlinking rest
    else if word = "VFD_SET_CURSOR".toList then lineRowCol rest
    else if word = "ADC_READ".toList then lineChannel .adcRead rest
    else if word = "ADC_READ_VOLTAGE".toList then lineChannel .adcReadVoltage rest
    else if word = "ENC_EDGE".toList then lineEdge rest
    else none

/-- The agent that issues an operation: NOTIFIER issues ENC_EDGE, HOST every other (00_scope.md R9). -/
def issuerOf : Instr → Agent
  | .encEdge _ _ _ => .notifier
  | _ => .host

/-- The request a line stands for: its frame (30_encoding.md R91, R92, R126), or the operation itself where it has no
frame. -/
def lineRequest (line : List Char) : Option Request :=
  (parseLine line).map fun i =>
    if i.wellFormed then .frame (issuerOf i) false .hostPort (encode tableParams i) else .operation (issuerOf i) false i

end Sys2Proof.Machine
end

