-- ==== Sys2Proof/Safety.lean ====
section
/-! DEFINITION. The terms statements are made in: the invariant of the machine, what each unit leaves alone, runs of
several operations, and the event sequences the rules describe, written from the rules and not from the machine. -/

namespace Sys2Proof.Machine

/-! ### The invariant -/

/-- The reference display has its shape: ROWS rows of COLS cells, its row in the grid and its column at most COLS
(41_display.md R162). -/
def Display.wf (d : Display) : Prop :=
  d.grid.length = 6 ∧ (∀ line ∈ d.grid, line.length = 40) ∧ d.row < 6 ∧ d.col ≤ 40

/-- The bytes a history gave to SerialTx, in order. -/
def sentBytes (es : List Event) : List Byte :=
  es.filterMap fun e =>
    match e with
    | .serialTx b => some b
    | _ => none

/-- The cursor is in the grid whenever a session is live (10_state.md R26). -/
def CursorInGrid (s : State) : Prop := s.vfd.session = true → s.vfd.cursorRow < 6 ∧ s.vfd.cursorCol < 40

/-- What every step keeps. -/
structure State.Inv (s : State) : Prop where
  /-- 10_state.md R26 -/
  cursor : CursorInGrid s
  /-- RTS is asserted exactly while a session is live (41_display.md R130, R131) -/
  rts : s.vfd.rts = s.vfd.session
  /-- the line configuration never changes (10_state.md R27) -/
  line : s.vfd.lineCfg = LineCfg.standard
  /-- an initialized sampler drives its three outputs (10_state.md R30) -/
  pins : s.adc.init = true → s.adc.csOut.isSome ∧ s.adc.clkOut.isSome ∧ s.adc.mosiOut.isSome
  /-- the changed flag is only set by an accepted edge, which leaves its tick (43_quadrature.md R210) -/
  edge : s.enc.changed = true → s.enc.lastEventTick.isSome
  /-- the recorded key is a KEYMAP value (10_state.md R41) -/
  key : ∀ k, s.kp.lastKey = some k → k ∈ s.kpParams.keymap.map Prod.snd
  /-- ROWPAT and KEYMAP have the form R110 and R113 of 30_encoding.md ask for -/
  params : s.kpParams.Legal
  /-- 41_display.md R162 -/
  display : s.display.wf
  /-- the line carries the 7E1 frame of every byte given to SerialTx, in order (20_memory.md R67) -/
  wire : s.link.tx = (sentBytes s.events).map serialFrame

/-! ### Frames -/

/-- What an operation on the display's side leaves alone. -/
def SameOutsideDisplay (s t : State) : Prop :=
  t.adc = s.adc ∧ t.enc = s.enc ∧ t.kp = s.kp ∧ t.converter = s.converter ∧ t.expander = s.expander ∧
  t.inbox = s.inbox ∧ t.issuer = s.issuer ∧ t.env.levels = s.env.levels ∧ t.env.bytes = s.env.bytes ∧
  t.kpParams = s.kpParams

/-- What an operation on the converter's side leaves alone. -/
def SameOutsideAdc (s t : State) : Prop :=
  t.vfd = s.vfd ∧ t.enc = s.enc ∧ t.kp = s.kp ∧ t.link = s.link ∧ t.display = s.display ∧ t.expander = s.expander ∧
  t.inbox = s.inbox ∧ t.issuer = s.issuer ∧ t.env.bytes = s.env.bytes ∧ t.env.rx = s.env.rx ∧ t.kpParams = s.kpParams

/-- What an operation on the keypad's side leaves alone. -/
def SameOutsideKeypad (s t : State) : Prop :=
  t.vfd = s.vfd ∧ t.adc = s.adc ∧ t.enc = s.enc ∧ t.link = s.link ∧ t.display = s.display ∧ t.converter = s.converter ∧
  t.inbox = s.inbox ∧ t.issuer = s.issuer ∧ t.env.levels = s.env.levels ∧ t.env.rx = s.env.rx ∧ t.kpParams = s.kpParams

/-! ### The environment's answers

What the events of a history were answered, against what the state had listed for them (00_scope.md R10; 20_memory.md
R60 to R66). -/

/-- The ok/fail answers these events carry, in order. -/
def okAnswers (es : List Event) : List Bool :=
  es.filterMap fun e =>
    match e with
    | .pinMode _ _ ok | .pinWrite _ _ ok | .busWrite _ _ ok | .serialOpen _ _ ok | .setRts _ ok => some ok
    | .pinRead _ _ | .busRead _ _ | .serialClose | .serialTx _ | .serialRx _ _ | .delay _ | .log _ => none

/-- The levels their PinReads carry; `none` is a failure. -/
def levelAnswers (es : List Event) : List (Option Bit) :=
  es.filterMap fun e =>
    match e with
    | .pinRead _ answer => some answer
    | _ => none

/-- The bytes their BusReads carry; `none` is a failure. -/
def byteAnswers (es : List Event) : List (Option Byte) :=
  es.filterMap fun e =>
    match e with
    | .busRead _ answer => some answer
    | _ => none

/-- The answers given are those listed before, in order, and others only once the list has run out; the rest of the list
is still there after. -/
def Answered {α : Type} (given before after : List α) : Prop :=
  ∃ drawn, given ++ after = before ++ drawn ∧ (drawn = [] ∨ after = [])

/-- From `s` to `t` every ok/fail primitive, PinRead and BusRead of these events got the next answer `s` had listed
for it, as long as there was one. -/
def AnswersTaken (es : List Event) (s t : State) : Prop :=
  Answered (okAnswers es) s.env.acks t.env.acks ∧ Answered (levelAnswers es) s.env.levels t.env.levels ∧
  Answered (byteAnswers es) s.env.bytes t.env.bytes

/-- The same primitive, failing; an event that cannot fail is itself. -/
def Event.failed : Event → Event
  | .pinMode pin dir _ => .pinMode pin dir false
  | .pinWrite pin level _ => .pinWrite pin level false
  | .pinRead pin _ => .pinRead pin none
  | .busWrite addr byte _ => .busWrite addr byte false
  | .busRead addr _ => .busRead addr none
  | .serialOpen port cfg _ => .serialOpen port cfg false
  | .setRts level _ => .setRts level false
  | .serialClose => .serialClose
  | .serialTx byte => .serialTx byte
  | .serialRx max answer => .serialRx max answer
  | .delay us => .delay us
  | .log kind => .log kind

/-- The primitive of an event succeeded. -/
def Event.succeeded : Event → Bool
  | .pinMode _ _ ok => ok
  | .pinWrite _ _ ok => ok
  | .pinRead _ answer => answer.isSome
  | .busWrite _ _ ok => ok
  | .busRead _ answer => answer.isSome
  | .serialOpen _ _ ok => ok
  | .setRts _ ok => ok
  | .serialClose | .serialTx _ | .serialRx _ _ | .delay _ | .log _ => true

/-- These events are a beginning of `all`, but that the last of them failed. -/
def FailsIn (all es : List Event) : Prop :=
  ∃ done e later, all = done ++ e :: later ∧ es = done ++ [e.failed] ∧ e.failed.succeeded = false

/-! ### Runs -/

/-- Operations one after the other; the first that stops ends the run. -/
def runAll : List Instr → State → Host.Outcome State Fault Refusal
  | [], s => .next s
  | i :: is, s =>
    match exec i s with
    | .next t => runAll is t
    | .fault r => .fault r
    | .refused r => .refused r

/-! ### The display's byte streams -/

/-- What the wrap into row `row` sends: a reposition while it is in the grid, else a scroll (41_display.md R136,
R137). -/
def wrapBytes (row : Nat) : List Byte :=
  if row < 6 then [0x19#8, 0x11#8, BitVec.ofNat 8 (row + 1), 0x19#8, 0x13#8, 0x01#8] else [0x0D#8, 0x0A#8]

/-- What a text without newlines sends from `(r0, c0)`: each byte, with the m-th wrap after the byte that brings the
count `c0 + j + 1` to `m * COLS` (41_display.md R142). -/
def wrappedStream (r0 c0 : Nat) (text : List Byte) : List Byte :=
  text.zipIdx.flatMap fun (b, j) =>
    b :: (if (c0 + j + 1) % 40 = 0 then wrapBytes (r0 + (c0 + j + 1) / 40) else [])

/-- A text byte the reference display takes as the renderer does: printable, or the newline (41_display.md R164). -/
def isPlain (b : Byte) : Bool := (decide (0x20 ≤ b.toNat) && decide (b.toNat ≤ 0x7E)) || isNewline b

/-- The display's cursor is the renderer's, in the grid, with a session live and scroll mode on (41_display.md
R164). -/
def Tracks (s : State) : Prop :=
  s.vfd.session = true ∧ s.vfd.cursorRow < 6 ∧ s.vfd.cursorCol < 40 ∧
  s.display.scroll = true ∧ s.display.row = s.vfd.cursorRow ∧ s.display.col = s.vfd.cursorCol

/-- A grid with one cell written. -/
def putCell (grid : List (List Byte)) (r c : Nat) (b : Byte) : List (List Byte) :=
  grid.modify r fun line => line.set c b

/-- The events of VFD_QUERY's reads, given the answers, from `n` bytes already received: each read asks for what is
still missing, and a Delay stands between two reads (41_display.md R146). -/
def readTrace : Nat → List (List Byte) → List Event
  | _, [] => []
  | n, [a] => [.serialRx (240 - n) a]
  | n, a :: b :: rest => .serialRx (240 - n) a :: .delay 100000 :: readTrace (n + a.length) (b :: rest)

/-- VFD_QUERY stops after these answers: a full buffer, or three empty reads in a row (41_display.md R146). -/
def queryStops (answers : List (List Byte)) : Prop :=
  answers.flatten.length = 240 ∨ (3 ≤ answers.length ∧ answers.drop (answers.length - 3) = [[], [], []])

/-- The receive side of `s` lists bursts under which VFD_QUERY's reads answer exactly `answers`, and `left` is what it
holds after: the reads stop at the last burst and no earlier, and only that one may hold more than was asked for, which
stays (41_display.md R146; 10_state.md R42 (a)). -/
def AnswersQuery (s : State) (answers : List (List Byte)) (left : List (List Char7)) : Prop :=
  ∃ (bursts : List (List Char7)) (last extra : List Char7) (later : List (List Char7)),
    s.env.rx = bursts ++ (last ++ extra) :: later ∧
    answers = (bursts ++ [last]).map (List.map offWire) ∧
    left = (if extra = [] then later else extra :: later) ∧
    answers.flatten.length ≤ 240 ∧ (extra = [] ∨ answers.flatten.length = 240) ∧
    queryStops answers ∧ ∀ n, 0 < n → n < answers.length → ¬ queryStops (answers.take n)

/-- How many SerialRx calls a history holds. -/
def rxCount (es : List Event) : Nat :=
  es.countP fun e =>
    match e with
    | .serialRx _ _ => true
    | _ => false

/-- How many Delay events a history holds. -/
def delayCount (es : List Event) : Nat :=
  es.countP fun e =>
    match e with
    | .delay _ => true
    | _ => false

/-! ### The converter's frame -/

/-- A write that succeeds, with its settle delay (42_analog.md R182). -/
def settledWrite (pin : Pin) (level : Bit) : List Event := [.pinWrite pin level true, .delay Config.tSettleUs]

/-- CLK up, CLK down. -/
def settledPulse : List Event := settledWrite .adcClk true ++ settledWrite .adcClk false

/-- `1 1 C2 C1 C0` (30_encoding.md R107). -/
def channelCommand (ch : Nat) : List Bit := [true, true, ch.testBit 2, ch.testBit 1, ch.testBit 0]

/-- The events of one successful transaction (42_analog.md R182): select; five command bits; the null bit; ten result
bits; deselect. -/
def transactionEvents (ch : Nat) (bits : List Bit) : List Event :=
  settledWrite .adcCs false ++
  (channelCommand ch).flatMap (fun c => settledWrite .adcMosi c ++ settledPulse) ++
  settledPulse ++
  bits.flatMap (fun d => settledWrite .adcClk true ++ .pinRead .adcMiso (some d) :: settledWrite .adcClk false) ++
  settledWrite .adcCs true

/-- `raw = Σ_{k=0..9} dk · 2^(9-k)` (30_encoding.md R109). -/
def rawSum (bits : List Bit) : Nat := ((List.range 10).map fun k => (bits.getD k false).toNat * 2 ^ (9 - k)).sum

/-- The state a successful transaction on channel `ch` leaves, with its bits and the answers still to come. -/
def afterTransaction (s : State) (ch : Nat) (bits : List Bit) (acks : List Bool) (levels : List (Option Bit)) : State :=
  { s with
    adc := { s.adc with csOut := some true, clkOut := some false, mosiOut := some (ch.testBit 0) }
    converter := { command := BitVec.ofNat 5 (24 + ch) }
    env := { s.env with acks := acks, levels := levels }
    events := s.events ++ transactionEvents ch bits }

/-- The answers under which a transaction succeeds and samples `bits`: 39 writes ok and ten levels
(42_analog.md R182). -/
def AnswersFrame (s : State) (bits : List Bit) (acks : List Bool) (levels : List (Option Bit)) : Prop :=
  bits.length = 10 ∧ s.env.acks = List.replicate 39 true ++ acks ∧ s.env.levels = bits.map some ++ levels

/-- The block's record of a pin's output after these events: the level of the last PinWrite to it that succeeded
(20_memory.md R61; 10_state.md R30). -/
def lastLevel (pin : Pin) (before : Option Bit) (es : List Event) : Option Bit :=
  es.foldl
    (fun level e =>
      match e with
      | .pinWrite q v true => if q = pin then some v else level
      | _ => level)
    before

/-- The three output records follow the PinWrites of these events that succeeded. -/
def OutputsFollow (es : List Event) (a b : Adc) : Prop :=
  b.csOut = lastLevel .adcCs a.csOut es ∧ b.clkOut = lastLevel .adcClk a.clkOut es ∧
  b.mosiOut = lastLevel .adcMosi a.mosiOut es

/-- The events of ADC_INIT when each of its primitives succeeds, in its order (42_analog.md R180). -/
def initEvents : List Event :=
  [.pinMode .adcCs .output true, .pinMode .adcClk .output true, .pinMode .adcMosi .output true,
   .pinMode .adcMiso .input true, .pinWrite .adcCs true true, .pinWrite .adcClk false true,
   .pinWrite .adcMosi false true]

/-- The eight command frames with their channels (42_analog.md R189). -/
def adcFrames : List (Instr × Nat) :=
  [(.adcCmdCh0, 0), (.adcCmdCh1, 1), (.adcCmdCh2, 2), (.adcCmdCh3, 3), (.adcCmdCh4, 4), (.adcCmdCh5, 5),
   (.adcCmdCh6, 6), (.adcCmdCh7, 7)]

/-! ### The keypad's passes -/

/-- The four row-select instructions with their patterns (30_encoding.md R110, R111). -/
def rowSelects (p : KpParams) : List (Instr × Byte) :=
  [(.kpRowsel0, p.row0), (.kpRowsel1, p.row1), (.kpRowsel2, p.row2), (.kpRowsel3, p.row3)]

/-- What one row of a pass comes to (44_keypad.md R230). -/
inductive RowOutcome where
  /-- its BusWrite failed -/
  | writeFailed
  /-- its BusRead failed -/
  | readFailed
  /-- both succeeded, and this byte was read -/
  | read (column : Byte)
  deriving DecidableEq, Repr

/-- The events of row `i`, whose pattern is `pattern` (44_keypad.md R230, R242). -/
def rowTrace (p : KpParams) (pattern : Byte) (i : Nat) : RowOutcome → List Event
  | .writeFailed => [.busWrite p.addr pattern false, .log (.kpBusWriteFail i)]
  | .readFailed => [.busWrite p.addr pattern true, .delay 10000, .busRead p.addr none, .log (.kpBusReadFail i)]
  | .read column => [.busWrite p.addr pattern true, .delay 10000, .busRead p.addr (some column)]

/-- The events of a pass whose rows 0, 1, … come to these outcomes (44_keypad.md R233, R242). -/
def passTrace (p : KpParams) (outcomes : List RowOutcome) : List Event :=
  (p.rowPat.zipIdx.zip outcomes).flatMap fun x => rowTrace p x.1.1 x.1.2 x.2

/-- The key a row's outcome stands for (30_encoding.md R112, R113; 44_keypad.md R233). -/
def rowKey (p : KpParams) : RowOutcome → Option Byte
  | .writeFailed | .readFailed => none
  | .read column => keyOf p column

/-- The row was skipped (44_keypad.md R233). -/
def rowSkipped : RowOutcome → Bool
  | .writeFailed | .readFailed => true
  | .read _ => false

/-- The expander's latch after a pass with these outcomes: the last pattern whose write succeeded (44_keypad.md R241). -/
def latchAfterPass (p : KpParams) (outcomes : List RowOutcome) (latch : Byte) : Byte :=
  (p.rowPat.zip outcomes).foldl (fun l x => if x.2 = .writeFailed then l else x.1) latch

/-- The keypad's two fields after a pass with these outcomes: the first key is recorded with the flag if it is a new
one; with no key, `last_key` is cleared if no row was skipped (44_keypad.md R231, R232, R233). -/
def kpAfterPass (p : KpParams) (outcomes : List RowOutcome) (kp : Kp) : Kp :=
  match outcomes.findSome? (rowKey p) with
  | some k => if kp.lastKey = some k then kp else { lastKey := some k, keyPressed := true }
  | none => if outcomes.any rowSkipped then kp else { kp with lastKey := none }

/-- The events of reading rows 0, 1, … with every transaction ok, given the column bytes (44_keypad.md R242). -/
def passEvents (p : KpParams) (columns : List Byte) : List Event := passTrace p (columns.map .read)

/-- The answers under which a pass reads these columns: each row written and read. -/
def AnswersPass (s : State) (columns : List Byte) (acks : List Bool) (bytes : List (Option Byte)) : Prop :=
  s.env.acks = List.replicate columns.length true ++ acks ∧ s.env.bytes = columns.map some ++ bytes

/-! ### Classes of instructions -/

/-- The reserved opcodes, as 30_encoding.md R98 lists them. -/
def isReservedOpcode (op : Byte) : Bool :=
  op.toNat == 0 || (decide (0x08 ≤ op.toNat) && decide (op.toNat ≤ 0x0F)) ||
  (decide (0x13 ≤ op.toNat) && decide (op.toNat ≤ 0x1F)) || (decide (0x23 ≤ op.toNat) && decide (op.toNat ≤ 0x2F)) ||
  decide (0x34 ≤ op.toNat)

/-- The operation is one of the 17 of the host port (00_scope.md R3). -/
def isHostOperation (i : Instr) : Bool := i.surface == .hostPort

/-- The statuses 60_exceptions.md R261 lets an operation return. -/
def statusesOf : Instr → List Status
  | .vfdOpen => [.ok, .portError]
  | .vfdClose | .vfdClear | .vfdWrite _ | .vfdWriteBlinking _ | .vfdSetCursor _ _ => [.ok, .noSession]
  | .vfdQuery => [.ok, .timeoutError, .noSession]
  | .adcInit => [.ok, .busTransactionError]
  | .adcRead _ | .adcReadVoltage _ => [.ok, .invalidChannel, .notInitialized, .busTransactionError]
  | .adcCmdCh0 | .adcCmdCh1 | .adcCmdCh2 | .adcCmdCh3 | .adcCmdCh4 | .adcCmdCh5 | .adcCmdCh6 | .adcCmdCh7 =>
    [.ok, .busTransactionError]
  | .encEdge _ _ _ | .encRead | .encClearChanged | .kpRead | .kpClearFlag | .kpClearKey => [.ok]
  | .kpScan => [.ok, .busTransactionError]
  | .wireClear | .wireHome | .wireCursorUp | .wireSetRow _ | .wireSetCol _ | .wireNewline | .wireBackspace
  | .wireDeleteChar | .wireBlinkStart | .wireBlinkEnd | .wireBrightness | .wireScrollEnable | .wireContentQuery
  | .wireCharacter _ | .kpRowsel0 | .kpRowsel1 | .kpRowsel2 | .kpRowsel3 => []

/-- The operation drives or reads the converter's pins: the three sampler operations, and the eight converter frames
(notes/assumptions/8.md). -/
def drivesConverter : Instr → Bool
  | .adcInit | .adcRead _ | .adcReadVoltage _
  | .adcCmdCh0 | .adcCmdCh1 | .adcCmdCh2 | .adcCmdCh3 | .adcCmdCh4 | .adcCmdCh5 | .adcCmdCh6 | .adcCmdCh7 => true
  | .vfdOpen | .vfdClose | .vfdClear | .vfdWrite _ | .vfdWriteBlinking _ | .vfdSetCursor _ _ | .vfdQuery
  | .encEdge _ _ _ | .encRead | .encClearChanged | .kpScan | .kpRead | .kpClearFlag | .kpClearKey
  | .wireClear | .wireHome | .wireCursorUp | .wireSetRow _ | .wireSetCol _ | .wireNewline | .wireBackspace
  | .wireDeleteChar | .wireBlinkStart | .wireBlinkEnd | .wireBrightness | .wireScrollEnable | .wireContentQuery
  | .wireCharacter _ | .kpRowsel0 | .kpRowsel1 | .kpRowsel2 | .kpRowsel3 => false

end Sys2Proof.Machine
end

