-- ==== Sys2Proof/Certificates/Slice0/Obligations.lean ====
section
/-! DEFINITION. The statements for the provers. Each docstring names the rule it formalises; ∀ s holds for every
state, with every answer of the environment, whether or not a run reaches it. -/

open Sys2Proof Sys2Proof.Machine

/-! ### Encodings and the step (30_encoding.md) -/

/-- Words written out from the encodings decode to what they stand for (30_encoding.md R91, R92, R101, R107, R111;
95_test_vectors.md 2.1), the row pattern under the ROWPAT the spec takes, for an expander at any address. -/
def Obligations.SampleWordsDecode : Prop :=
  ∀ addr : BitVec 7,
    decode (.standard addr) .hostPort [0x01#8] = .ok (.vfdOpen, []) ∧
    decode (.standard addr) .hostPort [0x04#8, 0x03#8, 0x48#8, 0x69#8, 0x0A#8] =
      .ok (.vfdWrite [0x48#8, 0x69#8, 0x0A#8], []) ∧
    decode (.standard addr) .hostPort [0x06#8, 0x05#8, 0x26#8] = .ok (.vfdSetCursor 5 38, []) ∧
    decode (.standard addr) .hostPort [0x11#8, 0x03#8] = .ok (.adcRead 3, []) ∧
    decode (.standard addr) .hostPort [0x20#8, 0x02#8, 0x00#8, 0x00#8, 0x04#8, 0x1A#8] =
      .ok (.encEdge false true 1050#32, []) ∧
    decode (.standard addr) .hostPort [0x33#8] = .ok (.kpClearKey, []) ∧
    decode (.standard addr) .displayWire [0x19#8, 0x13#8, 0x28#8] = .ok (.wireSetCol 40#7, []) ∧
    decode (.standard addr) .adcWire [0x1D#8] = .ok (.adcCmdCh5, []) ∧
    decode (.standard addr) .keypadBus [0xFB#8] = .ok (.kpRowsel2, [])

/-- Every well-formed host operation decodes from its frame, whatever bytes follow it (30_encoding.md R91, R92, R96). -/
def Obligations.HostFrameRoundTrip : Prop :=
  ∀ (p : KpParams) (i : Instr) (rest : List Byte), i.surface = .hostPort → i.wellFormed = true →
    decode p .hostPort (encode p i ++ rest) = .ok (i, rest)

/-- Bytes the host decoder takes are exactly the frame of a well-formed host operation: two different frames are
never one instruction, and no bit of a frame is ignored (30_encoding.md R91, R92, R97). -/
def Obligations.HostDecodeTakesOneFrame : Prop :=
  ∀ (p : KpParams) (bytes rest : List Byte) (i : Instr), decode p .hostPort bytes = .ok (i, rest) →
    i.surface = .hostPort ∧ i.wellFormed = true ∧ bytes = encode p i ++ rest

/-- The length read from the first bytes is the length the decoder takes (30_encoding.md R96). -/
def Obligations.FrameLengthIsWhatDecodeTakes : Prop :=
  ∀ (p : KpParams) (bytes rest : List Byte) (i : Instr), decode p .hostPort bytes = .ok (i, rest) →
    frameLength bytes = some (bytes.length - rest.length) ∧ rest.length ≤ bytes.length

/-- Every wire command, command word and row pattern decodes from its own bytes on its own surface, for any ROWPAT of
four distinct patterns (30_encoding.md R101, R104, R107, R110, R111). -/
def Obligations.WireCommandRoundTrip : Prop :=
  ∀ (p : KpParams) (i : Instr), p.rowPat.Nodup → i.surface ≠ .hostPort → i.wellFormed = true →
    decode p i.surface (encode p i) = .ok (i, [])

/-- A stream of display commands whose characters are printable is parsed back into those commands
(30_encoding.md R105). -/
def Obligations.PrintableStreamParses : Prop :=
  ∀ (p : KpParams) (is : List Instr),
    (∀ i ∈ is, i.surface = .displayWire ∧ ∀ x, i = .wireCharacter x → isPrintable x = true) →
    parseWire ((is.flatMap (encode p)).length) ((is.flatMap (encode p)).map onWire) = .ok is

/-- A frame with a reserved opcode yields IllegalCommand and does nothing else (30_encoding.md R98). Of the bytes
issued behind it in one piece, all, none or a last part may stay issued; every later request stays. -/
def Obligations.ReservedOpcodeIsIllegal : Prop :=
  ∀ (s : State) (agent : Agent) (op : Byte) (rest : List Byte) (q : List Request),
    isReservedOpcode op = true → s.inbox = .frame agent false .hostPort (op :: rest) :: q →
    ∃ behind : List Request,
      (behind = [] ∨ ∃ tail, tail <:+ rest ∧ behind = [.frame agent false .hostPort tail]) ∧
      step s = .next { s with
        inbox := behind ++ q, issuer := agent, results := s.results ++ [(agent, .status .illegalCommand)] }

/-- An ENC_EDGE frame with a nonzero reserved bit yields IllegalCommand and does nothing else (30_encoding.md R97). Of
the bytes issued behind it in one piece, all, none or a last part may stay issued; every later request stays. -/
def Obligations.EdgeReservedBitsAreIllegal : Prop :=
  ∀ (s : State) (agent : Agent) (f t3 t2 t1 t0 : Byte) (rest : List Byte) (q : List Request),
    4 ≤ f.toNat → s.inbox = .frame agent false .hostPort (0x20#8 :: f :: t3 :: t2 :: t1 :: t0 :: rest) :: q →
    ∃ behind : List Request,
      (behind = [] ∨ ∃ tail, tail <:+ rest ∧ behind = [.frame agent false .hostPort tail]) ∧
      step s = .next { s with
        inbox := behind ++ q, issuer := agent, results := s.results ++ [(agent, .status .illegalCommand)] }

/-- A frame cut short is refused: every proper beginning of a well-formed operation's frame (30_encoding.md R96). -/
def Obligations.TruncatedFrameIsRefused : Prop :=
  ∀ (s : State) (agent : Agent) (i : Instr) (n : Nat) (q : List Request),
    i.surface = .hostPort → i.wellFormed = true → n < (encode s.kpParams i).length →
    s.inbox = .frame agent false .hostPort ((encode s.kpParams i).take n) :: q → step s = .refused .truncatedFrame

/-- A step runs the instruction the front request decodes to, or is, with the request taken, the bytes after it still
issued, and the issuer noted; with nothing issued nothing happens (30_encoding.md R90; 10_state.md R21). -/
def Obligations.StepRunsTheDecodedInstruction : Prop :=
  (∀ (s : State) (agent : Agent) (during : Bool) (surface : Surface) (bytes rest : List Byte) (i : Instr)
      (q : List Request),
    s.inbox = .frame agent during surface bytes :: q → decode s.kpParams surface bytes = .ok (i, rest) →
    (during = false ∨ (agent = .notifier ∧ ∃ a b t, i = .encEdge a b t)) →
    step s =
      exec i { s with
        inbox := if rest = [] then q else .frame agent during surface rest :: q, issuer := agent }) ∧
  (∀ (s : State) (agent : Agent) (during : Bool) (i : Instr) (q : List Request),
    s.inbox = .operation agent during i :: q →
    (during = false ∨ (agent = .notifier ∧ ∃ a b t, i = .encEdge a b t)) →
    step s = exec i { s with inbox := q, issuer := agent }) ∧
  (∀ s : State, s.inbox = [] → step s = .next s)

/-- A HOST request made while a HOST operation is in progress is refused, whatever it is (70_reset_and_hazards.md
R305). -/
def Obligations.ConcurrentHostRequestIsRefused : Prop :=
  (∀ (s : State) (surface : Surface) (bytes : List Byte) (q : List Request),
    s.inbox = .frame .host true surface bytes :: q → step s = .refused .concurrentHostOperation) ∧
  (∀ (s : State) (i : Instr) (q : List Request),
    s.inbox = .operation .host true i :: q → step s = .refused .concurrentHostOperation)

/-- Every instruction is enabled in every state and ends in a next state (60_exceptions.md R270, R271). -/
def Obligations.EveryInstructionIsEnabled : Prop :=
  ∀ (i : Instr) (s : State), ∃ t, exec i s = .next t

/-! ### The display renderer (41_display.md) -/

/-- VFD_OPEN with SerialOpen and SetRTS ok (41_display.md R130). That the display's scroll mode is then on is the
reference display model's response to the byte sent (R159, R163, informative; notes/assumptions/10.md). -/
def Obligations.OpenStartsTheSession : Prop :=
  ∀ s : State, s.vfd.session = false → s.nextAck = true →
    (serialOpen Config.port s.vfd.lineCfg s).nextAck = true →
    ∃ t, exec .vfdOpen s = .next t ∧
      t.vfd = { s.vfd with session := true, rts := true, cursorRow := 0, cursorCol := 0 } ∧
      t.events = s.events ++
        [.serialOpen Config.port s.vfd.lineCfg true, .setRts true true, .delay 100000, .serialTx 0x10#8] ∧
      t.link.tx = s.link.tx ++ [serialFrame 0x10#8] ∧
      t.display = { s.display with scroll := true } ∧
      t.results = s.results ++ [(s.issuer, .status .ok)] ∧ SameOutsideDisplay s t ∧ t.env.rx = s.env.rx

/-- VFD_OPEN fails with PortError and writes no block state: with a session live nothing is issued; after a failed
SerialOpen only that; after a failed SetRTS the port is closed again (60_exceptions.md R262). -/
def Obligations.OpenFailsWithPortError : Prop :=
  (∀ s : State, s.vfd.session = true →
    exec .vfdOpen s = .next { s with results := s.results ++ [(s.issuer, .status .portError)] }) ∧
  (∀ s : State, s.vfd.session = false → s.nextAck = false →
    ∃ t, exec .vfdOpen s = .next t ∧ t.vfd = s.vfd ∧ t.link = s.link ∧ t.display = s.display ∧
      t.events = s.events ++ [.serialOpen Config.port s.vfd.lineCfg false] ∧
      t.results = s.results ++ [(s.issuer, .status .portError)] ∧ SameOutsideDisplay s t) ∧
  (∀ s : State, s.vfd.session = false → s.nextAck = true →
    (serialOpen Config.port s.vfd.lineCfg s).nextAck = false →
    ∃ t, exec .vfdOpen s = .next t ∧ t.vfd = s.vfd ∧ t.link = s.link ∧ t.display = s.display ∧
      t.events = s.events ++
        [.serialOpen Config.port s.vfd.lineCfg true, .setRts true false, .serialClose] ∧
      t.results = s.results ++ [(s.issuer, .status .portError)] ∧ SameOutsideDisplay s t)

/-- VFD_CLOSE, opcode 0x02: of a live session, the port restored and closed, session and rts false, the cursor kept;
with none, NoSession (41_display.md R131). -/
def Obligations.CloseEndsTheSession : Prop :=
  (∀ (p : KpParams) (rest : List Byte), decode p .hostPort (0x02#8 :: rest) = .ok (.vfdClose, rest)) ∧
  (∀ s : State, s.vfd.session = true →
    exec .vfdClose s =
      .next { s with
        vfd := { s.vfd with session := false, rts := false }
        events := s.events ++ [.serialClose]
        results := s.results ++ [(s.issuer, .status .ok)] }) ∧
  (∀ s : State, s.vfd.session = false →
    exec .vfdClose s = .next { s with results := s.results ++ [(s.issuer, .status .noSession)] })

/-- VFD_CLEAR, opcode 0x03, from any cursor: CLEAR_SEQ, then the delay, then the cursor at (0,0); with no
session, NoSession (41_display.md R132). That the display is blank and its cursor home is the reference display model
(R163, informative; notes/assumptions/10.md). -/
def Obligations.ClearHomesTheCursor : Prop :=
  (∀ (p : KpParams) (rest : List Byte), decode p .hostPort (0x03#8 :: rest) = .ok (.vfdClear, rest)) ∧
  (∀ s : State, s.vfd.session = false →
    exec .vfdClear s = .next { s with results := s.results ++ [(s.issuer, .status .noSession)] }) ∧
  ∀ s : State, s.vfd.session = true →
    exec .vfdClear s =
      .next { s with
        vfd := { s.vfd with cursorRow := 0, cursorCol := 0 }
        display := { s.display with grid := List.replicate 6 (List.replicate 40 0x20#8), row := 0, col := 0 }
        link := { tx := s.link.tx ++ List.map serialFrame [0x19#8, 0x0C#8, 0x19#8, 0x0E#8] }
        events := s.events ++
          [.serialTx 0x19#8, .serialTx 0x0C#8, .serialTx 0x19#8, .serialTx 0x0E#8, .delay 50000]
        results := s.results ++ [(s.issuer, .status .ok)] }

/-- Without a session every VFD operation but VFD_OPEN issues no primitive, writes no state and returns NoSession,
VFD_QUERY with the empty data (41_display.md R133; 60_exceptions.md R268). -/
def Obligations.NoSessionGuard : Prop :=
  ∀ s : State, s.vfd.session = false →
    (∀ i : Instr,
      i = .vfdClose ∨ i = .vfdClear ∨ (∃ text, i = .vfdWrite text) ∨ (∃ text, i = .vfdWriteBlinking text) ∨
        (∃ r c, i = .vfdSetCursor r c) →
      exec i s = .next { s with results := s.results ++ [(s.issuer, .status .noSession)] }) ∧
    exec .vfdQuery s = .next { s with results := s.results ++ [(s.issuer, .data .noSession [])] }

/-- One explicit newline: the next row's start with a reposition, or on the last row a scroll (41_display.md R135,
R136, R137). -/
def Obligations.NewlineRepositionsOrScrolls : Prop :=
  ∀ s : State, s.vfd.session = true → s.vfd.cursorRow < 6 → s.vfd.cursorCol < 40 →
    ∃ t, exec (.vfdWrite [0x0A#8]) s = .next t ∧
      t.vfd = { s.vfd with cursorRow := min (s.vfd.cursorRow + 1) 5, cursorCol := 0 } ∧
      t.events = s.events ++
        ((if s.vfd.cursorRow < 5 then
            [0x19#8, 0x11#8, BitVec.ofNat 8 (s.vfd.cursorRow + 2), 0x19#8, 0x13#8, 0x01#8]
          else [0x0D#8, 0x0A#8]).map .serialTx) ∧
      t.link.tx = s.link.tx ++
        (if s.vfd.cursorRow < 5 then
            [0x19#8, 0x11#8, BitVec.ofNat 8 (s.vfd.cursorRow + 2), 0x19#8, 0x13#8, 0x01#8]
          else [0x0D#8, 0x0A#8]).map serialFrame ∧
      t.results = s.results ++ [(s.issuer, .status .ok)] ∧ SameOutsideDisplay s t ∧
      t.env.acks = s.env.acks ∧ t.env.rx = s.env.rx

/-- A text without newlines, of n bytes, from (r0, c0): the column is (c0 + n) mod COLS, the row min(r0 + k, ROWS - 1)
with k = (c0 + n) div COLS, and the bytes are the text's with the k wraps after the bytes that fill a row, a
reposition while the row is in the grid and a scroll from then on (41_display.md R142). -/
def Obligations.WriteArithmetic : Prop :=
  ∀ (s : State) (text : List Byte), s.vfd.session = true → s.vfd.cursorRow < 6 → s.vfd.cursorCol < 40 →
    0x0A#8 ∉ text →
    ∃ t, exec (.vfdWrite text) s = .next t ∧
      t.vfd = { s.vfd with
        cursorRow := min (s.vfd.cursorRow + (s.vfd.cursorCol + text.length) / 40) 5
        cursorCol := (s.vfd.cursorCol + text.length) % 40 } ∧
      t.events = s.events ++ (wrappedStream s.vfd.cursorRow s.vfd.cursorCol text).map .serialTx ∧
      t.link.tx = s.link.tx ++ (wrappedStream s.vfd.cursorRow s.vfd.cursorCol text).map serialFrame ∧
      t.results = s.results ++ [(s.issuer, .status .ok)] ∧ SameOutsideDisplay s t ∧
      t.env.acks = s.env.acks ∧ t.env.rx = s.env.rx

/-- Writing two texts one after the other sends the same bytes and leaves the same cursor and display as writing them
as one, for any texts and any cursor (41_display.md R139). -/
def Obligations.WritesConcatenate : Prop :=
  ∀ (s : State) (a b : List Byte), s.vfd.session = true →
    ∃ t u v, exec (.vfdWrite a) s = .next t ∧ exec (.vfdWrite b) t = .next u ∧
      exec (.vfdWrite (a ++ b)) s = .next v ∧
      u.vfd = v.vfd ∧ u.events = v.events ∧ u.link = v.link ∧ u.display = v.display ∧ u.env = v.env ∧
      u.results = s.results ++ [(s.issuer, .status .ok), (s.issuer, .status .ok)] ∧
      v.results = s.results ++ [(s.issuer, .status .ok)]

/-- VFD_WRITE_BLINKING sends what VFD_WRITE sends between the blink markers and leaves the same cursor
(41_display.md R143). After a text of plain bytes the display's blink mode is off, as the reference display model has it
(R163, informative; notes/assumptions/10.md, 11.md); for other texts nothing is said of the display. -/
def Obligations.BlinkingWrapsTheWrite : Prop :=
  ∀ (s : State) (text : List Byte), s.vfd.session = true →
    ∃ t u sent, exec (.vfdWriteBlinking text) s = .next t ∧ exec (.vfdWrite text) s = .next u ∧
      u.events = s.events ++ sent ∧
      t.events = s.events ++ .serialTx 0x0B#8 :: sent ++ [.serialTx 0x0C#8] ∧
      t.link.tx = s.link.tx ++ (0x0B#8 :: sentBytes sent ++ [0x0C#8]).map serialFrame ∧
      t.vfd = u.vfd ∧ ((∀ b ∈ text, isPlain b = true) → t.display.blink = false) ∧
      t.results = s.results ++ [(s.issuer, .status .ok)] ∧ SameOutsideDisplay s t ∧
      t.env.acks = s.env.acks ∧ t.env.rx = s.env.rx

/-- VFD_SET_CURSOR, opcode 0x06 with two unsigned bytes, for any integers: in the grid, set-row, then set-col, each
1-based, and the cursor exactly there; outside it, OK with no byte sent and no state changed; with no session, NoSession
(41_display.md R144, R145). That the display's cursor moves there too is the reference display model (R163, informative;
notes/assumptions/10.md). -/
def Obligations.SetCursorMovesOrIsRejected : Prop :=
  (∀ (p : KpParams) (r c : Byte) (rest : List Byte),
    decode p .hostPort (0x06#8 :: r :: c :: rest) = .ok (.vfdSetCursor r.toNat c.toNat, rest)) ∧
  (∀ (s : State) (r c : Int), s.vfd.session = false →
    exec (.vfdSetCursor r c) s = .next { s with results := s.results ++ [(s.issuer, .status .noSession)] }) ∧
  (∀ (s : State) (r c : Int), s.vfd.session = true → 0 ≤ r → r < 6 → 0 ≤ c → c < 40 →
    exec (.vfdSetCursor r c) s =
      .next { s with
        vfd := { s.vfd with cursorRow := r.toNat, cursorCol := c.toNat }
        display := { s.display with row := r.toNat, col := c.toNat }
        link := { tx := s.link.tx ++ List.map serialFrame [0x19#8, 0x11#8,
          BitVec.ofNat 8 (r.toNat + 1), 0x19#8, 0x13#8, BitVec.ofNat 8 (c.toNat + 1)] }
        events := s.events ++
          [.serialTx 0x19#8, .serialTx 0x11#8, .serialTx (BitVec.ofNat 8 (r.toNat + 1)), .serialTx 0x19#8,
           .serialTx 0x13#8, .serialTx (BitVec.ofNat 8 (c.toNat + 1))]
        results := s.results ++ [(s.issuer, .status .ok)] }) ∧
  ∀ (s : State) (r c : Int), s.vfd.session = true → (r < 0 ∨ 6 ≤ r ∨ c < 0 ∨ 40 ≤ c) →
    exec (.vfdSetCursor r c) s = .next { s with results := s.results ++ [(s.issuer, .status .ok)] }

/-- VFD_QUERY sends `04 00` and then reads, each read asking for what is missing, with a Delay between two reads,
until the buffer is full or three reads in a row were empty, and not before; its data is what the reads answered, in
order; TimeoutError exactly if that is nothing (41_display.md R146). A read takes what it answers off the burst waiting
and loses nothing: what it leaves is read next (10_state.md R42 (a)). Where the bursts waiting are listed, VFD_QUERY
returns them, zero-extended, up to the one that stops it, and what that one holds beyond 240 bytes stays. The list
of bursts is the model's (notes/assumptions/15.md). -/
def Obligations.QueryReadsUntilItStops : Prop :=
  (∀ (s : State) (max : Nat), ∃ (burst : List Char7) (later : List (List Char7)),
    (s.env.rx = burst :: later ∨ (s.env.rx = [] ∧ later = [])) ∧
    s.nextRx max = (burst.take max).map offWire ∧
    (serialRx max s).env.rx.flatten = burst.drop max ++ later.flatten) ∧
  (∀ s : State, s.vfd.session = true →
    ∃ t answers, exec .vfdQuery s = .next t ∧
      t.events = s.events ++ [.serialTx 0x04#8, .serialTx 0x00#8] ++ readTrace 0 answers ∧
      queryStops answers ∧ (∀ n, 0 < n → n < answers.length → ¬ queryStops (answers.take n)) ∧
      answers.flatten.length ≤ 240 ∧
      t.results = s.results ++
        [(s.issuer, if answers.flatten = [] then .data .timeoutError [] else .data .ok answers.flatten)] ∧
      t.vfd = s.vfd ∧ t.link.tx = s.link.tx ++ [serialFrame 0x04#8, serialFrame 0x00#8] ∧
      t.env.acks = s.env.acks ∧ SameOutsideDisplay s t) ∧
  ∀ (s : State) (answers : List (List Byte)) (left : List (List Char7)), s.vfd.session = true →
    AnswersQuery s answers left →
    ∃ t, exec .vfdQuery s = .next t ∧
      t.events = s.events ++ [.serialTx 0x04#8, .serialTx 0x00#8] ++ readTrace 0 answers ∧
      t.results = s.results ++
        [(s.issuer, if answers.flatten = [] then .data .timeoutError [] else .data .ok answers.flatten)] ∧
      t.env.rx = left

/-- VFD_QUERY always ends: at most 720 SerialRx calls and one Delay fewer, and more reads allowed would change nothing
(41_display.md R147). -/
def Obligations.QueryIsBounded : Prop :=
  (∀ s : State, s.vfd.session = true →
    ∃ t reads, exec .vfdQuery s = .next t ∧ t.events = s.events ++ reads ∧
      rxCount reads ≤ 720 ∧ delayCount reads + 1 = rxCount reads) ∧
  (∀ (s : State) (extra : Nat), queryLoop (queryFuel + extra) [] 0 s = queryLoop queryFuel [] 0 s)

/-- Under the reference display model the display's cursor stays the renderer's: VFD_OPEN then VFD_CLEAR makes them
agree, and every clear, cursor move and write of printable text and newlines keeps them so (41_display.md R164). -/
def Obligations.DisplayTracksTheRenderer : Prop :=
  (∀ s t u : State, s.vfd.session = false → exec .vfdOpen s = .next t → t.vfd.session = true →
    exec .vfdClear t = .next u → Tracks u) ∧
  (∀ (s t : State) (i : Instr), Tracks s →
    (i = .vfdClear ∨ (∃ r c, i = .vfdSetCursor r c) ∨
      ∃ text, (∀ b ∈ text, isPlain b = true) ∧ (i = .vfdWrite text ∨ i = .vfdWriteBlinking text)) →
    exec i s = .next t → Tracks t)

/-- A printable character lands at the cell the renderer's cursor names when it is sent, and only there; the scroll
after the last cell moves the rows up (41_display.md R164, R138). -/
def Obligations.CharacterLandsAtTheCursor : Prop :=
  ∀ (s : State) (b : Byte), Tracks s → 0x20 ≤ b.toNat → b.toNat ≤ 0x7E →
    ∃ t, exec (.vfdWrite [b]) s = .next t ∧
      t.display.grid =
        if s.vfd.cursorRow = 5 ∧ s.vfd.cursorCol = 39 then
          (putCell s.display.grid 5 39 b).drop 1 ++ [List.replicate 40 0x20#8]
        else putCell s.display.grid s.vfd.cursorRow s.vfd.cursorCol b

/-- What a host operation sends, for printable text and a cursor in the grid, parses (30_encoding.md R105) into
commands of the contracts only: no cursor-up, backspace, delete-char or brightness, and set-row and set-col only with
parameters of the grid (41_display.md R150, R151, R152, R154, R155, R158; 30_encoding.md R106). -/
def Obligations.HostOperationsSendOnlyContractCommands : Prop :=
  ∀ (i : Instr) (s t : State), isHostOperation i = true → CursorInGrid s →
    (∀ text, i = .vfdWrite text ∨ i = .vfdWriteBlinking text → ∀ b ∈ text, isPlain b = true) →
    exec i s = .next t →
    ∃ es cmds, t.events = s.events ++ es ∧
      parseWire (sentBytes es).length ((sentBytes es).map onWire) = .ok cmds ∧
      ∀ cmd ∈ cmds, cmd ≠ .wireCursorUp ∧ cmd ≠ .wireBackspace ∧ cmd ≠ .wireDeleteChar ∧ cmd ≠ .wireBrightness ∧
        (∀ rr, cmd = .wireSetRow rr → 1 ≤ rr.toNat ∧ rr.toNat ≤ 6) ∧
        (∀ cc, cmd = .wireSetCol cc → 1 ≤ cc.toNat ∧ cc.toNat ≤ 40)

/-! ### The display's wire (41_display.md sections 5 and 6) -/

/-- The frame of a byte: ten bit times, start 0, the low seven bits least significant first, even parity, stop 1; bit 7
is not sent (30_encoding.md R125). -/
def Obligations.SerialFrameIs7E1 : Prop :=
  ∀ b : Byte,
    (∃ d0 d1 d2 d3 d4 d5 d6 p : Bit, serialFrame b = [false, d0, d1, d2, d3, d4, d5, d6, p, true] ∧
      d0.toNat + 2 * d1.toNat + 4 * d2.toNat + 8 * d3.toNat + 16 * d4.toNat + 32 * d5.toNat + 64 * d6.toNat =
        b.toNat % 128 ∧
      (d0.toNat + d1.toNat + d2.toNat + d3.toNat + d4.toNat + d5.toNat + d6.toNat + p.toNat) % 2 = 0) ∧
    ∀ s : State, (serialTx b s).link.tx = s.link.tx ++ [serialFrame b]

/-- The wire commands whose response the reference display model states: the bytes on the line and that response, and
nothing else changed (41_display.md R148, R149, R151, R152, R156, R157, R159, R163). -/
def Obligations.WireCommandsWithStatedEffect : Prop :=
  ∀ s : State,
    (exec .wireClear s = .next { emit [0x19#8, 0x0C#8] s with
        display := { s.display with grid := List.replicate 6 (List.replicate 40 0x20#8) } }) ∧
    (exec .wireHome s = .next { emit [0x19#8, 0x0E#8] s with display := { s.display with row := 0, col := 0 } }) ∧
    (∀ rr : Char7, 1 ≤ rr.toNat → rr.toNat ≤ 6 →
      exec (.wireSetRow rr) s = .next { emit [0x19#8, 0x11#8, offWire rr] s with
        display := { s.display with row := rr.toNat - 1 } }) ∧
    (∀ cc : Char7, 1 ≤ cc.toNat → cc.toNat ≤ 40 →
      exec (.wireSetCol cc) s = .next { emit [0x19#8, 0x13#8, offWire cc] s with
        display := { s.display with col := cc.toNat - 1 } }) ∧
    (exec .wireBlinkStart s = .next { emit [0x0B#8] s with display := { s.display with blink := true } }) ∧
    (exec .wireBlinkEnd s = .next { emit [0x0C#8] s with display := { s.display with blink := false } }) ∧
    (exec .wireScrollEnable s = .next { emit [0x10#8] s with display := { s.display with scroll := true } })

/-- The wire newline with scroll mode on, and a printable character before the last column's end (41_display.md R153,
R161, R163). -/
def Obligations.WireNewlineAndCharacter : Prop :=
  ∀ s : State,
    (s.display.scroll = true → s.display.row < 5 →
      exec .wireNewline s = .next { emit [0x0D#8, 0x0A#8] s with
        display := { s.display with row := s.display.row + 1, col := 0 } }) ∧
    (s.display.scroll = true → s.display.row = 5 →
      exec .wireNewline s = .next { emit [0x0D#8, 0x0A#8] s with
        display := { s.display with grid := s.display.grid.drop 1 ++ [List.replicate 40 0x20#8], col := 0 } }) ∧
    (∀ x : Char7, 0x20 ≤ x.toNat → x.toNat ≤ 0x7E → s.display.col < 40 →
      exec (.wireCharacter x) s = .next { emit [offWire x] s with
        display := { s.display with
          grid := putCell s.display.grid s.display.row s.display.col (offWire x), col := s.display.col + 1 } })

/-- A wire command with no stated response (cursor-up, backspace, delete-char, brightness, content-query; set-row or
set-col with a parameter outside the grid; newline with scroll mode off; any other character) sends its bytes and
leaves the display in some state of its shape; nothing else changes but the draw counter (41_display.md R163). -/
def Obligations.WireCommandsWithFreeEffect : Prop :=
  ∀ (s : State) (i : Instr),
    (i = .wireCursorUp ∨ i = .wireBackspace ∨ i = .wireDeleteChar ∨ i = .wireBrightness ∨ i = .wireContentQuery ∨
      (∃ rr : Char7, i = .wireSetRow rr ∧ (rr.toNat = 0 ∨ 6 < rr.toNat)) ∨
      (∃ cc : Char7, i = .wireSetCol cc ∧ (cc.toNat = 0 ∨ 40 < cc.toNat)) ∨
      (i = .wireNewline ∧ s.display.scroll = false) ∨
      (∃ x : Char7, i = .wireCharacter x ∧ (x.toNat < 0x20 ∨ x.toNat = 0x7F ∨ 40 ≤ s.display.col))) →
    ∃ d : Display, d.wf ∧
      exec i s = .next { emit (encode s.kpParams i) s with
        display := d, env := { s.env with draws := s.env.draws + 1 } }

/-! ### The analog sampler (42_analog.md) -/

/-- ADC_INIT with every primitive ok: four PinModes, three PinWrites, the idle levels, init true (42_analog.md R180). -/
def Obligations.AdcInitConfiguresTheLines : Prop :=
  ∀ (s : State) (acks : List Bool), s.env.acks = List.replicate 7 true ++ acks →
    exec .adcInit s =
      .next { s with
        adc := { init := true, csOut := some true, clkOut := some false, mosiOut := some false }
        env := { s.env with acks := acks }
        events := s.events ++
          [.pinMode .adcCs .output true, .pinMode .adcClk .output true, .pinMode .adcMosi .output true,
           .pinMode .adcMiso .input true, .pinWrite .adcCs true true, .pinWrite .adcClk false true,
           .pinWrite .adcMosi false true]
        results := s.results ++ [(s.issuer, .status .ok)] }

/-- ADC_INIT in every state: its primitives in R180's order, each answered by the next answer the state lists for it; all
of them and then OK with init true, or those up to the first that failed, and then BusTransactionError with init false.
So an answer that fails, listed behind n that do not, ends it at primitive n. The records of the outputs are the last
writes that succeeded (42_analog.md R180; 60_exceptions.md R265, R269; 20_memory.md R60, R61). The lists of answers are
the model's (notes/assumptions/3.md). -/
def Obligations.AdcInitStopsAtTheFirstFailure : Prop :=
  ∀ s : State, ∃ t es, exec .adcInit s = .next t ∧ t.events = s.events ++ es ∧ AnswersTaken es s t ∧
    SameOutsideAdc s t ∧ t.converter = s.converter ∧ t.env.levels = s.env.levels ∧ OutputsFollow es s.adc t.adc ∧
    ((es = initEvents ∧ es.length = 7 ∧ es.all Event.succeeded = true ∧ t.adc.init = true ∧
        t.results = s.results ++ [(s.issuer, .status .ok)]) ∨
      (t.adc.init = false ∧ t.results = s.results ++ [(s.issuer, .status .busTransactionError)] ∧
        FailsIn initEvents es ∧
        ∃ done e, es = done ++ [e] ∧ done.length < 7 ∧ done.all Event.succeeded = true ∧ e.succeeded = false)) ∧
    ∀ (n : Nat) (acks : List Bool), n < 7 → s.env.acks = List.replicate n true ++ false :: acks →
      t.adc.init = false ∧ es.length = n + 1 ∧ t.env.acks = acks

/-- A channel outside 0..7 touches no pin and writes no state, initialized or not: InvalidChannel with the sentinel 0,
and voltage 0 (42_analog.md R188; 60_exceptions.md R264, R272). -/
def Obligations.InvalidChannelTouchesNothing : Prop :=
  ∀ (s : State) (ch : Int), (ch < 0 ∨ 7 < ch) →
    exec (.adcRead ch) s = .next { s with results := s.results ++ [(s.issuer, .raw .invalidChannel 0#10)] } ∧
    ∃ c : Int, exec (.adcReadVoltage ch) s =
      .next { s with results := s.results ++ [(s.issuer, .sample .invalidChannel c 0#10 0)] }

/-- Before ADC_INIT has succeeded a valid channel gives NotInitialized, with no primitive (60_exceptions.md R266;
70_reset_and_hazards.md R297). -/
def Obligations.UninitializedReadTouchesNothing : Prop :=
  ∀ (s : State) (ch : Int), s.adc.init = false → 0 ≤ ch → ch ≤ 7 →
    exec (.adcRead ch) s = .next { s with results := s.results ++ [(s.issuer, .raw .notInitialized 0#10)] } ∧
    ∃ c : Int, exec (.adcReadVoltage ch) s =
      .next { s with results := s.results ++ [(s.issuer, .sample .notInitialized c 0#10 0)] }

/-- ADC_READ of a valid channel when every primitive answers ok: the exact events of the transaction, the lines it
leaves, and the value assembled most significant bit first (42_analog.md R181, R182; 30_encoding.md R109). What the
converter holds is left open. -/
def Obligations.AdcReadSamplesTheChannel : Prop :=
  ∀ (s : State) (ch : Nat) (bits : List Bit) (acks : List Bool) (levels : List (Option Bit)),
    s.adc.init = true → ch ≤ 7 → AnswersFrame s bits acks levels →
    rawSum bits < 1024 ∧
    ∃ held : Converter, exec (.adcRead ch) s =
      .next { afterTransaction s ch bits acks levels with
        converter := held
        results := s.results ++ [(s.issuer, .raw .ok (BitVec.ofNat 10 (rawSum bits)))] }

/-- ADC_READ_VOLTAGE does what ADC_READ does, and its record is the sample: the channel, the raw value and
raw × VREF / 1023, so VOLT(0) = 0 and VOLT(1023) = VREF (42_analog.md R185, R186, R187). What the converter holds is
left open. -/
def Obligations.AdcReadVoltageConverts : Prop :=
  (∀ (s : State) (ch : Nat) (bits : List Bit) (acks : List Bool) (levels : List (Option Bit)),
    s.adc.init = true → ch ≤ 7 → AnswersFrame s bits acks levels →
    ∃ held : Converter, exec (.adcReadVoltage ch) s =
      .next { afterTransaction s ch bits acks levels with
        converter := held
        results := s.results ++
          [(s.issuer, .sample .ok ch (BitVec.ofNat 10 (rawSum bits)) ((rawSum bits : Rat) * Config.vref / 1023))] }) ∧
  volt 0#10 = 0 ∧ volt 1023#10 = Config.vref

/-- A read of a valid channel on an initialized unit, with any answers: R182's primitives in order, each answered by the
next answer the state lists for it. Either all of them succeeded, and the status is OK with the value of the levels read,
or the first that failed is followed by ABANDON's two writes alone and the record is (BusTransactionError, 0); at most 90
events; init unchanged; the records of the outputs are the last writes that succeeded. So a PinWrite answer that fails,
listed behind fewer than 39 that do not, and a level that fails, listed behind fewer than ten that do not, each make the
read be abandoned. ADC_READ_VOLTAGE does the same and converts (42_analog.md R182, R183, R185;
70_reset_and_hazards.md R300; 20_memory.md R61, R62). The lists of answers are the model's (notes/assumptions/3.md). -/
def Obligations.AdcReadSucceedsOrAbandons : Prop :=
  ∀ (s : State) (ch : Int), s.adc.init = true → 0 ≤ ch → ch ≤ 7 →
    ∃ t es, exec (.adcRead ch) s = .next t ∧ t.events = s.events ++ es ∧ AnswersTaken es s t ∧ es.length ≤ 90 ∧
      t.adc.init = true ∧ SameOutsideAdc s t ∧ OutputsFollow es s.adc t.adc ∧
      ((es.length = 88 ∧ es.all Event.succeeded = true ∧
          ∃ bits raw, bits.length = 10 ∧ es = transactionEvents ch.toNat bits ∧ raw = BitVec.ofNat 10 (rawSum bits) ∧
            t.results = s.results ++ [(s.issuer, .raw .ok raw)] ∧
            exec (.adcReadVoltage ch) s =
              .next { t with results := s.results ++ [(s.issuer, .sample .ok ch raw (volt raw))] }) ∨
        (t.results = s.results ++ [(s.issuer, .raw .busTransactionError 0#10)] ∧
          (∃ c : Int, exec (.adcReadVoltage ch) s =
            .next { t with results := s.results ++ [(s.issuer, .sample .busTransactionError c 0#10 0)] }) ∧
          ∃ bits done e ok1 ok2, es = done ++ [e, .pinWrite .adcClk false ok1, .pinWrite .adcCs true ok2] ∧
            bits.length = 10 ∧ FailsIn (transactionEvents ch.toNat bits) (done ++ [e]) ∧
            done.all Event.succeeded = true ∧ e.succeeded = false)) ∧
      (∀ (n : Nat) (acks : List Bool), n < 39 → s.env.acks = List.replicate n true ++ false :: acks →
        t.results = s.results ++ [(s.issuer, .raw .busTransactionError 0#10)]) ∧
      ∀ (bits : List Bit) (levels : List (Option Bit)), bits.length < 10 →
        s.env.levels = bits.map some ++ none :: levels →
        t.results = s.results ++ [(s.issuer, .raw .busTransactionError 0#10)]

/-- The command word of each channel is 24 + ch, sent first bit first as `1 1 C2 C1 C0` (30_encoding.md R107;
42_analog.md R189). -/
def Obligations.CommandWordOfAChannel : Prop :=
  ∀ ch : Nat, ch ≤ 7 →
    (commandWord (channelBits ch)).toNat = 24 + ch ∧
    commandBits (commandWord (channelBits ch)) = [true, true, ch.testBit 2, ch.testBit 1, ch.testBit 0]

/-- Each command frame on the ADC wire is the transaction of its channel, initialized or not (30_encoding.md R107,
R108; 42_analog.md R182), and with any answers it does what ADC_READ of its channel does on an initialized unit. Its
record, and the missing check of `init`, are the model's choice (notes/assumptions/8.md), and so is that the converter
holds the word it was sent (notes/assumptions/20.md). -/
def Obligations.CommandFramesRunTheTransaction : Prop :=
  ∀ (s : State) (i : Instr) (ch : Nat), (i, ch) ∈ adcFrames →
    (s.adc.init = true → exec i s = exec (.adcRead ch) s) ∧
    ∀ (bits : List Bit) (acks : List Bool) (levels : List (Option Bit)), AnswersFrame s bits acks levels →
      exec i s =
        .next { afterTransaction s ch bits acks levels with
          results := s.results ++ [(s.issuer, .raw .ok (BitVec.ofNat 10 (rawSum bits)))] }

/-! ### The quadrature decoder (43_quadrature.md) -/

/-- An accepted edge: A rose, outside the window. The position moves by one step, wrapping in 32 bits, up if B is high
and down if it is low; the tick and the flag are set; the phases are stored; nothing else changes (43_quadrature.md
R210, R211, R212). -/
def Obligations.AcceptedEdgeStepsThePosition : Prop :=
  ∀ (s : State) (b : Bit) (t : Tick), s.enc.lastA = false →
    (∀ t0, s.enc.lastEventTick = some t0 → 200 ≤ (t.toNat + 2 ^ 32 - t0.toNat) % 2 ^ 32) →
    ∃ p : Position,
      p.toInt = (s.enc.position.toInt + (if b then Config.stepSize else -Config.stepSize)).bmod (2 ^ 32) ∧
      exec (.encEdge true b t) s =
        .next { s with
          enc := { position := p, lastA := true, lastB := b, lastEventTick := some t, changed := true }
          results := s.results ++ [(s.issuer, .status .ok)] }

/-- Any other notification stores the phases and changes nothing else: A did not rise, or it rose inside the window
(43_quadrature.md R211, R213). -/
def Obligations.OtherEdgesOnlyStoreThePhases : Prop :=
  ∀ (s : State) (a b : Bit) (t : Tick),
    (s.enc.lastA = true ∨ a = false ∨
      ∃ t0, s.enc.lastEventTick = some t0 ∧ (t.toNat + 2 ^ 32 - t0.toNat) % 2 ^ 32 < 200) →
    exec (.encEdge a b t) s =
      .next { s with
        enc := { s.enc with lastA := a, lastB := b }
        results := s.results ++ [(s.issuer, .status .ok)] }

/-- ENC_READ, opcode 0x21, returns the position and the flag and changes nothing (43_quadrature.md R214). -/
def Obligations.EncReadReturnsPositionAndFlag : Prop :=
  (∀ (p : KpParams) (rest : List Byte), decode p .hostPort (0x21#8 :: rest) = .ok (.encRead, rest)) ∧
  ∀ s : State,
    exec .encRead s =
      .next { s with results := s.results ++ [(s.issuer, .encoder .ok s.enc.position.toInt s.enc.changed)] }

/-- ENC_CLEAR_CHANGED, opcode 0x22, clears the flag and nothing else (43_quadrature.md R215). -/
def Obligations.EncClearClearsOnlyTheFlag : Prop :=
  (∀ (p : KpParams) (rest : List Byte), decode p .hostPort (0x22#8 :: rest) = .ok (.encClearChanged, rest)) ∧
  ∀ s : State,
    exec .encClearChanged s =
      .next { s with
        enc := { s.enc with changed := false }, results := s.results ++ [(s.issuer, .status .ok)] }

/-- The counting law: N pairs of a rising and a falling notification with B at β, each rise outside the window of the
one before, move the position by N steps, up for β = 1 and down for β = 0, wrapped to 32 bits (43_quadrature.md
R217). -/
def Obligations.CountingLaw : Prop :=
  ∀ (s : State) (β : Bit) (ticks : List (Tick × Tick)), s.enc.lastA = false →
    (∀ t0, s.enc.lastEventTick = some t0 → ∀ p, ticks.head? = some p →
      200 ≤ (p.1.toNat + 2 ^ 32 - t0.toNat) % 2 ^ 32) →
    (∀ (n : Nat) (p q : Tick × Tick), ticks[n]? = some p → ticks[n + 1]? = some q →
      200 ≤ (q.1.toNat + 2 ^ 32 - p.1.toNat) % 2 ^ 32) →
    ∃ t, runAll (ticks.flatMap fun p => [.encEdge true β p.1, .encEdge false β p.2]) s = .next t ∧
      t.enc.position.toInt =
        (s.enc.position.toInt + (if β then 1 else -1) * (ticks.length * Config.stepSize)).bmod (2 ^ 32) ∧
      t.enc.lastA = false ∧ t.events = s.events ∧ t.vfd = s.vfd ∧ t.adc = s.adc ∧ t.kp = s.kp

/-- The changed-flag race: an edge accepted between HOST's read and its clear leaves the flag down with a position HOST
has not seen (70_reset_and_hazards.md R303), for every accepted edge. -/
def Obligations.ChangedFlagRace : Prop :=
  ∀ (s : State) (b : Bit) (t : Tick), s.enc.lastA = false →
    (∀ t0, s.enc.lastEventTick = some t0 → 200 ≤ (t.toNat + 2 ^ 32 - t0.toNat) % 2 ^ 32) →
    ∃ u, runAll [.encRead, .encEdge true b t, .encClearChanged] s = .next u ∧ u.enc.changed = false ∧
      (s.issuer, Result.encoder .ok s.enc.position.toInt s.enc.changed) ∈ u.results ∧
      u.enc.position ≠ s.enc.position

/-! ### The keypad scanner (44_keypad.md) -/

/-- A pass with every transaction ok whose first key is on row `misses.length`: it ends there, with three events a row
and the expander on that row's pattern; a different key is recorded with the flag set, an equal one writes neither
field (44_keypad.md R231, R240, R242). -/
def Obligations.ScanRecordsTheFirstKey : Prop :=
  ∀ (s : State) (misses : List Byte) (column k : Byte) (acks : List Bool) (bytes : List (Option Byte)),
    misses.length ≤ 3 → (∀ m ∈ misses, keyOf s.kpParams m = none) → keyOf s.kpParams column = some k →
    AnswersPass s (misses ++ [column]) acks bytes →
    ∃ kp : Kp,
      kp = (if s.kp.lastKey = some k then s.kp else { lastKey := some k, keyPressed := true }) ∧
      (passEvents s.kpParams (misses ++ [column])).length = 3 * (misses.length + 1) ∧
      exec .kpScan s =
        .next { s with
          kp := kp
          expander := { latch := s.kpParams.rowPat.getD misses.length 0#8 }
          env := { s.env with acks := acks, bytes := bytes }
          events := s.events ++ passEvents s.kpParams (misses ++ [column])
          results := s.results ++ [(s.issuer, .keypad .ok kp.lastKey kp.keyPressed)] }

/-- A pass that reads all four rows and decodes no key clears the recorded key and leaves the flag (44_keypad.md R232,
R242). -/
def Obligations.ScanWithoutKeyClearsTheKey : Prop :=
  ∀ (s : State) (columns : List Byte) (acks : List Bool) (bytes : List (Option Byte)),
    columns.length = 4 → (∀ c ∈ columns, keyOf s.kpParams c = none) → AnswersPass s columns acks bytes →
    (passEvents s.kpParams columns).length = 12 ∧
    exec .kpScan s =
      .next { s with
        kp := { s.kp with lastKey := none }
        expander := { latch := s.kpParams.row3 }
        env := { s.env with acks := acks, bytes := bytes }
        events := s.events ++ passEvents s.kpParams columns
        results := s.results ++ [(s.issuer, .keypad .ok none s.kp.keyPressed)] }

/-- KP_SCAN with any answers: the rows are tried in order, each writing its pattern, settling and reading, with a
logged skip of its own index at a failed write or read and the later rows still tried, to the first row whose byte is a
key or to the last; those events exactly, at most 16, each
write and each read answered by the next answer the state lists for it, so that a false one is a failed write, a failed
byte a failed read, and any other byte the byte read. The key is recorded from whichever row it came, a skip before it
or not; with no key, `last_key` is cleared unless a row was skipped; BusTransactionError exactly if one was, with the
unit's real state (44_keypad.md R230, R231, R232, R233, R240, R241, R242, R243). The lists of answers are the model's
(notes/assumptions/3.md). -/
def Obligations.ScanWithSkippedRows : Prop :=
  ∀ s : State, ∃ (t : State) (outcomes : List RowOutcome), exec .kpScan s = .next t ∧
    outcomes.length ≤ 4 ∧ (∀ o ∈ outcomes.dropLast, rowKey s.kpParams o = none) ∧
    (outcomes.length = 4 ∨ ∃ o k, outcomes.getLast? = some o ∧ rowKey s.kpParams o = some k) ∧
    t.events = s.events ++ passTrace s.kpParams outcomes ∧ AnswersTaken (passTrace s.kpParams outcomes) s t ∧
    (passTrace s.kpParams outcomes).length ≤ 16 ∧
    t.kp = kpAfterPass s.kpParams outcomes s.kp ∧
    t.expander.latch = latchAfterPass s.kpParams outcomes s.expander.latch ∧
    t.results = s.results ++
      [(s.issuer, .keypad (if outcomes.any rowSkipped then .busTransactionError else .ok)
        t.kp.lastKey t.kp.keyPressed)] ∧
    SameOutsideKeypad s t

/-- KP_READ, KP_CLEAR_FLAG and KP_CLEAR_KEY, opcodes 0x31 to 0x33 (44_keypad.md R234, R235, R236). -/
def Obligations.KeypadConsumerOperations : Prop :=
  (∀ (p : KpParams) (rest : List Byte),
    decode p .hostPort (0x31#8 :: rest) = .ok (.kpRead, rest) ∧
    decode p .hostPort (0x32#8 :: rest) = .ok (.kpClearFlag, rest) ∧
    decode p .hostPort (0x33#8 :: rest) = .ok (.kpClearKey, rest)) ∧
  ∀ s : State,
    exec .kpRead s =
      .next { s with results := s.results ++ [(s.issuer, .keypad .ok s.kp.lastKey s.kp.keyPressed)] } ∧
    exec .kpClearFlag s =
      .next { s with kp := { s.kp with keyPressed := false }, results := s.results ++ [(s.issuer, .status .ok)] } ∧
    exec .kpClearKey s =
      .next { s with kp := { s.kp with lastKey := none }, results := s.results ++ [(s.issuer, .status .ok)] }

/-- The repeat-press quirk: after KP_CLEAR_FLAG alone, passes that meet the recorded key again, or skip a row without
meeting another, leave the flag down, however many there are; one KP_CLEAR_KEY in between would let the same key set
it (44_keypad.md R237, R238). -/
def Obligations.RepeatPressIsNotDetected : Prop :=
  (∀ (n : Nat) (s t : State) (k : Byte), s.kp.lastKey = some k → s.kp.keyPressed = false →
    runAll (List.replicate n .kpScan) s = .next t →
    (∀ (m : Nat) (u v : State), m < n → runAll (List.replicate m .kpScan) s = .next u → exec .kpScan u = .next v →
      v.kp.lastKey = some k) →
    t.kp.keyPressed = false) ∧
  (∀ (s t u : State) (k : Byte), s.kp.lastKey = some k → exec .kpClearKey s = .next t → exec .kpScan t = .next u →
    u.kp.lastKey = some k → u.kp.keyPressed = true)

/-- Each row-select instruction is one BusWrite of its pattern to the expander's address; a write that succeeds sets the
expander's latch, one that fails leaves it (30_encoding.md R110, R111; 20_memory.md R63, R71). -/
def Obligations.RowSelectWritesThePattern : Prop :=
  ∀ (s : State) (i : Instr) (b : Byte), (i, b) ∈ rowSelects s.kpParams →
    (s.nextAck = true →
      exec i s = .next { s.dropAck with
        expander := { latch := b }, events := s.events ++ [.busWrite s.kpParams.addr b true] }) ∧
    (s.nextAck = false →
      exec i s = .next { s.dropAck with events := s.events ++ [.busWrite s.kpParams.addr b false] })

/-- A column byte is looked up whole, not masked, in KEYMAP (30_encoding.md R112, R113). The tables the spec takes have
the form the rules ask for, whatever the expander's address: each row-select pattern has exactly one bit 0, KEYMAP has 16
entries with 16 distinct keys, and the key byte of row i, column j is pattern i with bit 4 + j cleared (R110, R113,
R114). A column byte stands for a key exactly if it is one of the sixteen of R114, '5' being the byte 0xDD on the second
pattern. -/
def Obligations.KeypadTablesAreSound : Prop :=
  (∀ (p : KpParams) (column : Byte), keyOf p column = p.keymap.lookup column) ∧
  ∀ addr : BitVec 7, (KpParams.standard addr).Legal ∧
    (∀ b ∈ (KpParams.standard addr).rowPat, ((List.range 8).filter fun k => !b.getLsbD k).length = 1) ∧
    (KpParams.standard addr).rowPat = [0xFE#8, 0xFD#8, 0xFB#8, 0xF7#8] ∧
    (∀ i j : Nat, i < 4 → j < 4 →
      (((KpParams.standard addr).keymap.map Prod.fst).getD (4 * i + j) 0#8) =
        ((KpParams.standard addr).rowPat.getD i 0#8) &&& ~~~(BitVec.twoPow 8 (4 + j))) ∧
    ∀ column k : Byte, keyOf (KpParams.standard addr) column = some k ↔
      (column, k) ∈
        [(0xEE#8, 0x31#8), (0xDE#8, 0x32#8), (0xBE#8, 0x33#8), (0x7E#8, 0x41#8)] ++
        [(0xED#8, 0x34#8), (0xDD#8, 0x35#8), (0xBD#8, 0x36#8), (0x7D#8, 0x42#8)] ++
        [(0xEB#8, 0x37#8), (0xDB#8, 0x38#8), (0xBB#8, 0x39#8), (0x7B#8, 0x43#8)] ++
        [(0xE7#8, 0x2A#8), (0xD7#8, 0x30#8), (0xB7#8, 0x23#8), (0x77#8, 0x44#8)]

/-! ### The whole machine -/

/-- Which operations write each field of the block: every other instruction leaves it, and none writes the line
configuration or the keypad's parameters (10_state.md R22 to R41). The converter's outputs change by the sampler's three
operations and, as the model has it (notes/assumptions/8.md), by the eight converter frames. -/
def Obligations.OnlyTheNamedOperationsWrite : Prop :=
  ∀ (i : Instr) (s t : State), exec i s = .next t →
    t.vfd.lineCfg = s.vfd.lineCfg ∧ t.kpParams = s.kpParams ∧
    (drivesConverter i = false →
      t.adc.csOut = s.adc.csOut ∧ t.adc.clkOut = s.adc.clkOut ∧ t.adc.mosiOut = s.adc.mosiOut) ∧
    (i ≠ .vfdOpen → i ≠ .vfdClose → t.vfd.session = s.vfd.session ∧ t.vfd.rts = s.vfd.rts) ∧
    (i ≠ .vfdOpen → i ≠ .vfdClear → (∀ x, i ≠ .vfdWrite x) → (∀ x, i ≠ .vfdWriteBlinking x) →
      (∀ r c, i ≠ .vfdSetCursor r c) → t.vfd.cursorRow = s.vfd.cursorRow ∧ t.vfd.cursorCol = s.vfd.cursorCol) ∧
    (i ≠ .adcInit → t.adc.init = s.adc.init) ∧
    ((∀ a b τ, i ≠ .encEdge a b τ) →
      t.enc.position = s.enc.position ∧ t.enc.lastA = s.enc.lastA ∧ t.enc.lastB = s.enc.lastB ∧
      t.enc.lastEventTick = s.enc.lastEventTick ∧ (i ≠ .encClearChanged → t.enc.changed = s.enc.changed)) ∧
    (i ≠ .kpScan → i ≠ .kpClearKey → t.kp.lastKey = s.kp.lastKey) ∧
    (i ≠ .kpScan → i ≠ .kpClearFlag → t.kp.keyPressed = s.kp.keyPressed)

/-- Every operation of the host port yields exactly one result record, to the agent that issued it, and rewrites no
event and no earlier record (60_exceptions.md R260; 20_memory.md section 1). -/
def Obligations.OneResultRecordPerOperation : Prop :=
  ∀ (i : Instr) (s t : State), exec i s = .next t →
    (∃ es, t.events = s.events ++ es) ∧
    (isHostOperation i = true → ∃ r, t.results = s.results ++ [(s.issuer, r)])

/-- The status codes are numbered 0 to 7, and a record any instruction adds carries a status the table lets it return:
PortError is VFD_OPEN's alone, TimeoutError VFD_QUERY's, NoSession the other VFD operations', and so on; IllegalCommand
is returned by no operation, for it belongs to the frame decoder (60_exceptions.md R260, R261). What a converter frame
returns is the model's choice (notes/assumptions/8.md). -/
def Obligations.StatusesAreTheTables : Prop :=
  [Status.ok, .portError, .timeoutError, .invalidChannel, .busTransactionError, .notInitialized, .noSession,
    .illegalCommand].map statusCode = List.range 8 ∧
  ∀ (i : Instr) (s t : State), exec i s = .next t →
    ∃ rs, t.results = s.results ++ rs ∧ ∀ r ∈ rs, resultStatus r.2 ∈ statusesOf i

/-- Every step keeps the invariant: the cursor in the grid, RTS with the session, the line configuration constant, the
sampler's outputs driven once initialized, the changed flag with a tick, the recorded key a KEYMAP value, ROWPAT
and KEYMAP in the form asked for, the display in shape, and the line's frames those of the bytes sent (10_state.md R26,
R27, R30, R41; 30_encoding.md R110, R113). -/
def Obligations.StepKeepsTheInvariant : Prop :=
  ∀ s t : State, s.Inv → step s = .next t → t.Inv

/-- The machine at launch meets the invariant, for every pair of launch levels and every parameters of the form asked for
(70_reset_and_hazards.md R291; 30_encoding.md R110, R113). -/
def Obligations.LaunchMeetsTheInvariant : Prop :=
  ∀ (p : KpParams) (a0 b0 : Bit), p.Legal → (State.launch p a0 b0).Inv

/-- Every field of the block at its reset value, no primitive issued, and the phases those sampled at launch, for any
parameters (70_reset_and_hazards.md R291, R293). The machine after reset takes the ROWPAT and KEYMAP of 30_encoding.md
R111 and R114; its expander's address stays open. -/
def Obligations.ResetValues : Prop :=
  State.reset = State.launch (.standard Config.kpAddr) Config.phaseA0 Config.phaseB0 ∧
  ∀ (p : KpParams) (a0 b0 : Bit),
    (State.launch p a0 b0).vfd =
      { session := false, cursorRow := 0, cursorCol := 0, rts := false,
        lineCfg := { baud := 9600, dataBits := 7, parity := .even, stopBits := 1, localLine := true,
                     readTimeoutMs := 1000 } } ∧
    (State.launch p a0 b0).adc = { init := false, csOut := none, clkOut := none, mosiOut := none } ∧
    (State.launch p a0 b0).enc =
      { position := 0#32, lastA := a0, lastB := b0, lastEventTick := none, changed := false } ∧
    (State.launch p a0 b0).kp = { lastKey := none, keyPressed := false } ∧
    (State.launch p a0 b0).kpParams = p ∧ (State.launch p a0 b0).events = []

/-- Lines of the textual syntax are their frames; a line with a negative operand is the operation itself, which has no
frame (30_encoding.md R92, R94, R126; 95_test_vectors.md). -/
def Obligations.SampleLinesAreTheirFrames : Prop :=
  lineRequest "VFD_OPEN".toList = some (.frame .host false .hostPort [0x01#8]) ∧
  lineRequest "VFD_WRITE \"Hi\\n\"".toList =
    some (.frame .host false .hostPort [0x04#8, 0x03#8, 0x48#8, 0x69#8, 0x0A#8]) ∧
  lineRequest "VFD_SET_CURSOR 5, 38".toList = some (.frame .host false .hostPort [0x06#8, 0x05#8, 0x26#8]) ∧
  lineRequest "VFD_SET_CURSOR -1, 0".toList = some (.operation .host false (.vfdSetCursor (-1) 0)) ∧
  lineRequest "ADC_READ 3".toList = some (.frame .host false .hostPort [0x11#8, 0x03#8]) ∧
  lineRequest "ENC_EDGE a=1, b=1, t=1000 ; issued by NOTIFIER".toList =
    some (.frame .notifier false .hostPort [0x20#8, 0x03#8, 0x00#8, 0x00#8, 0x03#8, 0xE8#8]) ∧
  lineRequest "KP_CLEAR_KEY".toList = some (.frame .host false .hostPort [0x33#8])
end

