-- ==== Sys2Proof/Laws/State.lean ====
section
/-! SUPPORT. One lemma per field of State per named update: what the update makes of that field. No proof about the
machine needs to unfold a record update. -/

namespace Sys2Proof.Machine


/-! ### State.record -/

@[simp] theorem State.record_vfd (e : Event) (s : State) : (s.record e).vfd = s.vfd := rfl
@[simp] theorem State.record_adc (e : Event) (s : State) : (s.record e).adc = s.adc := rfl
@[simp] theorem State.record_enc (e : Event) (s : State) : (s.record e).enc = s.enc := rfl
@[simp] theorem State.record_kp (e : Event) (s : State) : (s.record e).kp = s.kp := rfl
@[simp] theorem State.record_link (e : Event) (s : State) : (s.record e).link = s.link := rfl
@[simp] theorem State.record_display (e : Event) (s : State) : (s.record e).display = s.display := rfl
@[simp] theorem State.record_converter (e : Event) (s : State) : (s.record e).converter = s.converter := rfl
@[simp] theorem State.record_expander (e : Event) (s : State) : (s.record e).expander = s.expander := rfl
@[simp] theorem State.record_kpParams (e : Event) (s : State) : (s.record e).kpParams = s.kpParams := rfl
@[simp] theorem State.record_env (e : Event) (s : State) : (s.record e).env = s.env := rfl
@[simp] theorem State.record_inbox (e : Event) (s : State) : (s.record e).inbox = s.inbox := rfl
@[simp] theorem State.record_issuer (e : Event) (s : State) : (s.record e).issuer = s.issuer := rfl
@[simp] theorem State.record_events (e : Event) (s : State) : (s.record e).events = s.events ++ [e] := rfl
@[simp] theorem State.record_results (e : Event) (s : State) : (s.record e).results = s.results := rfl

/-! ### State.deliver -/

@[simp] theorem State.deliver_vfd (r : Result) (s : State) : (s.deliver r).vfd = s.vfd := rfl
@[simp] theorem State.deliver_adc (r : Result) (s : State) : (s.deliver r).adc = s.adc := rfl
@[simp] theorem State.deliver_enc (r : Result) (s : State) : (s.deliver r).enc = s.enc := rfl
@[simp] theorem State.deliver_kp (r : Result) (s : State) : (s.deliver r).kp = s.kp := rfl
@[simp] theorem State.deliver_link (r : Result) (s : State) : (s.deliver r).link = s.link := rfl
@[simp] theorem State.deliver_display (r : Result) (s : State) : (s.deliver r).display = s.display := rfl
@[simp] theorem State.deliver_converter (r : Result) (s : State) : (s.deliver r).converter = s.converter := rfl
@[simp] theorem State.deliver_expander (r : Result) (s : State) : (s.deliver r).expander = s.expander := rfl
@[simp] theorem State.deliver_kpParams (r : Result) (s : State) : (s.deliver r).kpParams = s.kpParams := rfl
@[simp] theorem State.deliver_env (r : Result) (s : State) : (s.deliver r).env = s.env := rfl
@[simp] theorem State.deliver_inbox (r : Result) (s : State) : (s.deliver r).inbox = s.inbox := rfl
@[simp] theorem State.deliver_issuer (r : Result) (s : State) : (s.deliver r).issuer = s.issuer := rfl
@[simp] theorem State.deliver_events (r : Result) (s : State) : (s.deliver r).events = s.events := rfl
@[simp] theorem State.deliver_results (r : Result) (s : State) : (s.deliver r).results = s.results ++ [(s.issuer, r)] := rfl

/-! ### State.moveCursor -/

@[simp] theorem State.moveCursor_vfd (row col : Nat) (s : State) : (s.moveCursor row col).vfd = { s.vfd with cursorRow := row, cursorCol := col } := rfl
@[simp] theorem State.moveCursor_adc (row col : Nat) (s : State) : (s.moveCursor row col).adc = s.adc := rfl
@[simp] theorem State.moveCursor_enc (row col : Nat) (s : State) : (s.moveCursor row col).enc = s.enc := rfl
@[simp] theorem State.moveCursor_kp (row col : Nat) (s : State) : (s.moveCursor row col).kp = s.kp := rfl
@[simp] theorem State.moveCursor_link (row col : Nat) (s : State) : (s.moveCursor row col).link = s.link := rfl
@[simp] theorem State.moveCursor_display (row col : Nat) (s : State) : (s.moveCursor row col).display = s.display := rfl
@[simp] theorem State.moveCursor_converter (row col : Nat) (s : State) : (s.moveCursor row col).converter = s.converter := rfl
@[simp] theorem State.moveCursor_expander (row col : Nat) (s : State) : (s.moveCursor row col).expander = s.expander := rfl
@[simp] theorem State.moveCursor_kpParams (row col : Nat) (s : State) : (s.moveCursor row col).kpParams = s.kpParams := rfl
@[simp] theorem State.moveCursor_env (row col : Nat) (s : State) : (s.moveCursor row col).env = s.env := rfl
@[simp] theorem State.moveCursor_inbox (row col : Nat) (s : State) : (s.moveCursor row col).inbox = s.inbox := rfl
@[simp] theorem State.moveCursor_issuer (row col : Nat) (s : State) : (s.moveCursor row col).issuer = s.issuer := rfl
@[simp] theorem State.moveCursor_events (row col : Nat) (s : State) : (s.moveCursor row col).events = s.events := rfl
@[simp] theorem State.moveCursor_results (row col : Nat) (s : State) : (s.moveCursor row col).results = s.results := rfl

/-! ### State.advance -/

@[simp] theorem State.advance_vfd (s : State) : (s.advance).vfd = { s.vfd with cursorCol := s.vfd.cursorCol + 1 } := rfl
@[simp] theorem State.advance_adc (s : State) : (s.advance).adc = s.adc := rfl
@[simp] theorem State.advance_enc (s : State) : (s.advance).enc = s.enc := rfl
@[simp] theorem State.advance_kp (s : State) : (s.advance).kp = s.kp := rfl
@[simp] theorem State.advance_link (s : State) : (s.advance).link = s.link := rfl
@[simp] theorem State.advance_display (s : State) : (s.advance).display = s.display := rfl
@[simp] theorem State.advance_converter (s : State) : (s.advance).converter = s.converter := rfl
@[simp] theorem State.advance_expander (s : State) : (s.advance).expander = s.expander := rfl
@[simp] theorem State.advance_kpParams (s : State) : (s.advance).kpParams = s.kpParams := rfl
@[simp] theorem State.advance_env (s : State) : (s.advance).env = s.env := rfl
@[simp] theorem State.advance_inbox (s : State) : (s.advance).inbox = s.inbox := rfl
@[simp] theorem State.advance_issuer (s : State) : (s.advance).issuer = s.issuer := rfl
@[simp] theorem State.advance_events (s : State) : (s.advance).events = s.events := rfl
@[simp] theorem State.advance_results (s : State) : (s.advance).results = s.results := rfl

/-! ### State.setInit -/

@[simp] theorem State.setInit_vfd (v : Bool) (s : State) : (s.setInit v).vfd = s.vfd := rfl
@[simp] theorem State.setInit_adc (v : Bool) (s : State) : (s.setInit v).adc = { s.adc with init := v } := rfl
@[simp] theorem State.setInit_enc (v : Bool) (s : State) : (s.setInit v).enc = s.enc := rfl
@[simp] theorem State.setInit_kp (v : Bool) (s : State) : (s.setInit v).kp = s.kp := rfl
@[simp] theorem State.setInit_link (v : Bool) (s : State) : (s.setInit v).link = s.link := rfl
@[simp] theorem State.setInit_display (v : Bool) (s : State) : (s.setInit v).display = s.display := rfl
@[simp] theorem State.setInit_converter (v : Bool) (s : State) : (s.setInit v).converter = s.converter := rfl
@[simp] theorem State.setInit_expander (v : Bool) (s : State) : (s.setInit v).expander = s.expander := rfl
@[simp] theorem State.setInit_kpParams (v : Bool) (s : State) : (s.setInit v).kpParams = s.kpParams := rfl
@[simp] theorem State.setInit_env (v : Bool) (s : State) : (s.setInit v).env = s.env := rfl
@[simp] theorem State.setInit_inbox (v : Bool) (s : State) : (s.setInit v).inbox = s.inbox := rfl
@[simp] theorem State.setInit_issuer (v : Bool) (s : State) : (s.setInit v).issuer = s.issuer := rfl
@[simp] theorem State.setInit_events (v : Bool) (s : State) : (s.setInit v).events = s.events := rfl
@[simp] theorem State.setInit_results (v : Bool) (s : State) : (s.setInit v).results = s.results := rfl

/-! ### State.sendCommand -/

@[simp] theorem State.sendCommand_vfd (w : BitVec 5) (s : State) : (s.sendCommand w).vfd = s.vfd := rfl
@[simp] theorem State.sendCommand_adc (w : BitVec 5) (s : State) : (s.sendCommand w).adc = s.adc := rfl
@[simp] theorem State.sendCommand_enc (w : BitVec 5) (s : State) : (s.sendCommand w).enc = s.enc := rfl
@[simp] theorem State.sendCommand_kp (w : BitVec 5) (s : State) : (s.sendCommand w).kp = s.kp := rfl
@[simp] theorem State.sendCommand_link (w : BitVec 5) (s : State) : (s.sendCommand w).link = s.link := rfl
@[simp] theorem State.sendCommand_display (w : BitVec 5) (s : State) : (s.sendCommand w).display = s.display := rfl
@[simp] theorem State.sendCommand_converter (w : BitVec 5) (s : State) : (s.sendCommand w).converter = { command := w } := rfl
@[simp] theorem State.sendCommand_expander (w : BitVec 5) (s : State) : (s.sendCommand w).expander = s.expander := rfl
@[simp] theorem State.sendCommand_kpParams (w : BitVec 5) (s : State) : (s.sendCommand w).kpParams = s.kpParams := rfl
@[simp] theorem State.sendCommand_env (w : BitVec 5) (s : State) : (s.sendCommand w).env = s.env := rfl
@[simp] theorem State.sendCommand_inbox (w : BitVec 5) (s : State) : (s.sendCommand w).inbox = s.inbox := rfl
@[simp] theorem State.sendCommand_issuer (w : BitVec 5) (s : State) : (s.sendCommand w).issuer = s.issuer := rfl
@[simp] theorem State.sendCommand_events (w : BitVec 5) (s : State) : (s.sendCommand w).events = s.events := rfl
@[simp] theorem State.sendCommand_results (w : BitVec 5) (s : State) : (s.sendCommand w).results = s.results := rfl

/-! ### State.forgetKey -/

@[simp] theorem State.forgetKey_vfd (s : State) : (s.forgetKey).vfd = s.vfd := rfl
@[simp] theorem State.forgetKey_adc (s : State) : (s.forgetKey).adc = s.adc := rfl
@[simp] theorem State.forgetKey_enc (s : State) : (s.forgetKey).enc = s.enc := rfl
@[simp] theorem State.forgetKey_kp (s : State) : (s.forgetKey).kp = { s.kp with lastKey := none } := rfl
@[simp] theorem State.forgetKey_link (s : State) : (s.forgetKey).link = s.link := rfl
@[simp] theorem State.forgetKey_display (s : State) : (s.forgetKey).display = s.display := rfl
@[simp] theorem State.forgetKey_converter (s : State) : (s.forgetKey).converter = s.converter := rfl
@[simp] theorem State.forgetKey_expander (s : State) : (s.forgetKey).expander = s.expander := rfl
@[simp] theorem State.forgetKey_kpParams (s : State) : (s.forgetKey).kpParams = s.kpParams := rfl
@[simp] theorem State.forgetKey_env (s : State) : (s.forgetKey).env = s.env := rfl
@[simp] theorem State.forgetKey_inbox (s : State) : (s.forgetKey).inbox = s.inbox := rfl
@[simp] theorem State.forgetKey_issuer (s : State) : (s.forgetKey).issuer = s.issuer := rfl
@[simp] theorem State.forgetKey_events (s : State) : (s.forgetKey).events = s.events := rfl
@[simp] theorem State.forgetKey_results (s : State) : (s.forgetKey).results = s.results := rfl

/-! ### State.accept -/

@[simp] theorem State.accept_vfd (agent : Agent) (rest : List Request) (s : State) : (s.accept agent rest).vfd = s.vfd := rfl
@[simp] theorem State.accept_adc (agent : Agent) (rest : List Request) (s : State) : (s.accept agent rest).adc = s.adc := rfl
@[simp] theorem State.accept_enc (agent : Agent) (rest : List Request) (s : State) : (s.accept agent rest).enc = s.enc := rfl
@[simp] theorem State.accept_kp (agent : Agent) (rest : List Request) (s : State) : (s.accept agent rest).kp = s.kp := rfl
@[simp] theorem State.accept_link (agent : Agent) (rest : List Request) (s : State) : (s.accept agent rest).link = s.link := rfl
@[simp] theorem State.accept_display (agent : Agent) (rest : List Request) (s : State) : (s.accept agent rest).display = s.display := rfl
@[simp] theorem State.accept_converter (agent : Agent) (rest : List Request) (s : State) : (s.accept agent rest).converter = s.converter := rfl
@[simp] theorem State.accept_expander (agent : Agent) (rest : List Request) (s : State) : (s.accept agent rest).expander = s.expander := rfl
@[simp] theorem State.accept_kpParams (agent : Agent) (rest : List Request) (s : State) : (s.accept agent rest).kpParams = s.kpParams := rfl
@[simp] theorem State.accept_env (agent : Agent) (rest : List Request) (s : State) : (s.accept agent rest).env = s.env := rfl
@[simp] theorem State.accept_inbox (agent : Agent) (rest : List Request) (s : State) : (s.accept agent rest).inbox = rest := rfl
@[simp] theorem State.accept_issuer (agent : Agent) (rest : List Request) (s : State) : (s.accept agent rest).issuer = agent := rfl
@[simp] theorem State.accept_events (agent : Agent) (rest : List Request) (s : State) : (s.accept agent rest).events = s.events := rfl
@[simp] theorem State.accept_results (agent : Agent) (rest : List Request) (s : State) : (s.accept agent rest).results = s.results := rfl

/-! ### State.drive, the fields it leaves -/

@[simp] theorem State.drive_vfd (pin : Pin) (level : Bit) (s : State) : (s.drive pin level).vfd = s.vfd := by cases pin <;> rfl
@[simp] theorem State.drive_enc (pin : Pin) (level : Bit) (s : State) : (s.drive pin level).enc = s.enc := by cases pin <;> rfl
@[simp] theorem State.drive_kp (pin : Pin) (level : Bit) (s : State) : (s.drive pin level).kp = s.kp := by cases pin <;> rfl
@[simp] theorem State.drive_link (pin : Pin) (level : Bit) (s : State) : (s.drive pin level).link = s.link := by cases pin <;> rfl
@[simp] theorem State.drive_display (pin : Pin) (level : Bit) (s : State) : (s.drive pin level).display = s.display := by cases pin <;> rfl
@[simp] theorem State.drive_converter (pin : Pin) (level : Bit) (s : State) : (s.drive pin level).converter = s.converter := by cases pin <;> rfl
@[simp] theorem State.drive_expander (pin : Pin) (level : Bit) (s : State) : (s.drive pin level).expander = s.expander := by cases pin <;> rfl
@[simp] theorem State.drive_kpParams (pin : Pin) (level : Bit) (s : State) : (s.drive pin level).kpParams = s.kpParams := by cases pin <;> rfl
@[simp] theorem State.drive_env (pin : Pin) (level : Bit) (s : State) : (s.drive pin level).env = s.env := by cases pin <;> rfl
@[simp] theorem State.drive_inbox (pin : Pin) (level : Bit) (s : State) : (s.drive pin level).inbox = s.inbox := by cases pin <;> rfl
@[simp] theorem State.drive_issuer (pin : Pin) (level : Bit) (s : State) : (s.drive pin level).issuer = s.issuer := by cases pin <;> rfl
@[simp] theorem State.drive_events (pin : Pin) (level : Bit) (s : State) : (s.drive pin level).events = s.events := by cases pin <;> rfl
@[simp] theorem State.drive_results (pin : Pin) (level : Bit) (s : State) : (s.drive pin level).results = s.results := by cases pin <;> rfl

/-! ### State.noteKey, the fields it leaves -/

@[simp] theorem State.noteKey_vfd (k : Byte) (s : State) : (s.noteKey k).vfd = s.vfd := by unfold State.noteKey; split <;> rfl
@[simp] theorem State.noteKey_adc (k : Byte) (s : State) : (s.noteKey k).adc = s.adc := by unfold State.noteKey; split <;> rfl
@[simp] theorem State.noteKey_enc (k : Byte) (s : State) : (s.noteKey k).enc = s.enc := by unfold State.noteKey; split <;> rfl
@[simp] theorem State.noteKey_link (k : Byte) (s : State) : (s.noteKey k).link = s.link := by unfold State.noteKey; split <;> rfl
@[simp] theorem State.noteKey_display (k : Byte) (s : State) : (s.noteKey k).display = s.display := by unfold State.noteKey; split <;> rfl
@[simp] theorem State.noteKey_converter (k : Byte) (s : State) : (s.noteKey k).converter = s.converter := by unfold State.noteKey; split <;> rfl
@[simp] theorem State.noteKey_expander (k : Byte) (s : State) : (s.noteKey k).expander = s.expander := by unfold State.noteKey; split <;> rfl
@[simp] theorem State.noteKey_kpParams (k : Byte) (s : State) : (s.noteKey k).kpParams = s.kpParams := by unfold State.noteKey; split <;> rfl
@[simp] theorem State.noteKey_env (k : Byte) (s : State) : (s.noteKey k).env = s.env := by unfold State.noteKey; split <;> rfl
@[simp] theorem State.noteKey_inbox (k : Byte) (s : State) : (s.noteKey k).inbox = s.inbox := by unfold State.noteKey; split <;> rfl
@[simp] theorem State.noteKey_issuer (k : Byte) (s : State) : (s.noteKey k).issuer = s.issuer := by unfold State.noteKey; split <;> rfl
@[simp] theorem State.noteKey_events (k : Byte) (s : State) : (s.noteKey k).events = s.events := by unfold State.noteKey; split <;> rfl
@[simp] theorem State.noteKey_results (k : Byte) (s : State) : (s.noteKey k).results = s.results := by unfold State.noteKey; split <;> rfl

/-! ### State.dropAck, the fields it leaves -/

@[simp] theorem State.dropAck_vfd (s : State) : (s.dropAck).vfd = s.vfd := by unfold State.dropAck; split <;> rfl
@[simp] theorem State.dropAck_adc (s : State) : (s.dropAck).adc = s.adc := by unfold State.dropAck; split <;> rfl
@[simp] theorem State.dropAck_enc (s : State) : (s.dropAck).enc = s.enc := by unfold State.dropAck; split <;> rfl
@[simp] theorem State.dropAck_kp (s : State) : (s.dropAck).kp = s.kp := by unfold State.dropAck; split <;> rfl
@[simp] theorem State.dropAck_link (s : State) : (s.dropAck).link = s.link := by unfold State.dropAck; split <;> rfl
@[simp] theorem State.dropAck_display (s : State) : (s.dropAck).display = s.display := by unfold State.dropAck; split <;> rfl
@[simp] theorem State.dropAck_converter (s : State) : (s.dropAck).converter = s.converter := by unfold State.dropAck; split <;> rfl
@[simp] theorem State.dropAck_expander (s : State) : (s.dropAck).expander = s.expander := by unfold State.dropAck; split <;> rfl
@[simp] theorem State.dropAck_kpParams (s : State) : (s.dropAck).kpParams = s.kpParams := by unfold State.dropAck; split <;> rfl
@[simp] theorem State.dropAck_inbox (s : State) : (s.dropAck).inbox = s.inbox := by unfold State.dropAck; split <;> rfl
@[simp] theorem State.dropAck_issuer (s : State) : (s.dropAck).issuer = s.issuer := by unfold State.dropAck; split <;> rfl
@[simp] theorem State.dropAck_events (s : State) : (s.dropAck).events = s.events := by unfold State.dropAck; split <;> rfl
@[simp] theorem State.dropAck_results (s : State) : (s.dropAck).results = s.results := by unfold State.dropAck; split <;> rfl

/-! ### State.dropLevel, the fields it leaves -/

@[simp] theorem State.dropLevel_vfd (s : State) : (s.dropLevel).vfd = s.vfd := by unfold State.dropLevel; split <;> rfl
@[simp] theorem State.dropLevel_adc (s : State) : (s.dropLevel).adc = s.adc := by unfold State.dropLevel; split <;> rfl
@[simp] theorem State.dropLevel_enc (s : State) : (s.dropLevel).enc = s.enc := by unfold State.dropLevel; split <;> rfl
@[simp] theorem State.dropLevel_kp (s : State) : (s.dropLevel).kp = s.kp := by unfold State.dropLevel; split <;> rfl
@[simp] theorem State.dropLevel_link (s : State) : (s.dropLevel).link = s.link := by unfold State.dropLevel; split <;> rfl
@[simp] theorem State.dropLevel_display (s : State) : (s.dropLevel).display = s.display := by unfold State.dropLevel; split <;> rfl
@[simp] theorem State.dropLevel_converter (s : State) : (s.dropLevel).converter = s.converter := by unfold State.dropLevel; split <;> rfl
@[simp] theorem State.dropLevel_expander (s : State) : (s.dropLevel).expander = s.expander := by unfold State.dropLevel; split <;> rfl
@[simp] theorem State.dropLevel_kpParams (s : State) : (s.dropLevel).kpParams = s.kpParams := by unfold State.dropLevel; split <;> rfl
@[simp] theorem State.dropLevel_inbox (s : State) : (s.dropLevel).inbox = s.inbox := by unfold State.dropLevel; split <;> rfl
@[simp] theorem State.dropLevel_issuer (s : State) : (s.dropLevel).issuer = s.issuer := by unfold State.dropLevel; split <;> rfl
@[simp] theorem State.dropLevel_events (s : State) : (s.dropLevel).events = s.events := by unfold State.dropLevel; split <;> rfl
@[simp] theorem State.dropLevel_results (s : State) : (s.dropLevel).results = s.results := by unfold State.dropLevel; split <;> rfl

/-! ### State.dropByte, the fields it leaves -/

@[simp] theorem State.dropByte_vfd (s : State) : (s.dropByte).vfd = s.vfd := by unfold State.dropByte; split <;> rfl
@[simp] theorem State.dropByte_adc (s : State) : (s.dropByte).adc = s.adc := by unfold State.dropByte; split <;> rfl
@[simp] theorem State.dropByte_enc (s : State) : (s.dropByte).enc = s.enc := by unfold State.dropByte; split <;> rfl
@[simp] theorem State.dropByte_kp (s : State) : (s.dropByte).kp = s.kp := by unfold State.dropByte; split <;> rfl
@[simp] theorem State.dropByte_link (s : State) : (s.dropByte).link = s.link := by unfold State.dropByte; split <;> rfl
@[simp] theorem State.dropByte_display (s : State) : (s.dropByte).display = s.display := by unfold State.dropByte; split <;> rfl
@[simp] theorem State.dropByte_converter (s : State) : (s.dropByte).converter = s.converter := by unfold State.dropByte; split <;> rfl
@[simp] theorem State.dropByte_expander (s : State) : (s.dropByte).expander = s.expander := by unfold State.dropByte; split <;> rfl
@[simp] theorem State.dropByte_kpParams (s : State) : (s.dropByte).kpParams = s.kpParams := by unfold State.dropByte; split <;> rfl
@[simp] theorem State.dropByte_inbox (s : State) : (s.dropByte).inbox = s.inbox := by unfold State.dropByte; split <;> rfl
@[simp] theorem State.dropByte_issuer (s : State) : (s.dropByte).issuer = s.issuer := by unfold State.dropByte; split <;> rfl
@[simp] theorem State.dropByte_events (s : State) : (s.dropByte).events = s.events := by unfold State.dropByte; split <;> rfl
@[simp] theorem State.dropByte_results (s : State) : (s.dropByte).results = s.results := by unfold State.dropByte; split <;> rfl

/-! ### State.dropRx, the fields it leaves -/

@[simp] theorem State.dropRx_vfd (max : Nat) (s : State) : (s.dropRx max).vfd = s.vfd := by unfold State.dropRx; split <;> rfl
@[simp] theorem State.dropRx_adc (max : Nat) (s : State) : (s.dropRx max).adc = s.adc := by unfold State.dropRx; split <;> rfl
@[simp] theorem State.dropRx_enc (max : Nat) (s : State) : (s.dropRx max).enc = s.enc := by unfold State.dropRx; split <;> rfl
@[simp] theorem State.dropRx_kp (max : Nat) (s : State) : (s.dropRx max).kp = s.kp := by unfold State.dropRx; split <;> rfl
@[simp] theorem State.dropRx_link (max : Nat) (s : State) : (s.dropRx max).link = s.link := by unfold State.dropRx; split <;> rfl
@[simp] theorem State.dropRx_display (max : Nat) (s : State) : (s.dropRx max).display = s.display := by unfold State.dropRx; split <;> rfl
@[simp] theorem State.dropRx_converter (max : Nat) (s : State) : (s.dropRx max).converter = s.converter := by unfold State.dropRx; split <;> rfl
@[simp] theorem State.dropRx_expander (max : Nat) (s : State) : (s.dropRx max).expander = s.expander := by unfold State.dropRx; split <;> rfl
@[simp] theorem State.dropRx_kpParams (max : Nat) (s : State) : (s.dropRx max).kpParams = s.kpParams := by unfold State.dropRx; split <;> rfl
@[simp] theorem State.dropRx_inbox (max : Nat) (s : State) : (s.dropRx max).inbox = s.inbox := by unfold State.dropRx; split <;> rfl
@[simp] theorem State.dropRx_issuer (max : Nat) (s : State) : (s.dropRx max).issuer = s.issuer := by unfold State.dropRx; split <;> rfl
@[simp] theorem State.dropRx_events (max : Nat) (s : State) : (s.dropRx max).events = s.events := by unfold State.dropRx; split <;> rfl
@[simp] theorem State.dropRx_results (max : Nat) (s : State) : (s.dropRx max).results = s.results := by unfold State.dropRx; split <;> rfl

end Sys2Proof.Machine
end

