-- ==== Sys2Proof/Laws/Analog.lean ====
section
/-! SUPPORT. What the converter's side can do: one lemma per pin primitive and per procedure. `runPins_spec` says all a
pin sequence can do with any answers; `runPins_answered` gives its exact outcome where every answer is written in the
state. -/

namespace Sys2Proof.Machine

/-- An output the block drives stays driven. -/
def StillDriven (a b : Adc) : Prop :=
  (a.csOut.isSome → b.csOut.isSome) ∧ (a.clkOut.isSome → b.clkOut.isSome) ∧ (a.mosiOut.isSome → b.mosiOut.isSome)

theorem lastLevel_append (pin : Pin) (before : Option Bit) (a b : List Event) :
    lastLevel pin before (a ++ b) = lastLevel pin (lastLevel pin before a) b := List.foldl_append ..

theorem OutputsFollow.trans {es fs : List Event} {a b c : Adc} (h : OutputsFollow es a b) (h' : OutputsFollow fs b c) :
    OutputsFollow (es ++ fs) a c :=
  ⟨by rw [lastLevel_append, ← h.1]; exact h'.1, by rw [lastLevel_append, ← h.2.1]; exact h'.2.1,
    by rw [lastLevel_append, ← h.2.2]; exact h'.2.2⟩

/-! ### Answers -/

theorem Answered.refl {α : Type} (l : List α) : Answered [] l l := ⟨[], by simp, .inl rfl⟩

theorem Answered.trans {α : Type} {a b l m n : List α} (h : Answered a l m) (h' : Answered b m n) :
    Answered (a ++ b) l n := by
  obtain ⟨d, h1, h2⟩ := h
  obtain ⟨d', h3, h4⟩ := h'
  refine ⟨d ++ d', by rw [List.append_assoc, h3, ← List.append_assoc, h1, List.append_assoc], ?_⟩
  rcases h4 with rfl | rfl
  · rcases h2 with rfl | rfl
    · exact .inl rfl
    · exact .inr (List.append_eq_nil_iff.mp (h3.trans (List.append_nil _))).2
  · exact .inr rfl

/-- The n-th answer given is the n-th listed. -/
theorem Answered.getElem? {α : Type} {given l m : List α} (h : Answered given l m) {n : Nat} (hg : n < given.length)
    (hl : n < l.length) : given[n]? = l[n]? := by
  obtain ⟨drawn, h, -⟩ := h
  rw [← List.getElem?_append_left (l₂ := m) hg, h, List.getElem?_append_left hl]

@[simp] theorem okAnswers_append (a b : List Event) : okAnswers (a ++ b) = okAnswers a ++ okAnswers b :=
  List.filterMap_append ..

@[simp] theorem levelAnswers_append (a b : List Event) : levelAnswers (a ++ b) = levelAnswers a ++ levelAnswers b :=
  List.filterMap_append ..

@[simp] theorem byteAnswers_append (a b : List Event) : byteAnswers (a ++ b) = byteAnswers a ++ byteAnswers b :=
  List.filterMap_append ..

theorem AnswersTaken.trans {a b : List Event} {s t u : State} (h : AnswersTaken a s t) (h' : AnswersTaken b t u) :
    AnswersTaken (a ++ b) s u := by
  refine ⟨?_, ?_, ?_⟩
  · rw [okAnswers_append]; exact h.1.trans h'.1
  · rw [levelAnswers_append]; exact h.2.1.trans h'.2.1
  · rw [byteAnswers_append]; exact h.2.2.trans h'.2.2

theorem dropAck_answered (s : State) : Answered [s.nextAck] s.env.acks s.dropAck.env.acks := by
  unfold State.nextAck State.dropAck
  split
  · rename_i h; exact ⟨[], by simp [h], .inl rfl⟩
  · rename_i h; exact ⟨_, by simp [h]; rfl, .inr (by simp [h])⟩

theorem dropLevel_answered (s : State) : Answered [s.nextLevel] s.env.levels s.dropLevel.env.levels := by
  unfold State.nextLevel State.dropLevel
  split
  · rename_i h; exact ⟨[], by simp [h], .inl rfl⟩
  · rename_i h; exact ⟨_, by simp [h]; rfl, .inr (by simp [h])⟩

theorem dropByte_answered (s : State) : Answered [s.nextByte] s.env.bytes s.dropByte.env.bytes := by
  unfold State.nextByte State.dropByte
  split
  · rename_i h; exact ⟨[], by simp [h], .inl rfl⟩
  · rename_i h; exact ⟨_, by simp [h]; rfl, .inr (by simp [h])⟩

/-- Events without an answer, which leave the answers to come. -/
theorem AnswersTaken.of_env {es : List Event} {s t : State} (h : okAnswers es = []) (h1 : levelAnswers es = [])
    (h2 : byteAnswers es = []) (he : t.env = s.env) : AnswersTaken es s t := by
  unfold AnswersTaken
  rw [h, h1, h2, he]
  exact ⟨.refl _, .refl _, .refl _⟩

/-! ### Failing in a list of events -/

theorem FailsIn.append_left {all es : List Event} (h : FailsIn all es) (pre : List Event) :
    FailsIn (pre ++ all) (pre ++ es) := by
  obtain ⟨done, e, later, rfl, rfl, he⟩ := h
  exact ⟨pre ++ done, e, later, by simp, by simp, he⟩

theorem FailsIn.append_right {all es : List Event} (h : FailsIn all es) (post : List Event) :
    FailsIn (all ++ post) es := by
  obtain ⟨done, e, later, rfl, rfl, he⟩ := h
  exact ⟨done, e, later ++ post, by simp, rfl, he⟩

/-- What stopped at a failure succeeded until then. -/
theorem FailsIn.ends {all es : List Event} (h : FailsIn all es) (ha : all.all Event.succeeded = true) :
    ∃ done e, es = done ++ [e] ∧ done.length < all.length ∧ done.all Event.succeeded = true ∧ e.succeeded = false := by
  obtain ⟨done, e, later, rfl, rfl, he⟩ := h
  rw [List.all_append] at ha
  exact ⟨done, e.failed, rfl, by simp, (Bool.and_eq_true_iff.mp ha).1, he⟩

/-- `t` is `s` after the pin events `es`: the outputs and the answers may have moved, nothing else. -/
structure Pins (es : List Event) (s t : State) : Prop where
  events : t.events = s.events ++ es
  init : t.adc.init = s.adc.init
  driven : StillDriven s.adc t.adc
  outputs : OutputsFollow es s.adc t.adc
  answers : AnswersTaken es s t
  sent : sentBytes es = []
  vfd : t.vfd = s.vfd
  enc : t.enc = s.enc
  kp : t.kp = s.kp
  link : t.link = s.link
  display : t.display = s.display
  converter : t.converter = s.converter
  expander : t.expander = s.expander
  kpParams : t.kpParams = s.kpParams
  bytes : t.env.bytes = s.env.bytes
  rx : t.env.rx = s.env.rx
  inbox : t.inbox = s.inbox
  issuer : t.issuer = s.issuer
  results : t.results = s.results

theorem StillDriven.refl (a : Adc) : StillDriven a a := ⟨id, id, id⟩

theorem StillDriven.trans {a b c : Adc} (h : StillDriven a b) (h' : StillDriven b c) : StillDriven a c :=
  ⟨fun x => h'.1 (h.1 x), fun x => h'.2.1 (h.2.1 x), fun x => h'.2.2 (h.2.2 x)⟩

@[simp] theorem sentBytes_append (a b : List Event) : sentBytes (a ++ b) = sentBytes a ++ sentBytes b :=
  List.filterMap_append ..

theorem Pins.refl (s : State) : Pins [] s s := by
  constructor <;> first | rfl | exact StillDriven.refl _ | exact ⟨rfl, rfl, rfl⟩ |
    exact .of_env rfl rfl rfl rfl | simp

theorem Pins.trans {a b : List Event} {s t u : State} (h : Pins a s t) (h' : Pins b t u) : Pins (a ++ b) s u where
  events := by rw [h'.events, h.events]; simp
  init := h'.init.trans h.init
  driven := h.driven.trans h'.driven
  outputs := h.outputs.trans h'.outputs
  answers := h.answers.trans h'.answers
  sent := by rw [sentBytes_append, h.sent, h'.sent]; rfl
  vfd := h'.vfd.trans h.vfd
  enc := h'.enc.trans h.enc
  kp := h'.kp.trans h.kp
  link := h'.link.trans h.link
  display := h'.display.trans h.display
  converter := h'.converter.trans h.converter
  expander := h'.expander.trans h.expander
  kpParams := h'.kpParams.trans h.kpParams
  bytes := h'.bytes.trans h.bytes
  rx := h'.rx.trans h.rx
  inbox := h'.inbox.trans h.inbox
  issuer := h'.issuer.trans h.issuer
  results := h'.results.trans h.results

/-! ### The primitives -/

theorem dropAck_env (s : State) : s.dropAck.env.levels = s.env.levels ∧ s.dropAck.env.bytes = s.env.bytes ∧
    s.dropAck.env.rx = s.env.rx := by
  unfold State.dropAck; split <;> exact ⟨rfl, rfl, rfl⟩

theorem dropLevel_env (s : State) : s.dropLevel.env.acks = s.env.acks ∧ s.dropLevel.env.bytes = s.env.bytes ∧
    s.dropLevel.env.rx = s.env.rx := by
  unfold State.dropLevel; split <;> exact ⟨rfl, rfl, rfl⟩

theorem dropByte_env (s : State) : s.dropByte.env.acks = s.env.acks ∧ s.dropByte.env.levels = s.env.levels ∧
    s.dropByte.env.rx = s.env.rx := by
  unfold State.dropByte; split <;> exact ⟨rfl, rfl, rfl⟩

theorem dropRx_env (max : Nat) (s : State) : (s.dropRx max).env.acks = s.env.acks ∧
    (s.dropRx max).env.levels = s.env.levels ∧ (s.dropRx max).env.bytes = s.env.bytes := by
  unfold State.dropRx; split <;> exact ⟨rfl, rfl, rfl⟩

theorem drive_driven (pin : Pin) (level : Bit) (s : State) : StillDriven s.adc (s.drive pin level).adc := by
  cases pin <;> simp [StillDriven, State.drive]

@[simp] theorem drive_init (pin : Pin) (level : Bit) (s : State) : (s.drive pin level).adc.init = s.adc.init := by
  cases pin <;> rfl

theorem pinMode_pins (pin : Pin) (dir : Dir) (s : State) :
    Pins [.pinMode pin dir s.nextAck] s (pinMode pin dir s) := by
  unfold pinMode
  constructor
  case answers =>
    exact ⟨dropAck_answered s, by simp [levelAnswers, dropAck_env, Answered.refl],
      by simp [byteAnswers, dropAck_env, Answered.refl]⟩
  all_goals simp [dropAck_env, StillDriven.refl, OutputsFollow, lastLevel, sentBytes]

@[simp] theorem drive_env (pin : Pin) (level : Bit) (s : State) : (s.drive pin level).env = s.env := by
  cases pin <;> rfl

theorem pinWrite_env (pin : Pin) (level : Bit) (s : State) : (pinWrite pin level s).env = s.dropAck.env := by
  unfold pinWrite; split <;> simp

theorem pinWrite_answers (pin : Pin) (level : Bit) (s : State) :
    AnswersTaken [.pinWrite pin level s.nextAck] s (pinWrite pin level s) := by
  unfold AnswersTaken
  rw [pinWrite_env]
  exact ⟨dropAck_answered s, by simp [levelAnswers, dropAck_env, Answered.refl],
    by simp [byteAnswers, dropAck_env, Answered.refl]⟩

theorem pinWrite_pins (pin : Pin) (level : Bit) (s : State) :
    Pins [.pinWrite pin level s.nextAck] s (pinWrite pin level s) := by
  have ha := pinWrite_answers pin level s
  unfold pinWrite at ha ⊢
  by_cases h : s.nextAck = true <;> simp only [h, if_true] at ha ⊢
  · constructor
    case answers => exact ha
    case driven => simpa using drive_driven pin level (s.dropAck.record (.pinWrite pin level true))
    case outputs => cases pin <;> simp [State.drive, OutputsFollow, lastLevel]
    all_goals simp [dropAck_env, sentBytes]
  · constructor
    case answers => exact ha
    all_goals simp [dropAck_env, StillDriven.refl, OutputsFollow, lastLevel, sentBytes]

theorem pinRead_pins (pin : Pin) (s : State) : Pins [.pinRead pin s.nextLevel] s (pinRead pin s) := by
  unfold pinRead
  constructor
  case answers =>
    exact ⟨by simp [okAnswers, dropLevel_env, Answered.refl], dropLevel_answered s,
      by simp [byteAnswers, dropLevel_env, Answered.refl]⟩
  all_goals simp [dropLevel_env, StillDriven.refl, OutputsFollow, lastLevel, sentBytes]

theorem delay_pins (us : Nat) (s : State) : Pins [.delay us] s (delay us s) := by
  unfold delay
  constructor
  case answers => exact .of_env rfl rfl rfl rfl
  all_goals simp [StillDriven.refl, OutputsFollow, lastLevel, sentBytes]

theorem abandon_pins (s : State) :
    ∃ ok1 ok2, Pins [.pinWrite .adcClk false ok1, .pinWrite .adcCs true ok2] s (abandon s) :=
  ⟨_, _, (pinWrite_pins .adcClk false s).trans (pinWrite_pins .adcCs Config.csInactive _)⟩

/-! ### Pin sequences with any answers -/

/-- The events of a pin sequence that samples these bits. -/
def stepEvents : List PinStep → List Bit → List Event
  | [], _ => []
  | .write pin level :: rest, ds => .pinWrite pin level true :: .delay Config.tSettleUs :: stepEvents rest ds
  | .sample :: rest, d :: ds => .pinRead .adcMiso (some d) :: stepEvents rest ds
  | .sample :: rest, [] => stepEvents rest []

/-- How many samples a pin sequence takes. -/
def stepSamples : List PinStep → Nat
  | [] => 0
  | .write _ _ :: rest => stepSamples rest
  | .sample :: rest => stepSamples rest + 1

/-- What a pin sequence comes to: all its events, with the bits sampled, or its events up to the first that failed. -/
def RunsTo (steps : List PinStep) (bits : List Bit) (es : List Event) : Option (List Bit) → Prop
  | some all => ∃ ds, ds.length = stepSamples steps ∧ all = bits ++ ds ∧ es = stepEvents steps ds
  | none => ∃ ds, ds.length = stepSamples steps ∧ FailsIn (stepEvents steps ds) es

/-- All a pin sequence can do. -/
theorem runPins_spec (steps : List PinStep) (bits : List Bit) (s : State) :
    ∃ es, Pins es s (runPins steps bits s).2 ∧ RunsTo steps bits es (runPins steps bits s).1 := by
  induction steps generalizing bits s with
  | nil => exact ⟨[], Pins.refl s, [], rfl, by simp, rfl⟩
  | cons step rest ih =>
    cases step with
    | write pin level =>
      by_cases h : s.nextAck = true
      · obtain ⟨es, hp, hr⟩ := ih bits (delay Config.tSettleUs (pinWrite pin level s))
        have hw := ((pinWrite_pins pin level s).trans (delay_pins Config.tSettleUs _)).trans hp
        rw [h] at hw
        refine ⟨_, by simpa only [runPins, h, if_true] using hw, ?_⟩
        simp only [runPins, h, if_true]
        cases hc : (runPins rest bits (delay Config.tSettleUs (pinWrite pin level s))).1 with
        | some all =>
          rw [hc] at hr
          obtain ⟨ds, h1, h2, rfl⟩ := hr
          exact ⟨ds, h1, h2, rfl⟩
        | none =>
          rw [hc] at hr
          obtain ⟨ds, h1, h2⟩ := hr
          exact ⟨ds, h1, h2.append_left [.pinWrite pin level true, .delay Config.tSettleUs]⟩
      · have h' : s.nextAck = false := by simpa using h
        refine ⟨_, by simpa only [runPins, h', if_false, Bool.false_eq_true] using pinWrite_pins pin level s, ?_⟩
        simp only [runPins, h', Bool.false_eq_true, if_false]
        exact ⟨List.replicate (stepSamples rest) false, by simp [stepSamples], [], .pinWrite pin level true, _, rfl,
          by simp [Event.failed], rfl⟩
    | sample =>
      cases h : s.nextLevel with
      | none =>
        refine ⟨_, by simpa only [runPins, h] using pinRead_pins .adcMiso s, ?_⟩
        simp only [runPins, h]
        exact ⟨List.replicate (stepSamples rest + 1) false, by simp [stepSamples], [], .pinRead .adcMiso (some false), _,
          rfl, by simp [Event.failed], rfl⟩
      | some d =>
        obtain ⟨es, hp, hr⟩ := ih (bits ++ [d]) (pinRead .adcMiso s)
        have hw := (pinRead_pins .adcMiso s).trans hp
        rw [h] at hw
        refine ⟨_, by simpa only [runPins, h] using hw, ?_⟩
        simp only [runPins, h]
        cases hc : (runPins rest (bits ++ [d]) (pinRead .adcMiso s)).1 with
        | some all =>
          rw [hc] at hr
          obtain ⟨ds, h1, h2, rfl⟩ := hr
          exact ⟨d :: ds, by simp [stepSamples, h1], by simp [h2], rfl⟩
        | none =>
          rw [hc] at hr
          obtain ⟨ds, h1, h2⟩ := hr
          exact ⟨d :: ds, by simp [stepSamples, h1], h2.append_left [.pinRead .adcMiso (some d)]⟩

/-! ### The transaction with any answers -/

/-- `t` is `s` after pin events, with the converter's command word possibly sent. -/
structure Transacts (es : List Event) (s t : State) : Prop where
  events : t.events = s.events ++ es
  init : t.adc.init = s.adc.init
  driven : StillDriven s.adc t.adc
  outputs : OutputsFollow es s.adc t.adc
  answers : AnswersTaken es s t
  sent : sentBytes es = []
  outside : SameOutsideAdc s t
  results : t.results = s.results

theorem Pins.transacts {es : List Event} {s t : State} (h : Pins es s t) : Transacts es s t :=
  ⟨h.events, h.init, h.driven, h.outputs, h.answers, h.sent,
    ⟨h.vfd, h.enc, h.kp, h.link, h.display, h.expander, h.inbox, h.issuer, h.bytes, h.rx, h.kpParams⟩, h.results⟩

theorem Transacts.trans {a b : List Event} {s t u : State} (h : Transacts a s t) (h' : Transacts b t u) :
    Transacts (a ++ b) s u := by
  obtain ⟨a1, a2, a3, a4, a5, a6, a7, a8, a9, a10, a11⟩ := h.outside
  obtain ⟨b1, b2, b3, b4, b5, b6, b7, b8, b9, b10, b11⟩ := h'.outside
  exact ⟨by rw [h'.events, h.events]; simp, h'.init.trans h.init, h.driven.trans h'.driven,
    h.outputs.trans h'.outputs, h.answers.trans h'.answers,
    by rw [sentBytes_append, h.sent, h'.sent]; rfl,
    ⟨b1.trans a1, b2.trans a2, b3.trans a3, b4.trans a4, b5.trans a5, b6.trans a6, b7.trans a7, b8.trans a8,
      b9.trans a9, b10.trans a10, b11.trans a11⟩, h'.results.trans h.results⟩

theorem sendCommand_transacts (w : BitVec 5) (s : State) : Transacts [] s (s.sendCommand w) :=
  ⟨by simp, by simp, by simp [StillDriven.refl], ⟨rfl, rfl, rfl⟩, .of_env rfl rfl rfl rfl, rfl, by simp [SameOutsideAdc], by simp⟩

theorem ten_bits {ds : List Bit} (h : ds.length = 10) : ∃ a b c d e f g i j k, ds = [a, b, c, d, e, f, g, i, j, k] :=
  match ds, h with
  | [a, b, c, d, e, f, g, i, j, k], _ => ⟨a, b, c, d, e, f, g, i, j, k, rfl⟩

/-- The events of a successful transaction are those of its two pin sequences (42_analog.md R182). -/
theorem transactionEvents_eq (ch : BitVec 3) {ds : List Bit} (h : ds.length = 10) :
    transactionEvents ch.toNat ds =
      stepEvents (commandSteps (commandWord ch)) [] ++ stepEvents resultSteps ds := by
  obtain ⟨a, b, c, d, e, f, g, i, j, k, rfl⟩ := ten_bits h
  have hc : channelCommand ch.toNat = commandBits (commandWord ch) := by revert ch; decide
  unfold transactionEvents
  rw [hc]
  rfl

theorem transactionEvents_succeeded (ch : Nat) {ds : List Bit} (h : ds.length = 10) :
    (transactionEvents ch ds).length = 88 ∧ (transactionEvents ch ds).all Event.succeeded = true := by
  obtain ⟨a, b, c, d, e, f, g, i, j, k, rfl⟩ := ten_bits h
  exact ⟨rfl, rfl⟩

/-- What a transaction comes to: its events with the bits sampled, or those up to the first that failed and ABANDON's two
writes. -/
def TransactionEnds (ch : BitVec 3) (es : List Event) : Option (BitVec 10) → Prop
  | some raw => ∃ ds, ds.length = 10 ∧ raw = assemble ds ∧ es = transactionEvents ch.toNat ds
  | none =>
    ∃ ds stopped ok1 ok2, ds.length = 10 ∧ FailsIn (transactionEvents ch.toNat ds) stopped ∧
      es = stopped ++ [.pinWrite .adcClk false ok1, .pinWrite .adcCs true ok2]

theorem commandSteps_samples (w : BitVec 5) : stepSamples (commandSteps w) = 0 := rfl

/-- All a transaction can do (42_analog.md R182, R183). -/
theorem adcTransaction_spec (ch : BitVec 3) (s : State) :
    ∃ es, Transacts es s (adcTransaction ch s).2 ∧ TransactionEnds ch es (adcTransaction ch s).1 := by
  obtain ⟨es1, hp1, hr1⟩ := runPins_spec (commandSteps (commandWord ch)) [] s
  unfold adcTransaction
  rcases hc : runPins (commandSteps (commandWord ch)) [] s with ⟨_ | all, s1⟩
  · rw [hc] at hp1 hr1
    obtain ⟨ds, h1, h2⟩ := hr1
    obtain rfl := List.eq_nil_of_length_eq_zero h1
    obtain ⟨ok1, ok2, ha⟩ := abandon_pins s1
    refine ⟨_, (hp1.trans ha).transacts, List.replicate 10 false, es1, ok1, ok2, rfl, ?_, rfl⟩
    rw [transactionEvents_eq ch rfl]
    exact h2.append_right _
  · rw [hc] at hp1 hr1
    obtain ⟨es2, hp2, hr2⟩ := runPins_spec resultSteps [] (s1.sendCommand (commandWord ch))
    have h12 := (hp1.transacts.trans (sendCommand_transacts (commandWord ch) s1))
    obtain ⟨ds, h1, -, rfl⟩ := hr1
    obtain rfl := List.eq_nil_of_length_eq_zero h1
    rw [List.append_nil] at h12
    dsimp only
    rcases hc2 : runPins resultSteps [] (s1.sendCommand (commandWord ch)) with ⟨_ | all2, s2⟩
    · rw [hc2] at hp2 hr2
      obtain ⟨ds, h3, h4⟩ := hr2
      obtain ⟨ok1, ok2, ha⟩ := abandon_pins s2
      refine ⟨_, h12.trans (hp2.trans ha).transacts, ds, _ ++ es2, ok1, ok2, h3, ?_, (List.append_assoc ..).symm⟩
      rw [transactionEvents_eq ch h3]
      exact h4.append_left _
    · rw [hc2] at hp2 hr2
      obtain ⟨ds, h3, h4, rfl⟩ := hr2
      exact ⟨_, h12.trans hp2.transacts, ds, h3, by simp [h4], (transactionEvents_eq ch h3).symm⟩

/-! ### Pin sequences with the answers written in the state -/

/-- The outputs after a pin sequence. -/
def stepOutputs : List PinStep → Adc → Adc
  | [], a => a
  | .write .adcCs level :: rest, a => stepOutputs rest { a with csOut := some level }
  | .write .adcClk level :: rest, a => stepOutputs rest { a with clkOut := some level }
  | .write .adcMosi level :: rest, a => stepOutputs rest { a with mosiOut := some level }
  | .write _ _ :: rest, a => stepOutputs rest a
  | .sample :: rest, a => stepOutputs rest a

/-- How many writes a pin sequence makes. -/
def stepWrites : List PinStep → Nat
  | [] => 0
  | .write _ _ :: rest => stepWrites rest + 1
  | .sample :: rest => stepWrites rest

/-- The exact outcome of a pin sequence whose every primitive the state's answers let succeed. -/
theorem runPins_answered (steps : List PinStep) (bits ds : List Bit) (acks : List Bool)
    (levels : List (Option Bit)) (s : State) (hd : ds.length = stepSamples steps)
    (ha : s.env.acks = List.replicate (stepWrites steps) true ++ acks)
    (hl : s.env.levels = ds.map some ++ levels) :
    runPins steps bits s =
      (some (bits ++ ds),
       { s with
         adc := stepOutputs steps s.adc
         env := { s.env with acks := acks, levels := levels }
         events := s.events ++ stepEvents steps ds }) := by
  induction steps generalizing bits ds s with
  | nil =>
    have : ds = [] := List.eq_nil_of_length_eq_zero hd
    subst this
    simp only [stepWrites, List.replicate_zero, List.nil_append, List.map_nil] at ha hl
    simp [runPins, stepOutputs, stepEvents, ← ha, ← hl]
  | cons step rest ih =>
    cases step with
    | write pin level =>
      have hn : s.nextAck = true := by simp [State.nextAck, ha, stepWrites, List.replicate_succ]
      have hdrop : s.dropAck = { s with env := { s.env with acks := List.replicate (stepWrites rest) true ++ acks } } := by
        simp [State.dropAck, ha, stepWrites, List.replicate_succ]
      simp only [runPins, hn, if_true, pinWrite, hdrop]
      rw [ih bits ds _ hd]
      · cases pin <;> simp [State.record, State.drive, delay, stepOutputs, stepEvents]
      · cases pin <;> rfl
      · cases pin <;> exact hl
    | sample =>
      cases ds with
      | nil => simp [stepSamples] at hd
      | cons d ds =>
        have hn : s.nextLevel = some d := by simp [State.nextLevel, hl]
        have hdrop : s.dropLevel = { s with env := { s.env with levels := ds.map some ++ levels } } := by
          simp [State.dropLevel, hl]
        simp only [runPins, hn, pinRead, hdrop]
        rw [ih (bits ++ [d]) ds _ (by simpa [stepSamples] using hd)]
        · simp [State.record, stepOutputs, stepEvents]
        · exact ha
        · rfl

/-- What a read of a channel leaves alone, and what it can come to, on an initialized unit with a valid channel. -/
theorem readChannel_of_ready (ch : Int) (s : State) (hv : validChannel ch = true) (hi : s.adc.init = true) :
    readChannel ch s =
      (transactionResult (adcTransaction (channelBits ch) s).1, (adcTransaction (channelBits ch) s).2) := by
  simp [readChannel, hv, hi]

/-- All a read of a channel can do to the state: nothing, or a transaction. -/
theorem readChannel_transacts (ch : Int) (s : State) : ∃ es, Transacts es s (readChannel ch s).2 := by
  unfold readChannel
  split
  · exact ⟨[], (Pins.refl s).transacts⟩
  · split
    · exact ⟨[], (Pins.refl s).transacts⟩
    · obtain ⟨es, h, -⟩ := adcTransaction_spec (channelBits ch) s
      exact ⟨es, h⟩

/-! ### ADC_INIT -/

/-- All the PinModes can do. -/
theorem configurePins_spec (pins : List (Pin × Dir)) (s : State) :
    ∃ es, Pins es s (configurePins pins s).2 ∧ (configurePins pins s).2.env.levels = s.env.levels ∧
      (configurePins pins s).2.adc = s.adc ∧
      if (configurePins pins s).1 then es = pins.map fun p => .pinMode p.1 p.2 true
      else FailsIn (pins.map fun p => .pinMode p.1 p.2 true) es := by
  induction pins generalizing s with
  | nil => exact ⟨[], Pins.refl s, rfl, rfl, by simp [configurePins]⟩
  | cons p rest ih =>
    obtain ⟨pin, dir⟩ := p
    have h1 := pinMode_pins pin dir s
    have hl : (pinMode pin dir s).env.levels = s.env.levels := by simp [pinMode, dropAck_env]
    have had : (pinMode pin dir s).adc = s.adc := by simp [pinMode]
    by_cases h : s.nextAck = true
    · obtain ⟨es, hp, hl', had', hr⟩ := ih (pinMode pin dir s)
      rw [h] at h1
      refine ⟨_, by simpa only [configurePins, h, if_true] using h1.trans hp, ?_⟩
      simp only [configurePins, h, if_true]
      refine ⟨hl'.trans hl, had'.trans had, ?_⟩
      split at hr
      · rename_i hc; simp only [hc, if_true]; rw [hr]; rfl
      · rename_i hc; simp only [hc]; exact hr.append_left [.pinMode pin dir true]
    · have h' : s.nextAck = false := by simpa using h
      rw [h'] at h1
      refine ⟨_, by simpa only [configurePins, h', Bool.false_eq_true, if_false] using h1, ?_⟩
      simp only [configurePins, h', Bool.false_eq_true, if_false]
      exact ⟨hl, had, [], .pinMode pin dir true, _, rfl, rfl, rfl⟩

/-- All the idle PinWrites can do. -/
theorem driveIdle_spec (pins : List (Pin × Bit)) (s : State) :
    ∃ es, Pins es s (driveIdle pins s).2 ∧ (driveIdle pins s).2.env.levels = s.env.levels ∧
      if (driveIdle pins s).1 then es = pins.map fun p => .pinWrite p.1 p.2 true
      else FailsIn (pins.map fun p => .pinWrite p.1 p.2 true) es := by
  induction pins generalizing s with
  | nil => exact ⟨[], Pins.refl s, rfl, by simp [driveIdle]⟩
  | cons p rest ih =>
    obtain ⟨pin, level⟩ := p
    have h1 := pinWrite_pins pin level s
    have hl : (pinWrite pin level s).env.levels = s.env.levels := by rw [pinWrite_env]; exact (dropAck_env s).1
    by_cases h : s.nextAck = true
    · obtain ⟨es, hp, hl', hr⟩ := ih (pinWrite pin level s)
      rw [h] at h1
      refine ⟨_, by simpa only [driveIdle, h, if_true] using h1.trans hp, ?_⟩
      simp only [driveIdle, h, if_true]
      refine ⟨hl'.trans hl, ?_⟩
      split at hr
      · rename_i hc; simp only [hc, if_true]; rw [hr]; rfl
      · rename_i hc; simp only [hc]; exact hr.append_left [.pinWrite pin level true]
    · have h' : s.nextAck = false := by simpa using h
      rw [h'] at h1
      refine ⟨_, by simpa only [driveIdle, h', Bool.false_eq_true, if_false] using h1, ?_⟩
      simp only [driveIdle, h', Bool.false_eq_true, if_false]
      exact ⟨hl, [], .pinWrite pin level true, _, rfl, rfl, rfl⟩

/-- A PinWrite that succeeds sets the block's record of that output and no other. -/
theorem pinWrite_adc (pin : Pin) (level : Bit) (s : State) (h : s.nextAck = true) :
    (pinWrite pin level s).adc = (s.drive pin level).adc := by
  simp only [pinWrite, h, if_true]
  cases pin <;> simp [State.drive]

/-- Once every idle PinWrite has succeeded the three outputs are at their idle levels. -/
theorem driveIdle_adc (s : State) (h : (driveIdle adcIdleLevels s).1 = true) :
    (driveIdle adcIdleLevels s).2.adc =
      { s.adc with csOut := some Config.csInactive, clkOut := some false, mosiOut := some false } := by
  simp only [adcIdleLevels, driveIdle] at h ⊢
  by_cases h1 : s.nextAck = true
  · simp only [h1, if_true] at h ⊢
    by_cases h2 : (pinWrite .adcCs Config.csInactive s).nextAck = true
    · simp only [h2, if_true] at h ⊢
      by_cases h3 : (pinWrite .adcClk false (pinWrite .adcCs Config.csInactive s)).nextAck = true
      · simp only [h3, if_true]
        rw [pinWrite_adc _ _ _ h3]
        simp only [State.drive]
        rw [pinWrite_adc _ _ _ h2]
        simp only [State.drive]
        rw [pinWrite_adc _ _ _ h1]
        rfl
      · simp [h3] at h
    · simp [h2] at h
  · simp [h1] at h

end Sys2Proof.Machine
end

