-- ==== Sys2Proof/Laws/Display.lean ====
section
/-! SUPPORT. What the display's side can do: one lemma per primitive, wire command and renderer procedure. The central
ones are `newline_spec`, `putc_spec` and `writeBody_spec`: the bytes sent and the cursor left are functions of the
cursor and the text alone, and everything outside the display is kept. -/

namespace Sys2Proof.Machine

/-! ### Transmission without an effect on the cursor -/

/-- `t` is `s` after some bytes were sent: only the history, the line, the display and the draw counter moved. -/
structure Sends (sent : List Byte) (s t : State) : Prop where
  events : t.events = s.events ++ sent.map .serialTx
  link : t.link.tx = s.link.tx ++ sent.map serialFrame
  vfd : t.vfd = s.vfd
  adc : t.adc = s.adc
  enc : t.enc = s.enc
  kp : t.kp = s.kp
  converter : t.converter = s.converter
  expander : t.expander = s.expander
  kpParams : t.kpParams = s.kpParams
  acks : t.env.acks = s.env.acks
  levels : t.env.levels = s.env.levels
  bytes : t.env.bytes = s.env.bytes
  rx : t.env.rx = s.env.rx
  inbox : t.inbox = s.inbox
  issuer : t.issuer = s.issuer
  results : t.results = s.results

/-- `emit` records one event a byte and puts each byte's frame on the line; nothing else moves. -/
theorem emit_eq (bytes : List Byte) (s : State) :
    emit bytes s = { s with
      events := s.events ++ bytes.map .serialTx, link := { tx := s.link.tx ++ bytes.map serialFrame } } := by
  induction bytes generalizing s with
  | nil => simp [emit]
  | cons b bs ih => rw [emit, ih]; simp [serialTx]

theorem emit_append (a b : List Byte) (s : State) : emit (a ++ b) s = emit b (emit a s) := by
  simp [emit_eq]

theorem sends_of_emit {bytes : List Byte} {s t : State} {d : Display} {n : Nat}
    (h : t = { emit bytes s with display := d, env := { s.env with draws := n } }) : Sends bytes s t := by
  subst h; rw [emit_eq]; constructor <;> rfl

/-- The reference display's state after a step, with the draw counter: all a display response can change. -/
theorem displayUnspecified_eq (s : State) :
    displayUnspecified s =
      { s with display := Display.unspecified s.env.draws, env := { s.env with draws := s.env.draws + 1 } } := rfl

theorem displaySetRow_cases (rr : Char7) (s : State) :
    ∃ d n, displaySetRow rr s = { s with display := d, env := { s.env with draws := n } } := by
  unfold displaySetRow; split
  · exact ⟨_, s.env.draws, rfl⟩
  · exact ⟨_, _, rfl⟩

theorem displaySetCol_cases (cc : Char7) (s : State) :
    ∃ d n, displaySetCol cc s = { s with display := d, env := { s.env with draws := n } } := by
  unfold displaySetCol; split
  · exact ⟨_, s.env.draws, rfl⟩
  · exact ⟨_, _, rfl⟩

theorem displayCharacter_cases (x : Char7) (s : State) :
    ∃ d n, displayCharacter x s = { s with display := d, env := { s.env with draws := n } } := by
  unfold displayCharacter; split
  · exact ⟨_, s.env.draws, rfl⟩
  · exact ⟨_, _, rfl⟩

theorem displayNewline_cases (s : State) :
    ∃ d n, displayNewline s = { s with display := d, env := { s.env with draws := n } } := by
  unfold displayNewline; split
  · split
    · exact ⟨_, s.env.draws, rfl⟩
    · exact ⟨_, s.env.draws, rfl⟩
  · exact ⟨_, _, rfl⟩

theorem Sends.refl (s : State) : Sends [] s s := by constructor <;> simp

theorem Sends.trans {a b : List Byte} {s t u : State} (h : Sends a s t) (h' : Sends b t u) : Sends (a ++ b) s u where
  events := by rw [h'.events, h.events]; simp
  link := by rw [h'.link, h.link]; simp
  vfd := h'.vfd.trans h.vfd
  adc := h'.adc.trans h.adc
  enc := h'.enc.trans h.enc
  kp := h'.kp.trans h.kp
  converter := h'.converter.trans h.converter
  expander := h'.expander.trans h.expander
  kpParams := h'.kpParams.trans h.kpParams
  acks := h'.acks.trans h.acks
  levels := h'.levels.trans h.levels
  bytes := h'.bytes.trans h.bytes
  rx := h'.rx.trans h.rx
  inbox := h'.inbox.trans h.inbox
  issuer := h'.issuer.trans h.issuer
  results := h'.results.trans h.results

theorem emit_sends (bytes : List Byte) (s : State) : Sends bytes s (emit bytes s) := by
  rw [emit_eq]; constructor <;> rfl

theorem sends_of_response {bytes : List Byte} {s t : State} {f : State → State}
    (hf : ∀ u : State, ∃ d n, f u = { u with display := d, env := { u.env with draws := n } })
    (h : Sends bytes s t) : Sends bytes s (f t) := by
  obtain ⟨d, n, e⟩ := hf t
  rw [e]
  exact ⟨h.events, h.link, h.vfd, h.adc, h.enc, h.kp, h.converter, h.expander, h.kpParams, h.acks, h.levels, h.bytes, h.rx,
    h.inbox, h.issuer, h.results⟩

theorem sendSetRow_sends (rr : Char7) (s : State) :
    Sends [0x19#8, 0x11#8, offWire rr] s (sendSetRow rr s) :=
  sends_of_response (f := displaySetRow rr) (displaySetRow_cases rr) (emit_sends _ s)

theorem sendSetCol_sends (cc : Char7) (s : State) :
    Sends [0x19#8, 0x13#8, offWire cc] s (sendSetCol cc s) :=
  sends_of_response (f := displaySetCol cc) (displaySetCol_cases cc) (emit_sends _ s)

theorem sendNewline_sends (s : State) : Sends Config.scrollSeq s (sendNewline s) :=
  sends_of_response (f := displayNewline) displayNewline_cases (emit_sends _ s)

theorem sendCharacter_sends (b : Byte) (s : State) : Sends [b] s (sendCharacter b s) :=
  sends_of_response (f := displayCharacter (onWire b)) (displayCharacter_cases (onWire b)) (emit_sends [b] s)

/-- The bytes of the two-part positioning command (41_display.md R136). -/
def positionBytes (row col : Nat) : List Byte :=
  [0x19#8, 0x11#8, offWire (oneBased row), 0x19#8, 0x13#8, offWire (oneBased col)]

theorem sendPosition_sends (row col : Nat) (s : State) :
    Sends (positionBytes row col) s (sendPosition row col s) :=
  (sendSetRow_sends (oneBased row) s).trans (sendSetCol_sends (oneBased col) _)

theorem sendBlinkStart_sends (s : State) : Sends [0x0B#8] s (sendBlinkStart s) :=
  sends_of_response (f := displayBlink true) (fun u => ⟨_, u.env.draws, rfl⟩) (emit_sends _ s)

theorem sendBlinkEnd_sends (s : State) : Sends [0x0C#8] s (sendBlinkEnd s) :=
  sends_of_response (f := displayBlink false) (fun u => ⟨_, u.env.draws, rfl⟩) (emit_sends _ s)

theorem sendScrollEnable_sends (s : State) : Sends Config.openInitSeq s (sendScrollEnable s) :=
  sends_of_response (f := displayScrollEnable) (fun u => ⟨_, u.env.draws, rfl⟩) (emit_sends _ s)

theorem sendContentQuery_sends (s : State) : Sends [0x04#8, 0x00#8] s (sendContentQuery s) :=
  sends_of_response (f := displayUnspecified) (fun _ => ⟨_, _, rfl⟩) (emit_sends _ s)

theorem offWire_onWire_of_lt (b : Byte) (h : b.toNat < 128) : offWire (onWire b) = b := by
  apply BitVec.eq_of_toNat_eq; simp [offWire, onWire]; omega

theorem onWire_offWire (x : Char7) : onWire (offWire x) = x := by
  apply BitVec.eq_of_toNat_eq; simp [offWire, onWire]

/-- The parameter byte of a row or column below 127 is that number plus one. -/
theorem offWire_oneBased (n : Nat) (h : n < 127) : offWire (oneBased n) = BitVec.ofNat 8 (n + 1) := by
  apply BitVec.eq_of_toNat_eq; simp [offWire, oneBased]; omega

/-! ### The renderer -/

/-- The cursor after a newline. -/
def cursorNewline (p : Nat × Nat) : Nat × Nat := (if p.1 < Config.rows - 1 then p.1 + 1 else p.1, 0)

/-- The bytes of a newline. -/
def newlineBytes (p : Nat × Nat) : List Byte :=
  if p.1 < Config.rows - 1 then positionBytes (p.1 + 1) 0 else Config.scrollSeq

/-- The cursor after one text byte. -/
def cursorByte (b : Byte) (p : Nat × Nat) : Nat × Nat :=
  if isNewline b then cursorNewline p
  else if p.2 + 1 = Config.cols then cursorNewline (p.1, p.2 + 1) else (p.1, p.2 + 1)

/-- The bytes one text byte sends. -/
def bytesOfByte (b : Byte) (p : Nat × Nat) : List Byte :=
  if isNewline b then newlineBytes p
  else if p.2 + 1 = Config.cols then b :: newlineBytes (p.1, p.2 + 1) else [b]

/-- The cursor after a text. -/
def cursorText : List Byte → Nat × Nat → Nat × Nat
  | [], p => p
  | b :: text, p => cursorText text (cursorByte b p)

/-- The bytes a text sends. -/
def bytesOfText : List Byte → Nat × Nat → List Byte
  | [], _ => []
  | b :: text, p => bytesOfByte b p ++ bytesOfText text (cursorByte b p)

/-- The renderer's cursor, as a pair. -/
def State.cursor (s : State) : Nat × Nat := (s.vfd.cursorRow, s.vfd.cursorCol)

/-- `t` is `s` after the renderer sent some bytes and left its cursor at `p`; everything outside the display is
kept. -/
structure Renders (sent : List Byte) (p : Nat × Nat) (s t : State) : Prop where
  events : t.events = s.events ++ sent.map .serialTx
  link : t.link.tx = s.link.tx ++ sent.map serialFrame
  vfd : t.vfd = { s.vfd with cursorRow := p.1, cursorCol := p.2 }
  adc : t.adc = s.adc
  enc : t.enc = s.enc
  kp : t.kp = s.kp
  converter : t.converter = s.converter
  expander : t.expander = s.expander
  kpParams : t.kpParams = s.kpParams
  acks : t.env.acks = s.env.acks
  levels : t.env.levels = s.env.levels
  bytes : t.env.bytes = s.env.bytes
  rx : t.env.rx = s.env.rx
  inbox : t.inbox = s.inbox
  issuer : t.issuer = s.issuer
  results : t.results = s.results

theorem Renders.refl (s : State) : Renders [] s.cursor s s := by constructor <;> simp [State.cursor]

theorem Renders.trans {a b : List Byte} {p q : Nat × Nat} {s t u : State} (h : Renders a p s t)
    (h' : Renders b q t u) : Renders (a ++ b) q s u where
  events := by rw [h'.events, h.events]; simp
  link := by rw [h'.link, h.link]; simp
  vfd := by rw [h'.vfd, h.vfd]
  adc := h'.adc.trans h.adc
  enc := h'.enc.trans h.enc
  kp := h'.kp.trans h.kp
  converter := h'.converter.trans h.converter
  expander := h'.expander.trans h.expander
  kpParams := h'.kpParams.trans h.kpParams
  acks := h'.acks.trans h.acks
  levels := h'.levels.trans h.levels
  bytes := h'.bytes.trans h.bytes
  rx := h'.rx.trans h.rx
  inbox := h'.inbox.trans h.inbox
  issuer := h'.issuer.trans h.issuer
  results := h'.results.trans h.results

theorem Sends.renders {a : List Byte} {s t : State} (h : Sends a s t) : Renders a s.cursor s t :=
  ⟨h.events, h.link, h.vfd, h.adc, h.enc, h.kp, h.converter, h.expander, h.kpParams, h.acks, h.levels, h.bytes, h.rx, h.inbox,
    h.issuer, h.results⟩

theorem moveCursor_renders (r c : Nat) (s : State) : Renders [] (r, c) s (s.moveCursor r c) := by
  constructor <;> simp

theorem Renders.cursor_eq {a : List Byte} {p : Nat × Nat} {s t : State} (h : Renders a p s t) : t.cursor = p := by
  simp [State.cursor, h.vfd]

theorem newline_spec (s : State) : Renders (newlineBytes s.cursor) (cursorNewline s.cursor) s (newline s) := by
  unfold newline newlineBytes cursorNewline
  by_cases hr : s.vfd.cursorRow < Config.rows - 1 <;> simp only [State.cursor, hr, if_true, if_false]
  · have h := (moveCursor_renders (s.vfd.cursorRow + 1) 0 s).trans
      (sendPosition_sends (s.vfd.cursorRow + 1) 0 (s.moveCursor (s.vfd.cursorRow + 1) 0)).renders
    simpa [State.cursor] using h
  · have h := (moveCursor_renders s.vfd.cursorRow 0 s).trans (sendNewline_sends (s.moveCursor s.vfd.cursorRow 0)).renders
    simpa [State.cursor] using h

theorem sendCharacter_advance (b : Byte) (s : State) :
    Renders [b] (s.vfd.cursorRow, s.vfd.cursorCol + 1) s ((sendCharacter b s).advance) := by
  have h := (sendCharacter_sends b s)
  have h' := h.renders.trans
    (moveCursor_renders (sendCharacter b s).vfd.cursorRow ((sendCharacter b s).vfd.cursorCol + 1) (sendCharacter b s))
  simpa [State.advance, h.vfd] using h'

theorem writeByte_spec (b : Byte) (s : State) :
    Renders (bytesOfByte b s.cursor) (cursorByte b s.cursor) s (writeByte b s) := by
  unfold writeByte bytesOfByte cursorByte
  split
  · exact newline_spec s
  · have h := sendCharacter_advance b s
    have hc : ((sendCharacter b s).advance).vfd.cursorCol = s.vfd.cursorCol + 1 := by rw [h.vfd]
    unfold putc
    by_cases hw : s.vfd.cursorCol + 1 = Config.cols <;> simp only [hc, State.cursor, hw, if_true, if_false]
    · have h' := h.trans (newline_spec _)
      rw [h.cursor_eq] at h'
      exact h'
    · exact h

/-- WRITE_BODY(text): the bytes sent and the cursor left, from the cursor and the text alone; all else outside the
display is kept. -/
theorem writeBody_spec (text : List Byte) (s : State) :
    Renders (bytesOfText text s.cursor) (cursorText text s.cursor) s (writeBody text s) := by
  induction text generalizing s with
  | nil => exact Renders.refl s
  | cons b text ih =>
    have h := (writeByte_spec b s)
    have h' := h.trans (ih (writeByte b s))
    rw [h.cursor_eq] at h'
    exact h'

theorem writeBody_append (a b : List Byte) (s : State) : writeBody (a ++ b) s = writeBody b (writeBody a s) := by
  induction a generalizing s with
  | nil => rfl
  | cons x a ih => exact ih _

/-! ### The cursor stays in the grid -/

theorem cursorNewline_in_grid (p : Nat × Nat) (h : p.1 < 6) :
    (cursorNewline p).1 < 6 ∧ (cursorNewline p).2 < 40 := by
  unfold cursorNewline Config.rows; constructor
  · dsimp only; split <;> omega
  · simp

theorem cursorByte_in_grid (b : Byte) (p : Nat × Nat) (h : p.1 < 6 ∧ p.2 < 40) :
    (cursorByte b p).1 < 6 ∧ (cursorByte b p).2 < 40 := by
  unfold cursorByte
  split
  · exact cursorNewline_in_grid p h.1
  · split
    · exact cursorNewline_in_grid _ h.1
    · rename_i hne; refine ⟨h.1, ?_⟩; simp only [Config.cols] at hne ⊢; omega

theorem cursorText_in_grid (text : List Byte) (p : Nat × Nat) (h : p.1 < 6 ∧ p.2 < 40) :
    (cursorText text p).1 < 6 ∧ (cursorText text p).2 < 40 := by
  induction text generalizing p with
  | nil => exact h
  | cons b text ih => exact ih _ (cursorByte_in_grid b p h)

/-! ### The display keeps its shape -/

theorem Display.unspecified_wf (n : Nat) : (Display.unspecified n).wf := by
  refine ⟨by simp [Display.unspecified, Config.rows], ?_, Nat.mod_lt _ (by decide), ?_⟩
  · intro line h
    simp only [Display.unspecified, List.mem_map] at h
    obtain ⟨r, -, rfl⟩ := h
    simp [Config.cols]
  · exact Nat.le_of_lt_succ (Nat.mod_lt _ (by decide))

theorem displayClear_wf (s : State) (h : s.display.wf) : (displayClear s).display.wf := by
  refine ⟨by simp [displayClear, Config.rows], ?_, h.2.2.1, h.2.2.2⟩
  intro line hl
  simp only [displayClear, List.mem_replicate] at hl
  rw [hl.2]; simp [blankRow, Config.cols]

theorem displayHome_wf (s : State) (h : s.display.wf) : (displayHome s).display.wf :=
  ⟨h.1, h.2.1, by simp [displayHome], by simp [displayHome]⟩

theorem displaySetRow_wf (rr : Char7) (s : State) (h : s.display.wf) : (displaySetRow rr s).display.wf := by
  unfold displaySetRow; split
  · rename_i hr; refine ⟨h.1, h.2.1, ?_, h.2.2.2⟩; simp only [Config.rows] at hr ⊢; omega
  · exact Display.unspecified_wf _

theorem displaySetCol_wf (cc : Char7) (s : State) (h : s.display.wf) : (displaySetCol cc s).display.wf := by
  unfold displaySetCol; split
  · rename_i hr; refine ⟨h.1, h.2.1, h.2.2.1, ?_⟩; simp only [Config.cols] at hr ⊢; omega
  · exact Display.unspecified_wf _

theorem displayCharacter_wf (x : Char7) (s : State) (h : s.display.wf) : (displayCharacter x s).display.wf := by
  unfold displayCharacter; split
  · rename_i hr
    refine ⟨by simpa using h.1, ?_, h.2.2.1, ?_⟩
    · intro line hl
      simp only at hl
      obtain ⟨k, hk, rfl⟩ := List.mem_iff_getElem.mp hl
      rw [List.getElem_modify]
      split
      · rw [List.length_set]; exact h.2.1 _ (List.getElem_mem _)
      · exact h.2.1 _ (List.getElem_mem _)
    · have := hr.2; simp only [Config.cols] at this ⊢; omega
  · exact Display.unspecified_wf _

theorem displayNewline_wf (s : State) (h : s.display.wf) : (displayNewline s).display.wf := by
  unfold displayNewline; split
  · split
    · rename_i hr; refine ⟨h.1, h.2.1, ?_, by simp⟩; simp only [Config.rows] at hr ⊢; omega
    · refine ⟨by simp [h.1], ?_, h.2.2.1, by simp⟩
      intro line hl
      rcases List.mem_append.mp hl with hl | hl
      · exact h.2.1 _ (List.mem_of_mem_drop hl)
      · rw [List.mem_singleton.mp hl]; simp [blankRow, Config.cols]
  · exact Display.unspecified_wf _

@[simp] theorem emit_display (bytes : List Byte) (s : State) : (emit bytes s).display = s.display := by rw [emit_eq]

theorem sendPosition_wf (r c : Nat) (s : State) (h : s.display.wf) : (sendPosition r c s).display.wf :=
  displaySetCol_wf _ _ (by rw [emit_display]; exact displaySetRow_wf _ _ (by rw [emit_display]; exact h))

theorem newline_wf (s : State) (h : s.display.wf) : (newline s).display.wf := by
  unfold newline; split
  · exact sendPosition_wf _ _ _ h
  · exact displayNewline_wf _ (by rw [emit_display]; exact h)

theorem writeByte_wf (b : Byte) (s : State) (h : s.display.wf) : (writeByte b s).display.wf := by
  have hc : ((sendCharacter b s).advance).display.wf :=
    displayCharacter_wf (onWire b) (serialTx b s) h
  unfold writeByte putc
  split
  · exact newline_wf s h
  · dsimp only; split
    · exact newline_wf _ hc
    · exact hc

theorem writeBody_wf (text : List Byte) (s : State) (h : s.display.wf) : (writeBody text s).display.wf := by
  induction text generalizing s with
  | nil => exact h
  | cons b text ih => exact ih _ (writeByte_wf b s h)

end Sys2Proof.Machine
end

