-- ==== Sys2Proof/Laws/Keypad.lean ====
section
/-! SUPPORT. What the keypad scanner's side can do: one lemma per bus primitive; `scanRows_spec` says all a pass can do
with any answers, and `scanRows_misses` and `scanRows_hit` give its exact course where the answers are written in the
state. -/

namespace Sys2Proof.Machine

/-- `t` is `s` after the bus events `es`: the expander and the answers may have moved, nothing else. -/
structure Scans (es : List Event) (s t : State) : Prop where
  events : t.events = s.events ++ es
  answers : AnswersTaken es s t
  sent : sentBytes es = []
  outside : SameOutsideKeypad s t
  results : t.results = s.results

theorem Scans.refl (s : State) : Scans [] s s := 
  ⟨by simp, .of_env rfl rfl rfl rfl, rfl, by simp [SameOutsideKeypad], rfl⟩

theorem Scans.trans {a b : List Event} {s t u : State} (h : Scans a s t) (h' : Scans b t u) : Scans (a ++ b) s u := by
  obtain ⟨a1, a2, a3, a4, a5, a6, a7, a8, a9, a10, a11⟩ := h.outside
  obtain ⟨b1, b2, b3, b4, b5, b6, b7, b8, b9, b10, b11⟩ := h'.outside
  exact ⟨by rw [h'.events, h.events]; simp, h.answers.trans h'.answers, by rw [sentBytes_append, h.sent, h'.sent]; rfl,
    ⟨b1.trans a1, b2.trans a2, b3.trans a3, b4.trans a4, b5.trans a5, b6.trans a6, b7.trans a7, b8.trans a8,
      b9.trans a9, b10.trans a10, b11.trans a11⟩, h'.results.trans h.results⟩

/-! ### The primitives -/

theorem busWrite_env (addr : BitVec 7) (b : Byte) (s : State) : (busWrite addr b s).env = s.dropAck.env := by
  unfold busWrite; split <;> simp

theorem busWrite_answers (addr : BitVec 7) (b : Byte) (s : State) :
    AnswersTaken [.busWrite addr b s.nextAck] s (busWrite addr b s) := by
  unfold AnswersTaken
  rw [busWrite_env]
  exact ⟨dropAck_answered s, by simp [levelAnswers, dropAck_env, Answered.refl],
    by simp [byteAnswers, dropAck_env, Answered.refl]⟩

theorem busWrite_scans (addr : BitVec 7) (b : Byte) (s : State) :
    Scans [.busWrite addr b s.nextAck] s (busWrite addr b s) := by
  have ha := busWrite_answers addr b s
  unfold busWrite at ha ⊢
  by_cases h : s.nextAck = true <;> simp only [h, if_true] at ha ⊢
  · constructor
    case answers => exact ha
    all_goals simp [dropAck_env, sentBytes, SameOutsideKeypad]
  · constructor
    case answers => exact ha
    all_goals simp [dropAck_env, sentBytes, SameOutsideKeypad]

@[simp] theorem busWrite_kp (addr : BitVec 7) (b : Byte) (s : State) : (busWrite addr b s).kp = s.kp := by
  unfold busWrite; split <;> simp

theorem busRead_scans (addr : BitVec 7) (s : State) : Scans [.busRead addr s.nextByte] s (busRead addr s) := by
  unfold busRead
  constructor
  case answers =>
    exact ⟨by simp [okAnswers, dropByte_env, Answered.refl], by simp [levelAnswers, dropByte_env, Answered.refl],
      dropByte_answered s⟩
  all_goals simp [dropByte_env, sentBytes, SameOutsideKeypad]

@[simp] theorem busRead_kp (addr : BitVec 7) (s : State) : (busRead addr s).kp = s.kp := by simp [busRead]

theorem delay_scans (us : Nat) (s : State) : Scans [.delay us] s (delay us s) := by
  constructor
  case answers => exact .of_env rfl rfl rfl rfl
  all_goals simp [delay, sentBytes, SameOutsideKeypad]

@[simp] theorem delay_kp (us : Nat) (s : State) : (delay us s).kp = s.kp := rfl

theorem logEvent_scans (kind : LogKind) (s : State) : Scans [.log kind] s (logEvent kind s) := by
  constructor
  case answers => exact .of_env rfl rfl rfl rfl
  all_goals simp [logEvent, sentBytes, SameOutsideKeypad]

@[simp] theorem logEvent_kp (kind : LogKind) (s : State) : (logEvent kind s).kp = s.kp := rfl

/-- What recording a key does to the unit's two fields. -/
def Kp.note (k : Byte) (kp : Kp) : Kp := if isNewKey kp.lastKey k then { lastKey := some k, keyPressed := true } else kp

theorem noteKey_scans (k : Byte) (s : State) : Scans [] s (s.noteKey k) := by
  unfold State.noteKey
  split
  · exact ⟨by simp, .of_env rfl rfl rfl rfl, rfl, by simp [SameOutsideKeypad], rfl⟩
  · exact Scans.refl s

@[simp] theorem noteKey_kp (k : Byte) (s : State) : (s.noteKey k).kp = s.kp.note k := by
  unfold State.noteKey Kp.note; split <;> rfl

theorem Kp.note_eq (k : Byte) (kp : Kp) :
    kp.note k = if kp.lastKey = some k then kp else { lastKey := some k, keyPressed := true } := by
  by_cases h : kp.lastKey = some k <;> simp [Kp.note, isNewKey, h]

theorem keyOf_mem {p : KpParams} {column k : Byte} (h : keyOf p column = some k) : k ∈ p.keymap.map Prod.snd := by
  unfold keyOf at h
  generalize p.keymap = l at h ⊢
  induction l with
  | nil => simp at h
  | cons p l ih =>
    obtain ⟨a, b⟩ := p
    rw [List.lookup_cons] at h
    split at h
    · simp at h; simp [h]
    · exact List.mem_cons_of_mem _ (ih h)

/-! ### The rows with any answers -/

/-- The events of these rows, with these outcomes. -/
def rowsTrace (p : KpParams) (rows : List (Byte × Nat)) (outcomes : List RowOutcome) : List Event :=
  (rows.zip outcomes).flatMap fun x => rowTrace p x.1.1 x.1.2 x.2

/-- The latch after these rows, with these outcomes. -/
def rowsLatch (rows : List (Byte × Nat)) (outcomes : List RowOutcome) (latch : Byte) : Byte :=
  (rows.zip outcomes).foldl (fun l x => if x.2 = .writeFailed then l else x.1.1) latch

/-- Every row was tried, or the last one tried read a key; no earlier one did. -/
def PassEnds (p : KpParams) (n : Nat) (outcomes : List RowOutcome) : Prop :=
  (∀ o ∈ outcomes.dropLast, rowKey p o = none) ∧
  (outcomes.length = n ∨ (outcomes.length < n ∧ ∃ o, outcomes.getLast? = some o ∧ (rowKey p o).isSome))

/-- What the rows of a pass came to, from a pass that has skipped none (`ok`) or some. -/
structure PassRuns (p : KpParams) (rows : List (Byte × Nat)) (ok : Bool) (s : State) (r : Pass)
    (outcomes : List RowOutcome) : Prop where
  scans : Scans (rowsTrace p rows outcomes) s r.state
  ends : PassEnds p rows.length outcomes
  allOk : r.allOk = (ok && !outcomes.any rowSkipped)
  matched : r.matched = (outcomes.findSome? (rowKey p)).isSome
  kp : r.state.kp = match outcomes.findSome? (rowKey p) with | some k => s.kp.note k | none => s.kp
  latch : r.state.expander.latch = rowsLatch rows outcomes s.expander.latch

@[simp] theorem delay_expander (us : Nat) (s : State) : (delay us s).expander = s.expander := rfl
@[simp] theorem logEvent_expander (kind : LogKind) (s : State) : (logEvent kind s).expander = s.expander := rfl
@[simp] theorem busRead_expander (addr : BitVec 7) (s : State) : (busRead addr s).expander = s.expander := by
  simp [busRead]
theorem busWrite_latch (addr : BitVec 7) (b : Byte) (s : State) :
    (busWrite addr b s).expander.latch = if s.nextAck then b else s.expander.latch := by
  unfold busWrite; split <;> simp

/-- A row that read no key, before the rest of the pass. -/
theorem PassRuns.cons {p : KpParams} {pattern : Byte} {i : Nat} {rest : List (Byte × Nat)} {ok ok' : Bool} {s u : State}
    {r : Pass} {o : RowOutcome} {outcomes : List RowOutcome} (hs : Scans (rowTrace p pattern i o) s u)
    (hkey : rowKey p o = none) (hkp : u.kp = s.kp) (hok : ok' = (ok && !rowSkipped o))
    (hl : u.expander.latch = if o = .writeFailed then s.expander.latch else pattern)
    (h : PassRuns p rest ok' u r outcomes) : PassRuns p ((pattern, i) :: rest) ok s r (o :: outcomes) where
  scans := by simpa [rowsTrace] using hs.trans h.scans
  ends := by
    obtain ⟨h1, h2⟩ := h.ends
    cases outcomes with
    | nil => exact ⟨by simp, h2.imp (fun h => congrArg (· + 1) h) (by simp)⟩
    | cons o' os => exact ⟨by simpa [hkey] using h1, by simpa using h2⟩
  allOk := by rw [h.allOk, hok]; simp [Bool.and_assoc]
  matched := by rw [h.matched]; simp [hkey]
  kp := by rw [h.kp, hkp]; simp [hkey]
  latch := by rw [h.latch, hl]; simp [rowsLatch]

/-- All the rows of a pass can do: the outcome of each row tried, and what follows from them (44_keypad.md R230 to R233,
R241, R242). -/
theorem scanRows_spec (p : KpParams) (rows : List (Byte × Nat)) (ok : Bool) (s : State) :
    ∃ outcomes, PassRuns p rows ok s (scanRows p rows ok s) outcomes := by
  induction rows generalizing ok s with
  | nil =>
    exact ⟨[], by simpa [rowsTrace, scanRows] using Scans.refl s, by simp [PassEnds], by simp [scanRows],
      by simp [scanRows], by simp [scanRows], by simp [rowsLatch, scanRows]⟩
  | cons row rest ih =>
    obtain ⟨pattern, i⟩ := row
    have hw : Scans _ s (selectRow p pattern s) := busWrite_scans p.addr pattern s
    have hwl : (selectRow p pattern s).expander.latch = if s.nextAck then pattern else s.expander.latch :=
      busWrite_latch p.addr pattern s
    have hwk : (selectRow p pattern s).kp = s.kp := by simp [selectRow]
    by_cases h : s.nextAck = true
    · have hr := (hw.trans (delay_scans (Config.ms Config.kpSettleMs) (selectRow p pattern s))).trans
        (busRead_scans p.addr (delay (Config.ms Config.kpSettleMs) (selectRow p pattern s)))
      simp only [scanRows, h, if_true]
      rw [h] at hr hwl
      cases hb : (delay (Config.ms Config.kpSettleMs) (selectRow p pattern s)).nextByte with
      | none =>
        rw [hb] at hr
        obtain ⟨os, ho⟩ := ih false (logEvent (.kpBusReadFail i)
          (busRead p.addr (delay (Config.ms Config.kpSettleMs) (selectRow p pattern s))))
        exact ⟨.readFailed :: os, ho.cons (hr.trans (logEvent_scans (.kpBusReadFail i) _)) rfl (by simp [hwk])
          (by simp [rowSkipped]) (by simp [hwl])⟩
      | some column =>
        rw [hb] at hr
        cases hk : keyOf p column with
        | none =>
          simp only [hk]
          obtain ⟨os, ho⟩ := ih ok (busRead p.addr (delay (Config.ms Config.kpSettleMs) (selectRow p pattern s)))
          exact ⟨.read column :: os, ho.cons hr hk (by simp [hwk]) (by simp [rowSkipped]) (by simp [hwl])⟩
        | some k =>
          simp only [hk]
          refine ⟨[.read column], ?_, ?_, ?_, ?_, ?_, ?_⟩
          · simpa [rowsTrace, rowTrace, Config.ms, Config.kpSettleMs] using hr.trans (noteKey_scans k _)
          · refine ⟨by simp, ?_⟩
            cases rest with
            | nil => exact .inl rfl
            | cons _ _ => exact .inr ⟨by simp, .read column, rfl, by simp [rowKey, hk]⟩
          · simp [rowSkipped]
          · simp [rowKey, hk]
          · simp [rowKey, hk, hwk]
          · simp [rowsLatch, hwl]
    · have h' : s.nextAck = false := by simpa using h
      rw [h'] at hw hwl
      simp only [scanRows, h', Bool.false_eq_true, if_false]
      obtain ⟨os, ho⟩ := ih false (logEvent (.kpBusWriteFail i) (selectRow p pattern s))
      exact ⟨.writeFailed :: os, ho.cons (hw.trans (logEvent_scans (.kpBusWriteFail i) _)) rfl (by simp [hwk])
        (by simp [rowSkipped]) (by simp [hwl])⟩

/-- The end of a pass writes the keypad's fields alone. -/
theorem Pass.settle_scans (p : Pass) : Scans [] p.state p.settle := by
  unfold Pass.settle
  split
  · exact ⟨by simp, .of_env rfl rfl rfl rfl, rfl, by simp [SameOutsideKeypad], by simp⟩
  · exact Scans.refl _

/-! ### The rows with the answers written in the state -/

/-- The events of reading these rows with every transaction ok. -/
def rowEvents (p : KpParams) (rows : List (Byte × Nat)) (columns : List Byte) : List Event :=
  rowsTrace p rows (columns.map .read)

@[simp] theorem rowEvents_nil (p : KpParams) (columns : List Byte) : rowEvents p [] columns = [] := rfl

@[simp] theorem rowEvents_cons (p : KpParams) (pattern : Byte) (i : Nat) (rows : List (Byte × Nat)) (column : Byte)
    (columns : List Byte) :
    rowEvents p ((pattern, i) :: rows) (column :: columns) =
      rowTrace p pattern i (.read column) ++ rowEvents p rows columns := rfl

/-- The expander's latch after these rows were selected. -/
def latchAfter : List (Byte × Nat) → Byte → Byte
  | [], latch => latch
  | (pattern, _) :: rest, _ => latchAfter rest pattern

/-- The state after these rows were read and decoded to no key. -/
def State.afterRows (p : KpParams) (rows : List (Byte × Nat)) (columns : List Byte) (acks : List Bool)
    (bytes : List (Option Byte)) (s : State) : State :=
  { s with
    expander := { latch := latchAfter rows s.expander.latch }
    env := { s.env with acks := acks, bytes := bytes }
    events := s.events ++ rowEvents p rows columns }

/-- One row read with both transactions ok. -/
theorem readRow_answered (p : KpParams) (pattern column : Byte) (acks : List Bool) (bytes : List (Option Byte))
    (s : State)
    (ha : s.env.acks = true :: acks) (hb : s.env.bytes = some column :: bytes) :
    s.nextAck = true ∧ (delay (Config.ms Config.kpSettleMs) (selectRow p pattern s)).nextByte = some column ∧
      busRead p.addr (delay (Config.ms Config.kpSettleMs) (selectRow p pattern s)) =
        { s with
          expander := { latch := pattern }
          env := { s.env with acks := acks, bytes := bytes }
          events := s.events ++ [.busWrite p.addr pattern true, .delay (Config.ms Config.kpSettleMs),
            .busRead p.addr (some column)] } := by
  have hn : s.nextAck = true := by simp [State.nextAck, ha]
  have hd : s.dropAck = { s with env := { s.env with acks := acks } } := by simp [State.dropAck, ha]
  have hb1 : (delay (Config.ms Config.kpSettleMs) (selectRow p pattern s)).nextByte = some column := by
    simp [selectRow, busWrite, hn, hd, delay, State.nextByte, State.record, hb]
  refine ⟨hn, hb1, ?_⟩
  simp only [busRead, hb1]
  simp [selectRow, busWrite, hn, hd, delay, State.record, State.dropByte, hb]

/-- Rows that decode to no key are passed over. -/
theorem scanRows_misses (p : KpParams) (rows rest : List (Byte × Nat)) (ok : Bool) (columns : List Byte)
    (acks : List Bool) (bytes : List (Option Byte)) (s : State) (hl : columns.length = rows.length)
    (hm : ∀ c ∈ columns, keyOf p c = none) (ha : s.env.acks = List.replicate columns.length true ++ acks)
    (hb : s.env.bytes = columns.map some ++ bytes) :
    scanRows p (rows ++ rest) ok s = scanRows p rest ok (s.afterRows p rows columns acks bytes) := by
  induction rows generalizing columns s with
  | nil =>
    have : columns = [] := List.eq_nil_of_length_eq_zero hl
    subst this
    simp only [List.length_nil, List.replicate_zero, List.map_nil, List.nil_append] at ha hb
    subst ha hb
    simp [State.afterRows, latchAfter]
  | cons row rows ih =>
    obtain ⟨pattern, i⟩ := row
    cases columns with
    | nil => simp at hl
    | cons c columns =>
      obtain ⟨h1, h2, h3⟩ := readRow_answered p pattern c (List.replicate columns.length true ++ acks)
        (columns.map some ++ bytes) s (by simpa [List.replicate_succ] using ha) (by simpa using hb)
      simp only [List.cons_append, scanRows, h1, h2, h3, if_true, hm c (List.mem_cons_self ..)]
      rw [ih columns _ (by simpa using hl) (fun c' hc => hm c' (List.mem_cons_of_mem _ hc)) rfl rfl]
      simp [State.afterRows, latchAfter, rowTrace, Config.ms, Config.kpSettleMs]

/-- A row that decodes to a key ends the pass. -/
theorem scanRows_hit (p : KpParams) (pattern : Byte) (i : Nat) (rest : List (Byte × Nat)) (ok : Bool) (column k : Byte)
    (acks : List Bool) (bytes : List (Option Byte)) (s : State) (hk : keyOf p column = some k)
    (ha : s.env.acks = true :: acks) (hb : s.env.bytes = some column :: bytes) :
    scanRows p ((pattern, i) :: rest) ok s =
      { matched := true, allOk := ok, state := (s.afterRows p [(pattern, i)] [column] acks bytes).noteKey k } := by
  obtain ⟨h1, h2, h3⟩ := readRow_answered p pattern column acks bytes s ha hb
  simp only [scanRows, h1, h2, h3, if_true, hk]
  simp [State.afterRows, latchAfter, rowTrace, Config.ms, Config.kpSettleMs]

end Sys2Proof.Machine
end

