-- ==== Sys2Proof/Laws/PerInstr.lean ====
section
/-! SUPPORT. What holds of every instruction's encoding, constructor by constructor: a well-formed instruction has a
frame of at most 2 + 255 bytes, whose length byte 0 (or bytes 0 and 1) gives on the host port (30_encoding.md R92,
R96), and on the display's wire only 7-bit bytes (R125). -/

namespace Sys2Proof.Laws.Encoding

/-- The shape of an instruction's bytes, whatever the keypad's parameters. -/
def Statement (i : Instr) : Prop :=
  i.wellFormed = true → ∀ p : KpParams,
    1 ≤ (encode p i).length ∧ (encode p i).length ≤ 257 ∧
    (i.surface = .hostPort → frameLength (encode p i) = some (encode p i).length) ∧
    (i.surface = .displayWire → ∀ b ∈ encode p i, b.toNat < 128)

/-- An instruction whose bytes are written out. -/
theorem of_bytes (i : Instr) (h1 : ∀ p, 1 ≤ (encode p i).length) (h2 : ∀ p, (encode p i).length ≤ 257)
    (h3 : ∀ p, i.surface = .hostPort → frameLength (encode p i) = some (encode p i).length)
    (h4 : ∀ p, i.surface = .displayWire → ∀ b ∈ encode p i, b.toNat < 128) : Statement i :=
  fun _ p => ⟨h1 p, h2 p, h3 p, h4 p⟩

theorem offWire_lt (x : Char7) : (offWire x).toNat < 128 := by
  have := x.isLt
  simp [offWire]; omega

theorem text_frame (op : Byte) (text : List Byte) (h : text.length ≤ 255) (ho : op = 0x04#8 ∨ op = 0x05#8) :
    1 ≤ (encodeText op text).length ∧ (encodeText op text).length ≤ 257 ∧
      frameLength (encodeText op text) = some (encodeText op text).length := by
  refine ⟨by simp [encodeText], by simp [encodeText]; omega, ?_⟩
  rcases ho with rfl | rfl <;> simp [encodeText, frameLength] <;> omega

theorem vfdOpen : Statement .vfdOpen :=
  of_bytes _ (fun _ => by simp [encode]) (fun _ => by simp [encode]) (fun _ _ => rfl) (fun _ => nofun)

theorem vfdClose : Statement .vfdClose :=
  of_bytes _ (fun _ => by simp [encode]) (fun _ => by simp [encode]) (fun _ _ => rfl) (fun _ => nofun)

theorem vfdClear : Statement .vfdClear :=
  of_bytes _ (fun _ => by simp [encode]) (fun _ => by simp [encode]) (fun _ _ => rfl) (fun _ => nofun)

theorem vfdWrite (text : List Byte) : Statement (.vfdWrite text) := fun h =>
  have f := text_frame 0x04#8 text (by simpa [Instr.wellFormed] using h) (.inl rfl)
  fun _ => ⟨f.1, f.2.1, fun _ => f.2.2, nofun⟩

theorem vfdWriteBlinking (text : List Byte) : Statement (.vfdWriteBlinking text) := fun h =>
  have f := text_frame 0x05#8 text (by simpa [Instr.wellFormed] using h) (.inr rfl)
  fun _ => ⟨f.1, f.2.1, fun _ => f.2.2, nofun⟩

theorem vfdSetCursor (row col : Int) : Statement (.vfdSetCursor row col) :=
  of_bytes _ (fun _ => by simp [encode]) (fun _ => by simp [encode]) (fun _ _ => rfl) (fun _ => nofun)

theorem vfdQuery : Statement .vfdQuery :=
  of_bytes _ (fun _ => by simp [encode]) (fun _ => by simp [encode]) (fun _ _ => rfl) (fun _ => nofun)

theorem adcInit : Statement .adcInit :=
  of_bytes _ (fun _ => by simp [encode]) (fun _ => by simp [encode]) (fun _ _ => rfl) (fun _ => nofun)

theorem adcRead (ch : Int) : Statement (.adcRead ch) :=
  of_bytes _ (fun _ => by simp [encode]) (fun _ => by simp [encode]) (fun _ _ => rfl) (fun _ => nofun)

theorem adcReadVoltage (ch : Int) : Statement (.adcReadVoltage ch) :=
  of_bytes _ (fun _ => by simp [encode]) (fun _ => by simp [encode]) (fun _ _ => rfl) (fun _ => nofun)

theorem encEdge (a b : Bit) (t : Tick) : Statement (.encEdge a b t) :=
  of_bytes _ (by simp [encode, encodeEdge]) (by simp [encode, encodeEdge]) (fun _ _ => rfl) (fun _ => nofun)

theorem encRead : Statement .encRead :=
  of_bytes _ (fun _ => by simp [encode]) (fun _ => by simp [encode]) (fun _ _ => rfl) (fun _ => nofun)

theorem encClearChanged : Statement .encClearChanged :=
  of_bytes _ (fun _ => by simp [encode]) (fun _ => by simp [encode]) (fun _ _ => rfl) (fun _ => nofun)

theorem kpScan : Statement .kpScan :=
  of_bytes _ (fun _ => by simp [encode]) (fun _ => by simp [encode]) (fun _ _ => rfl) (fun _ => nofun)

theorem kpRead : Statement .kpRead :=
  of_bytes _ (fun _ => by simp [encode]) (fun _ => by simp [encode]) (fun _ _ => rfl) (fun _ => nofun)

theorem kpClearFlag : Statement .kpClearFlag :=
  of_bytes _ (fun _ => by simp [encode]) (fun _ => by simp [encode]) (fun _ _ => rfl) (fun _ => nofun)

theorem kpClearKey : Statement .kpClearKey :=
  of_bytes _ (fun _ => by simp [encode]) (fun _ => by simp [encode]) (fun _ _ => rfl) (fun _ => nofun)

theorem wireClear : Statement .wireClear :=
  of_bytes _ (fun _ => by simp [encode]) (fun _ => by simp [encode]) nofun fun _ => by simp [encode]

theorem wireHome : Statement .wireHome :=
  of_bytes _ (fun _ => by simp [encode]) (fun _ => by simp [encode]) nofun fun _ => by simp [encode]

theorem wireCursorUp : Statement .wireCursorUp :=
  of_bytes _ (fun _ => by simp [encode]) (fun _ => by simp [encode]) nofun fun _ => by simp [encode]

theorem wireSetRow (rr : Char7) : Statement (.wireSetRow rr) :=
  of_bytes _ (fun _ => by simp [encode]) (fun _ => by simp [encode]) nofun fun _ => by simp [encode, offWire_lt]

theorem wireSetCol (cc : Char7) : Statement (.wireSetCol cc) :=
  of_bytes _ (fun _ => by simp [encode]) (fun _ => by simp [encode]) nofun fun _ => by simp [encode, offWire_lt]

theorem wireNewline : Statement .wireNewline :=
  of_bytes _ (fun _ => by simp [encode]) (fun _ => by simp [encode]) nofun fun _ => by simp [encode]

theorem wireBackspace : Statement .wireBackspace :=
  of_bytes _ (fun _ => by simp [encode]) (fun _ => by simp [encode]) nofun fun _ => by simp [encode]

theorem wireDeleteChar : Statement .wireDeleteChar :=
  of_bytes _ (fun _ => by simp [encode]) (fun _ => by simp [encode]) nofun fun _ => by simp [encode]

theorem wireBlinkStart : Statement .wireBlinkStart :=
  of_bytes _ (fun _ => by simp [encode]) (fun _ => by simp [encode]) nofun fun _ => by simp [encode]

theorem wireBlinkEnd : Statement .wireBlinkEnd :=
  of_bytes _ (fun _ => by simp [encode]) (fun _ => by simp [encode]) nofun fun _ => by simp [encode]

theorem wireBrightness : Statement .wireBrightness :=
  of_bytes _ (fun _ => by simp [encode]) (fun _ => by simp [encode]) nofun fun _ => by simp [encode]

theorem wireScrollEnable : Statement .wireScrollEnable :=
  of_bytes _ (fun _ => by simp [encode]) (fun _ => by simp [encode]) nofun fun _ => by simp [encode]

theorem wireContentQuery : Statement .wireContentQuery :=
  of_bytes _ (fun _ => by simp [encode]) (fun _ => by simp [encode]) nofun fun _ => by simp [encode]

theorem wireCharacter (x : Char7) : Statement (.wireCharacter x) :=
  of_bytes _ (fun _ => by simp [encode]) (fun _ => by simp [encode]) nofun fun _ => by simp [encode, offWire_lt]

theorem adcCmdCh0 : Statement .adcCmdCh0 :=
  of_bytes _ (fun _ => by simp [encode]) (fun _ => by simp [encode]) nofun nofun

theorem adcCmdCh1 : Statement .adcCmdCh1 :=
  of_bytes _ (fun _ => by simp [encode]) (fun _ => by simp [encode]) nofun nofun

theorem adcCmdCh2 : Statement .adcCmdCh2 :=
  of_bytes _ (fun _ => by simp [encode]) (fun _ => by simp [encode]) nofun nofun

theorem adcCmdCh3 : Statement .adcCmdCh3 :=
  of_bytes _ (fun _ => by simp [encode]) (fun _ => by simp [encode]) nofun nofun

theorem adcCmdCh4 : Statement .adcCmdCh4 :=
  of_bytes _ (fun _ => by simp [encode]) (fun _ => by simp [encode]) nofun nofun

theorem adcCmdCh5 : Statement .adcCmdCh5 :=
  of_bytes _ (fun _ => by simp [encode]) (fun _ => by simp [encode]) nofun nofun

theorem adcCmdCh6 : Statement .adcCmdCh6 :=
  of_bytes _ (fun _ => by simp [encode]) (fun _ => by simp [encode]) nofun nofun

theorem adcCmdCh7 : Statement .adcCmdCh7 :=
  of_bytes _ (fun _ => by simp [encode]) (fun _ => by simp [encode]) nofun nofun

theorem kpRowsel0 : Statement .kpRowsel0 :=
  of_bytes _ (fun _ => by simp [encode]) (fun _ => by simp [encode]) nofun nofun

theorem kpRowsel1 : Statement .kpRowsel1 :=
  of_bytes _ (fun _ => by simp [encode]) (fun _ => by simp [encode]) nofun nofun

theorem kpRowsel2 : Statement .kpRowsel2 :=
  of_bytes _ (fun _ => by simp [encode]) (fun _ => by simp [encode]) nofun nofun

theorem kpRowsel3 : Statement .kpRowsel3 :=
  of_bytes _ (fun _ => by simp [encode]) (fun _ => by simp [encode]) nofun nofun

end Sys2Proof.Laws.Encoding
end

