-- ==== Sys2Proof/Laws/Query.lean ====
section
/-! SUPPORT. What VFD_QUERY's read loop can do (41_display.md R146, R147): `queryLoop_succ` is one turn of
it, `queryLoop_spec` gives its reads, its buffer and its bound for any answers, and `queryLoop_listed` its exact course
where the bursts are written in the state. -/

namespace Sys2Proof.Machine

/-- `t` is `s` after the events `es` of some reads: only the history and the receive side's answers moved. -/
structure Reads (es : List Event) (s t : State) : Prop where
  events : t.events = s.events ++ es
  sent : sentBytes es = []
  vfd : t.vfd = s.vfd
  adc : t.adc = s.adc
  enc : t.enc = s.enc
  kp : t.kp = s.kp
  link : t.link = s.link
  display : t.display = s.display
  converter : t.converter = s.converter
  expander : t.expander = s.expander
  kpParams : t.kpParams = s.kpParams
  acks : t.env.acks = s.env.acks
  levels : t.env.levels = s.env.levels
  bytes : t.env.bytes = s.env.bytes
  inbox : t.inbox = s.inbox
  issuer : t.issuer = s.issuer
  results : t.results = s.results

theorem Reads.trans {a b : List Event} {s t u : State} (h : Reads a s t) (h' : Reads b t u) : Reads (a ++ b) s u where
  events := by rw [h'.events, h.events]; simp
  sent := by rw [sentBytes_append, h.sent, h'.sent]; rfl
  vfd := h'.vfd.trans h.vfd
  adc := h'.adc.trans h.adc
  enc := h'.enc.trans h.enc
  kp := h'.kp.trans h.kp
  link := h'.link.trans h.link
  display := h'.display.trans h.display
  converter := h'.converter.trans h.converter
  expander := h'.expander.trans h.expander
  kpParams := h'.kpParams.trans h.kpParams
  acks := h'.acks.trans h.acks
  levels := h'.levels.trans h.levels
  bytes := h'.bytes.trans h.bytes
  inbox := h'.inbox.trans h.inbox
  issuer := h'.issuer.trans h.issuer
  results := h'.results.trans h.results

theorem serialRx_reads (max : Nat) (s : State) : Reads [.serialRx max (s.nextRx max)] s (serialRx max s) := by
  unfold serialRx
  constructor <;> simp [dropRx_env, sentBytes]

theorem delay_reads (us : Nat) (s : State) : Reads [.delay us] s (delay us s) := by
  constructor <;> simp [delay, sentBytes]

/-- A read answers at most what it asks for (20_memory.md R67). -/
theorem nextRx_length (max : Nat) (s : State) : (s.nextRx max).length ≤ max := by
  rw [State.nextRx, List.length_map, List.length_take]; omega

/-- What is unread of a burst, and the bursts behind it, are the bytes that stay (10_state.md R42 (a)). -/
theorem unread_flatten (max : Nat) (burst : List Char7) (later : List (List Char7)) :
    (unread max burst later).flatten = burst.drop max ++ later.flatten := by
  unfold unread; split
  · rename_i h; rw [List.drop_eq_nil_of_le h]; rfl
  · rfl

/-- The count of consecutive empty reads after one more answer. -/
def emptiesAfter (empties : Nat) (answer : List Byte) : Nat := if answer.length = 0 then empties + 1 else 0

/-- These answers end the loop, and no earlier one of them does, from `n` bytes and `empties` empty reads. -/
def EndsWith : Nat → Nat → List (List Byte) → Prop
  | _, _, [] => False
  | n, empties, a :: rest =>
    if n + a.length = 240 ∨ emptiesAfter empties a = 3 then rest = []
    else EndsWith (n + a.length) (emptiesAfter empties a) rest

theorem emptiesAfter_cases (empties : Nat) (a : List Byte) :
    (a.length = 0 ∧ emptiesAfter empties a = empties + 1) ∨ (0 < a.length ∧ emptiesAfter empties a = 0) := by
  unfold emptiesAfter; split <;> omega

/-- One turn of the loop, with the parameters at their values. -/
theorem queryLoop_succ (fuel : Nat) (buf : List Byte) (empties : Nat) (s : State) :
    queryLoop (fuel + 1) buf empties s =
      if (buf ++ s.nextRx (240 - buf.length)).length = 240 ∨ emptiesAfter empties (s.nextRx (240 - buf.length)) = 3 then
        (buf ++ s.nextRx (240 - buf.length), serialRx (240 - buf.length) s)
      else
        queryLoop fuel (buf ++ s.nextRx (240 - buf.length)) (emptiesAfter empties (s.nextRx (240 - buf.length)))
          (delay 100000 (serialRx (240 - buf.length) s)) := rfl

/-- All the read loop can do with fuel enough. -/
theorem queryLoop_spec (fuel : Nat) (buf : List Byte) (empties : Nat) (s : State) (hb : buf.length < 240)
    (he : empties < 3) (hf : 720 ≤ fuel + (3 * buf.length + empties)) :
    ∃ answers, EndsWith buf.length empties answers ∧
      Reads (readTrace buf.length answers) s (queryLoop fuel buf empties s).2 ∧
      (queryLoop fuel buf empties s).1 = buf ++ answers.flatten ∧
      answers.length + (3 * buf.length + empties) ≤ 720 ∧ buf.length + answers.flatten.length ≤ 240 := by
  induction fuel generalizing buf empties s with
  | zero => omega
  | succ fuel ih =>
    have hlen := nextRx_length (240 - buf.length) s
    have hr := serialRx_reads (240 - buf.length) s
    rw [queryLoop_succ]
    generalize s.nextRx (240 - buf.length) = got at hlen hr ⊢
    have hl : (buf ++ got).length = buf.length + got.length := List.length_append
    have hc := emptiesAfter_cases empties got
    by_cases hstop : buf.length + got.length = 240 ∨ emptiesAfter empties got = 3
    · rw [if_pos (hl ▸ hstop)]
      exact ⟨[got], by simp [EndsWith, hstop], by simpa [readTrace] using hr, by simp, by simp; omega,
        by simp; omega⟩
    · rw [if_neg (hl ▸ hstop)]
      obtain ⟨answers, h1, h2, h3, h4, h5⟩ := ih (buf ++ got) (emptiesAfter empties got)
        (delay 100000 (serialRx (240 - buf.length) s)) (by omega) (by omega) (by omega)
      rw [hl] at h1 h2
      refine ⟨got :: answers, ?_, ?_, ?_, ?_, ?_⟩
      · rw [EndsWith, if_neg hstop]; exact h1
      · cases answers with
        | nil => simp [EndsWith] at h1
        | cons a rest => simpa [readTrace] using (hr.trans (delay_reads 100000 _)).trans h2
      · rw [h3]; simp
      · rw [List.length_cons]; omega
      · rw [List.flatten_cons, List.length_append]; omega

/-! ### The loop with the bursts written in the state -/

/-- One more answer stops the reads exactly if it fills the buffer or is the third empty one in a row, given `empties`
empty reads in a row behind `pre` and no more. -/
theorem queryStops_snoc {pre : List (List Byte)} {empties : Nat} (a : List Byte) (he : empties < 3)
    (h1 : empties ≤ pre.length) (h2 : pre.drop (pre.length - empties) = List.replicate empties [])
    (h3 : empties = pre.length ∨ ∃ l, pre[pre.length - empties - 1]? = some l ∧ l ≠ []) :
    queryStops (pre ++ [a]) ↔ (pre.flatten.length + a.length = 240 ∨ emptiesAfter empties a = 3) := by
  unfold queryStops
  rw [List.flatten_append, List.length_append]
  simp only [List.flatten_cons, List.flatten_nil, List.append_nil]
  apply or_congr Iff.rfl
  have hc := emptiesAfter_cases empties a
  constructor
  · rintro ⟨hl, hd⟩
    simp only [List.length_append, List.length_cons, List.length_nil] at hl hd
    have ha : a = [] := by
      have := congrArg (fun l => l[2]?) hd
      simp only [List.getElem?_drop] at this
      rw [show pre.length + (0 + 1) - 3 + 2 = pre.length by omega] at this
      simpa using this
    have he2 : empties = 2 := by
      by_contra hne
      rcases h3 with h3 | ⟨l, h3, h4⟩
      · omega
      · have := congrArg (fun l => l[1 - empties]?) hd
        simp only [List.getElem?_drop] at this
        rw [show pre.length + (0 + 1) - 3 + (1 - empties) = pre.length - empties - 1 by omega,
          List.getElem?_append_left (by omega), h3] at this
        obtain rfl | rfl : empties = 0 ∨ empties = 1 := by omega
        all_goals exact h4 (by simpa using this)
    subst ha; simp at hc; omega
  · intro h5
    rcases hc with hc | hc
    · obtain rfl : empties = 2 := by omega
      obtain rfl := List.eq_nil_of_length_eq_zero hc.1
      refine ⟨by simp; omega, ?_⟩
      rw [List.length_append, List.drop_append]
      simp only [List.length_cons, List.length_nil]
      rw [show pre.length + (0 + 1) - 3 = pre.length - 2 by omega, h2, show pre.length - 2 - pre.length = 0 by omega]
      rfl
    · omega

/-- The count of empty reads behind `pre` and its meaning, after one more answer. -/
theorem empties_snoc {pre : List (List Byte)} {empties : Nat} (a : List Byte)
    (h1 : empties ≤ pre.length) (h2 : pre.drop (pre.length - empties) = List.replicate empties [])
    (h3 : empties = pre.length ∨ ∃ l, pre[pre.length - empties - 1]? = some l ∧ l ≠ []) :
    emptiesAfter empties a ≤ (pre ++ [a]).length ∧
      (pre ++ [a]).drop ((pre ++ [a]).length - emptiesAfter empties a) = List.replicate (emptiesAfter empties a) [] ∧
      (emptiesAfter empties a = (pre ++ [a]).length ∨
        ∃ l, (pre ++ [a])[(pre ++ [a]).length - emptiesAfter empties a - 1]? = some l ∧ l ≠ []) := by
  rcases emptiesAfter_cases empties a with ⟨hc, hc'⟩ | ⟨hc, hc'⟩
  · obtain rfl := List.eq_nil_of_length_eq_zero hc
    rw [hc', List.length_append, List.length_cons, List.length_nil]
    refine ⟨by omega, ?_, ?_⟩
    · rw [List.drop_append, show pre.length + (0 + 1) - (empties + 1) = pre.length - empties by omega, h2,
        show pre.length - empties - pre.length = 0 by omega, List.replicate_succ']
      rfl
    · rcases h3 with h3 | ⟨l, h3, h4⟩
      · left; omega
      · right
        have hlt := (List.getElem?_eq_some_iff.mp h3).1
        refine ⟨l, ?_, h4⟩
        rw [show pre.length + (0 + 1) - (empties + 1) - 1 = pre.length - empties - 1 by omega,
          List.getElem?_append_left hlt]
        exact h3
  · rw [hc']
    refine ⟨by omega, by simp, .inr ⟨a, by simp, ?_⟩⟩
    rintro rfl; simp at hc

/-- `EndsWith` says that these answers, behind `pre`, stop the reads and no beginning of them does. -/
theorem endsWith_iff (answers pre : List (List Byte)) (empties : Nat) (he : empties < 3)
    (htot : pre.flatten.length + answers.flatten.length ≤ 240) (hn : pre.flatten.length < 240)
    (h1 : empties ≤ pre.length) (h2 : pre.drop (pre.length - empties) = List.replicate empties [])
    (h3 : empties = pre.length ∨ ∃ l, pre[pre.length - empties - 1]? = some l ∧ l ≠ []) :
    EndsWith pre.flatten.length empties answers ↔
      (answers ≠ [] ∧ queryStops (pre ++ answers) ∧
        ∀ n, 0 < n → n < answers.length → ¬ queryStops (pre ++ answers.take n)) := by
  induction answers generalizing pre empties with
  | nil => simp [EndsWith]
  | cons a rest ih =>
    have hq := queryStops_snoc a he h1 h2 h3
    rw [EndsWith]
    by_cases hs : pre.flatten.length + a.length = 240 ∨ emptiesAfter empties a = 3
    · rw [if_pos hs]
      constructor
      · rintro rfl
        exact ⟨by simp, hq.mpr hs, fun n hn hn' => by simp at hn'; omega⟩
      · rintro ⟨-, -, hnot⟩
        by_contra hr
        have := List.length_pos_of_ne_nil hr
        exact hnot 1 (by omega) (by rw [List.length_cons]; omega) (by simpa using hq.mpr hs)
    · rw [if_neg hs]
      have hc := emptiesAfter_cases empties a
      obtain ⟨k1, k2, k3⟩ := empties_snoc a h1 h2 h3
      have hlen : (pre ++ [a]).flatten.length = pre.flatten.length + a.length := by simp
      rw [List.flatten_cons, List.length_append] at htot
      have := ih (pre ++ [a]) (emptiesAfter empties a) (by omega) (by rw [hlen]; omega) (by rw [hlen]; omega) k1 k2 k3
      rw [hlen] at this
      rw [this]
      have hnot : ¬ queryStops (pre ++ [a]) := fun h => hs (hq.mp h)
      constructor
      · rintro ⟨_, b2, b3⟩
        refine ⟨by simp, by simpa using b2, fun n hn hn' => ?_⟩
        match n, hn with
        | 1, _ => simpa using hnot
        | n + 2, _ =>
          rw [List.length_cons] at hn'
          simpa using b3 (n + 1) (by omega) (by omega)
      · rintro ⟨-, b2, b3⟩
        have hne : rest ≠ [] := by
          rintro rfl; exact hnot b2
        refine ⟨hne, by simpa using b2, fun n hn hn' => ?_⟩
        simpa using b3 (n + 1) (by omega) (by rw [List.length_cons]; omega)

/-- A read of a burst that is listed answers its front and leaves what is unread of it. -/
theorem serialRx_listed (max : Nat) (burst : List Char7) (later : List (List Char7)) (s : State)
    (h : s.env.rx = burst :: later) :
    s.nextRx max = (burst.take max).map offWire ∧ (serialRx max s).env.rx = unread max burst later := by
  simp [State.nextRx, State.nextBurst, serialRx, State.dropRx, h]

/-- The read loop where the receive side lists what it answers: the bursts themselves, and what the last read leaves
stays. -/
theorem queryLoop_listed (fuel : Nat) (buf : List Byte) (empties : Nat) (s : State) (bursts : List (List Char7))
    (last extra : List Char7) (later : List (List Char7)) (hb : buf.length < 240) (he : empties < 3)
    (hf : 720 ≤ fuel + (3 * buf.length + empties)) (hrx : s.env.rx = bursts ++ (last ++ extra) :: later)
    (hend : EndsWith buf.length empties ((bursts ++ [last]).map (List.map offWire)))
    (htot : buf.length + ((bursts ++ [last]).map (List.map offWire)).flatten.length ≤ 240)
    (hx : extra = [] ∨ buf.length + ((bursts ++ [last]).map (List.map offWire)).flatten.length = 240) :
    (queryLoop fuel buf empties s).1 = buf ++ ((bursts ++ [last]).map (List.map offWire)).flatten ∧
      (queryLoop fuel buf empties s).2.env.rx = (if extra = [] then later else extra :: later) ∧
      Reads (readTrace buf.length ((bursts ++ [last]).map (List.map offWire))) s (queryLoop fuel buf empties s).2 := by
  induction bursts generalizing fuel buf empties s with
  | nil =>
    obtain _ | fuel := fuel
    · omega
    simp only [List.nil_append, List.map_cons, List.map_nil, List.flatten_cons, List.flatten_nil, List.append_nil,
      List.length_map] at hrx hend htot hx ⊢
    obtain ⟨g1, g2⟩ := serialRx_listed (240 - buf.length) _ _ s hrx
    have hr := serialRx_reads (240 - buf.length) s
    have htake : (last ++ extra).take (240 - buf.length) = last := by
      rcases hx with rfl | hx
      · rw [List.append_nil, List.take_of_length_le (by omega)]
      · rw [List.take_append_of_le_length (by omega), List.take_of_length_le (by omega)]
    have hleft : unread (240 - buf.length) (last ++ extra) later = if extra = [] then later else extra :: later := by
      unfold unread
      rcases hx with rfl | hx
      · simp; omega
      · by_cases he : extra = []
        · subst he; simp; omega
        · have := List.length_pos_of_ne_nil he
          rw [if_neg (by rw [List.length_append]; omega), if_neg he,
            show 240 - buf.length = last.length by omega, List.drop_left]
    rw [htake] at g1
    rw [g1] at hr
    have hstop : buf.length + (last.map offWire).length = 240 ∨ emptiesAfter empties (last.map offWire) = 3 := by
      by_contra hn
      rw [EndsWith, if_neg hn] at hend
      exact hend
    rw [queryLoop_succ, g1, if_pos (by rw [List.length_append]; exact hstop)]
    exact ⟨rfl, g2.trans hleft, by simpa [readTrace] using hr⟩
  | cons burst bursts ih =>
    obtain _ | fuel := fuel
    · omega
    rw [List.cons_append, List.map_cons, List.flatten_cons, List.length_append] at htot hx
    rw [List.cons_append, List.map_cons] at hend
    rw [List.cons_append] at hrx
    obtain ⟨g1, g2⟩ := serialRx_listed (240 - buf.length) _ _ s hrx
    have hr := serialRx_reads (240 - buf.length) s
    have hlen : (burst.map offWire).length = burst.length := List.length_map ..
    rw [List.take_of_length_le (by omega)] at g1
    rw [unread, if_pos (by omega)] at g2
    rw [g1] at hr
    have hc := emptiesAfter_cases empties (burst.map offWire)
    have hns : ¬ (buf.length + (burst.map offWire).length = 240 ∨ emptiesAfter empties (burst.map offWire) = 3) := by
      intro hs
      rw [EndsWith, if_pos hs] at hend
      simp at hend
    rw [EndsWith, if_neg hns] at hend
    have hl : (buf ++ burst.map offWire).length = buf.length + (burst.map offWire).length := List.length_append
    rw [queryLoop_succ, g1, if_neg (by rw [hl]; exact hns)]
    obtain ⟨i1, i2, i3⟩ := ih fuel (buf ++ burst.map offWire) (emptiesAfter empties (burst.map offWire))
      (delay 100000 (serialRx (240 - buf.length) s)) (by omega) (by omega) (by omega) g2 (by rw [hl]; exact hend)
      (by rw [hl]; omega) (by rw [hl]; rcases hx with hx | hx; exact .inl hx; exact .inr (by omega))
    refine ⟨by rw [i1]; simp, i2, ?_⟩
    have := (hr.trans (delay_reads 100000 _)).trans i3
    rw [hl] at this
    cases bursts <;> simpa [readTrace] using this

end Sys2Proof.Machine
end

