-- ==== Sys2Proof/Tests/Slice0.lean ====
section
/-! SUPPORT. Tests: ill-formed terms, words written out from the encodings, single steps with the results of
95_test_vectors.md, and for every statement with hypotheses a state and operands that meet them. -/

namespace Sys2Proof.Tests

open Sys2Proof.Machine

/-! ### States to step from -/

/-- The ROWPAT and KEYMAP the spec takes, for an expander at address 0x20. -/
def params : KpParams := .standard 0x20#7

/-- A machine at launch with both phases low, a blank display in scroll mode, and every ok/fail primitive to come
ok. -/
def quiet : State :=
  { State.launch params false false with
    display :=
      { grid := List.replicate 6 (List.replicate 40 0x20#8), row := 0, col := 0, blink := false, scroll := true }
    converter := { command := 24#5 }
    expander := { latch := 0xFF#8 }
    env := { acks := List.replicate 60 true, levels := [], bytes := [], rx := [], draws := 0 } }

/-- A live session with both cursors at `(r, c)`. -/
def live (r c : Nat) : State :=
  { quiet with
    vfd := { quiet.vfd with session := true, rts := true, cursorRow := r, cursorCol := c }
    display := { quiet.display with row := r, col := c } }

/-- The sampler initialized, with these ten levels to come. -/
def sampling (bits : List Bit) : State :=
  { quiet with
    adc := { init := true, csOut := some true, clkOut := some false, mosiOut := some false }
    env := { quiet.env with acks := List.replicate 39 true, levels := bits.map some } }

/-- The decoder in this state. -/
def decoder (position : Position) (a b : Bit) (tick : Option Tick) (changed : Bool) : State :=
  { quiet with enc := { position := position, lastA := a, lastB := b, lastEventTick := tick, changed := changed } }

/-- The scanner in this state, with these answers to come. -/
def scanner (key : Option Byte) (pressed : Bool) (acks : List Bool) (bytes : List (Option Byte)) : State :=
  { quiet with
    kp := { lastKey := key, keyPressed := pressed }
    env := { quiet.env with acks := acks, bytes := bytes } }

/-- A frame of HOST waiting. -/
def waiting (bytes : List Byte) : State := { quiet with inbox := [.frame .host false .hostPort bytes] }

/-- The state an instruction leaves. -/
def ran (i : Instr) (s : State) : State :=
  match exec i s with
  | .next t => t
  | .fault _ => s
  | .refused _ => s

/-- The state a step leaves, if it is a next one. -/
def stepped (s : State) : Option State :=
  match step s with
  | .next t => some t
  | .fault _ => none
  | .refused _ => none

/-- The bytes an instruction sends. -/
def sentBy (i : Instr) (s : State) : List Byte := sentBytes (ran i s).events

/-- The last result record. -/
def lastResult (s : State) : Option Result := s.results.getLast?.map Prod.snd

/-- The history without its Delay events. -/
def withoutDelays (es : List Event) : List Event :=
  es.filter fun e =>
    match e with
    | .delay _ => false
    | _ => true

/-! ### WellFormed refuses -/

theorem test_wf_long_text : (Instr.vfdWrite (List.replicate 256 0x41#8)).wellFormed = false := by decide +kernel
theorem test_wf_long_blinking_text : (Instr.vfdWriteBlinking (List.replicate 256 0x41#8)).wellFormed = false := by
  decide +kernel
theorem test_wf_text_of_255 : (Instr.vfdWrite (List.replicate 255 0x41#8)).wellFormed = true := by decide +kernel
theorem test_wf_negative_row : (Instr.vfdSetCursor (-1) 0).wellFormed = false := by decide
theorem test_wf_wide_col : (Instr.vfdSetCursor 0 256).wellFormed = false := by decide
theorem test_wf_negative_channel : (Instr.adcRead (-1)).wellFormed = false := by decide
theorem test_wf_wide_channel : (Instr.adcReadVoltage 256).wellFormed = false := by decide
theorem test_wf_control_character : (Instr.wireCharacter 0x19#7).wellFormed = false := by decide

/-! ### Decoding: words written out from 30_encoding.md R91, R92, R101, R107 and R111 -/

theorem test_decode_vfd :
    decodeHost [0x01#8] = .ok (.vfdOpen, []) ∧ decodeHost [0x02#8] = .ok (.vfdClose, []) ∧
    decodeHost [0x03#8] = .ok (.vfdClear, []) ∧
    decodeHost [0x04#8, 0x03#8, 0x48#8, 0x69#8, 0x0A#8] = .ok (.vfdWrite [0x48#8, 0x69#8, 0x0A#8], []) ∧
    decodeHost [0x05#8, 0x02#8, 0x4F#8, 0x4B#8] = .ok (.vfdWriteBlinking [0x4F#8, 0x4B#8], []) ∧
    decodeHost [0x06#8, 0x05#8, 0x26#8] = .ok (.vfdSetCursor 5 38, []) ∧
    decodeHost [0x07#8] = .ok (.vfdQuery, []) := by decide

theorem test_decode_adc :
    decodeHost [0x10#8] = .ok (.adcInit, []) ∧ decodeHost [0x11#8, 0x03#8] = .ok (.adcRead 3, []) ∧
    decodeHost [0x12#8, 0x07#8] = .ok (.adcReadVoltage 7, []) := by decide

theorem test_decode_enc :
    decodeHost [0x20#8, 0x01#8, 0x00#8, 0x00#8, 0x04#8, 0xB0#8] = .ok (.encEdge true false 1200#32, []) ∧
    decodeHost [0x20#8, 0x00#8, 0xFF#8, 0xFF#8, 0xFF#8, 0xFF#8] = .ok (.encEdge false false 4294967295#32, []) ∧
    decodeHost [0x21#8] = .ok (.encRead, []) ∧ decodeHost [0x22#8] = .ok (.encClearChanged, []) := by decide

theorem test_decode_kp :
    decodeHost [0x30#8] = .ok (.kpScan, []) ∧ decodeHost [0x31#8] = .ok (.kpRead, []) ∧
    decodeHost [0x32#8] = .ok (.kpClearFlag, []) ∧ decodeHost [0x33#8] = .ok (.kpClearKey, []) := by decide

theorem test_decode_wire_escapes :
    decode params .displayWire [0x19#8, 0x0C#8] = .ok (.wireClear, []) ∧
    decode params .displayWire [0x19#8, 0x0E#8] = .ok (.wireHome, []) ∧
    decode params .displayWire [0x19#8, 0x0B#8] = .ok (.wireCursorUp, []) ∧
    decode params .displayWire [0x19#8, 0x11#8, 0x06#8] = .ok (.wireSetRow 6#7, []) ∧
    decode params .displayWire [0x19#8, 0x13#8, 0x28#8] = .ok (.wireSetCol 40#7, []) ∧
    decode params .displayWire [0x19#8, 0x10#8] = .ok (.wireDeleteChar, []) ∧
    decode params .displayWire [0x19#8, 0x4F#8] = .ok (.wireBrightness, []) := by decide

theorem test_decode_wire_singles :
    decode params .displayWire [0x0D#8, 0x0A#8] = .ok (.wireNewline, []) ∧
    decode params .displayWire [0x08#8] = .ok (.wireBackspace, []) ∧
    decode params .displayWire [0x0B#8] = .ok (.wireBlinkStart, []) ∧
    decode params .displayWire [0x0C#8] = .ok (.wireBlinkEnd, []) ∧
    decode params .displayWire [0x10#8] = .ok (.wireScrollEnable, []) ∧
    decode params .displayWire [0x04#8, 0x00#8] = .ok (.wireContentQuery, []) ∧
    decode params .displayWire [0x41#8] = .ok (.wireCharacter 0x41#7, []) := by decide

theorem test_decode_adc_words :
    decode params .adcWire [0b00011000#8] = .ok (.adcCmdCh0, []) ∧
    decode params .adcWire [0b00011001#8] = .ok (.adcCmdCh1, []) ∧
    decode params .adcWire [0b00011010#8] = .ok (.adcCmdCh2, []) ∧
    decode params .adcWire [0b00011011#8] = .ok (.adcCmdCh3, []) ∧
    decode params .adcWire [0b00011100#8] = .ok (.adcCmdCh4, []) ∧
    decode params .adcWire [0b00011101#8] = .ok (.adcCmdCh5, []) ∧
    decode params .adcWire [0b00011110#8] = .ok (.adcCmdCh6, []) ∧
    decode params .adcWire [0b00011111#8] = .ok (.adcCmdCh7, []) := by decide

theorem test_decode_row_patterns :
    decode params .keypadBus [0b11111110#8] = .ok (.kpRowsel0, []) ∧
    decode params .keypadBus [0b11111101#8] = .ok (.kpRowsel1, []) ∧
    decode params .keypadBus [0b11111011#8] = .ok (.kpRowsel2, []) ∧
    decode params .keypadBus [0b11110111#8] = .ok (.kpRowsel3, []) := by decide

/-- Other patterns than the spec's are taken as the parameters give them. -/
theorem test_decode_other_row_patterns :
    decode { params with row0 := 0xEF#8, row3 := 0x7F#8 } .keypadBus [0x7F#8] = .ok (.kpRowsel3, []) ∧
    decode { params with row0 := 0xEF#8, row3 := 0x7F#8 } .keypadBus [0xFE#8] = .error (.notRowPattern 0xFE#8) := by
  decide

/-- 95_test_vectors.md 2.2, and the encodings no rule gives a meaning. -/
theorem test_decode_rejects :
    decodeHost [0x08#8] = .error (.reservedOpcode 0x08#8) ∧
    decodeHost [0x20#8, 0x04#8, 0#8, 0#8, 0#8, 0#8] = .error .reservedBits ∧
    decodeHost [0x06#8, 0x02#8] = .error .truncated ∧
    decodeHost [0x04#8, 0x05#8, 0x41#8, 0x42#8] = .error .truncated ∧
    decode params .displayWire [0x19#8, 0x0D#8] = .error (.unlistedEscape 0x0D#7) ∧
    decode params .adcWire [0b00010000#8] = .error (.notCommandWord 0b00010000#8) ∧
    decode params .keypadBus [0xFF#8] = .error (.notRowPattern 0xFF#8) := by decide

/-- 30_encoding.md R105: a stream of commands and characters. -/
theorem test_parse_stream :
    parseWire 9 [0x19#7, 0x11#7, 0x02#7, 0x19#7, 0x13#7, 0x01#7, 0x41#7, 0x0D#7, 0x0A#7] =
      .ok [.wireSetRow 2#7, .wireSetCol 1#7, .wireCharacter 0x41#7, .wireNewline] := by decide

/-- Table numbers: the operand bytes the table gives no bits are zeros. -/
theorem test_table_words :
    decodeTableWord 8 0x01 = some .vfdOpen ∧ decodeTableWord 8 0x04 = some (.vfdWrite []) ∧
    decodeTableWord 16 0x0400 = some .wireContentQuery ∧
    decodeTableWord 24 0x060526 = some (.vfdSetCursor 5 38) ∧
    decodeTableWord 48 0x20030000_03E8 = some (.encEdge true true 1000#32) ∧
    decodeTableWord 24 0x191106 = some (.wireSetRow 6#7) ∧ decodeTableWord 16 0x0D0A = some .wireNewline ∧
    decodeTableWord 8 0x1D = some .adcCmdCh5 ∧ decodeTableWord 8 0xFE = some .kpRowsel0 ∧
    decodeTableWord 8 0x41 = some (.wireCharacter 0x41#7) := by decide +kernel

/-- Placing a table number makes the next step run it. -/
theorem test_with_fetch_word :
    (stepped (State.reset.withFetchWord 8 0x21)).map lastResult = some (some (.encoder .ok 0 false)) ∧
    (stepped (State.reset.withFetchWord 8 0x33)).map lastResult = some (some (.status .ok)) ∧
    (stepped (State.reset.withFetchWord 16 0x1109)).map lastResult = some (some (.raw .invalidChannel 0#10)) := by
  decide +kernel

/-! ### The renderer (95_test_vectors.md W1, W2, W4 and 2.3) -/

/-- W1: 46 bytes, one autowrap and one newline. -/
theorem test_write_w1 :
    let text := "Line 1 (1234567890) - 40 chars width test....\n".toList.map fun c => BitVec.ofNat 8 c.toNat
    (ran (.vfdWrite text) (live 0 0)).vfd.cursorRow = 2 ∧ (ran (.vfdWrite text) (live 0 0)).vfd.cursorCol = 0 ∧
    (sentBy (.vfdWrite text) (live 0 0)).drop 40 =
      [0x19#8, 0x11#8, 0x02#8, 0x19#8, 0x13#8, 0x01#8, 0x74#8, 0x2E#8, 0x2E#8, 0x2E#8, 0x2E#8,
       0x19#8, 0x11#8, 0x03#8, 0x19#8, 0x13#8, 0x01#8] := by decide +kernel

/-- Scroll between 'b' and 'c'. -/
theorem test_write_scrolls :
    sentBy (.vfdWrite [0x61#8, 0x62#8, 0x63#8]) (live 5 38) = [0x61#8, 0x62#8, 0x0D#8, 0x0A#8, 0x63#8] ∧
    (ran (.vfdWrite [0x61#8, 0x62#8, 0x63#8]) (live 5 38)).vfd.cursorCol = 1 := by decide

/-- The wrap falls between the markers. -/
theorem test_blinking_wraps :
    sentBy (.vfdWriteBlinking [0x58#8, 0x59#8]) (live 4 39) =
      [0x0B#8, 0x58#8, 0x19#8, 0x11#8, 0x06#8, 0x19#8, 0x13#8, 0x01#8, 0x59#8, 0x0C#8] := by decide

/-- A byte with bit 7 set loses it on the line. -/
theorem test_write_bit_7 :
    (ran (.vfdWrite [0xC1#8]) (live 0 0)).link.tx =
      [[false, true, false, false, false, false, false, true, false, true]] := by decide

theorem test_set_cursor_corner :
    sentBy (.vfdSetCursor 5 39) (live 1 1) = [0x19#8, 0x11#8, 0x06#8, 0x19#8, 0x13#8, 0x28#8] := by decide
theorem test_set_cursor_outside :
    sentBy (.vfdSetCursor 6 0) (live 1 1) = [] ∧ lastResult (ran (.vfdSetCursor 6 0) (live 1 1)) = some (.status .ok) := by
  decide

/-- Open from launch, and open with a session live. -/
theorem test_open :
    lastResult (ran .vfdOpen quiet) = some (.status .ok) ∧ sentBy .vfdOpen quiet = [0x10#8] ∧
    (ran .vfdOpen quiet).events.length = 4 ∧ lastResult (ran .vfdOpen (live 3 4)) = some (.status .portError) ∧
    (ran .vfdOpen (live 3 4)).vfd.cursorCol = 4 := by decide

theorem test_close :
    (ran .vfdClose (live 3 4)).vfd.session = false ∧ (ran .vfdClose (live 3 4)).events = [.serialClose] := by
  decide
theorem test_clear :
    sentBy .vfdClear (live 3 17) = [0x19#8, 0x0C#8, 0x19#8, 0x0E#8] ∧ (ran .vfdClear (live 3 17)).vfd.cursorRow = 0 := by
  decide

/-- A byte resets the count of empty reads. -/
theorem test_query :
    let s := { live 0 0 with env := { quiet.env with rx := [[], [], [1#7, 2#7, 3#7, 4#7, 5#7], [], [], []] } }
    lastResult (ran .vfdQuery s) = some (.data .ok [1#8, 2#8, 3#8, 4#8, 5#8]) ∧
    rxCount (ran .vfdQuery s).events = 6 := by decide

/-- What a read leaves of a burst is read next, whether the burst was written in the state or drawn. -/
theorem test_unread_bytes_stay :
    let s := { quiet with env := { quiet.env with rx := [[1#7, 2#7, 3#7], [4#7]] } }
    (serialRx 2 s).env.rx = [[3#7], [4#7]] ∧ (serialRx 2 s).nextRx 9 = [3#8] ∧
    (serialRx 2 quiet).env.rx.flatten = (Config.rxDraw 0).drop 2 := by
  refine ⟨rfl, rfl, ?_⟩
  simp [serialRx, State.dropRx, State.nextBurst, State.record, unread_flatten, quiet]

/-- Three empty reads: TimeoutError. -/
theorem test_query_timeout :
    lastResult (ran .vfdQuery { live 0 0 with env := { quiet.env with rx := [[], [], []] } }) =
      some (.data .timeoutError []) := by decide

/-! ### The display's wire (30_encoding.md R125; 41_display.md R163) -/

theorem test_serial_frames :
    serialFrame 0x19#8 = [false, true, false, false, true, true, false, false, true, true] ∧
    serialFrame 0x35#8 = [false, true, false, true, false, true, true, false, false, true] := by decide

theorem test_wire_character :
    ((ran (.wireCharacter 0x41#7) (live 2 39)).display.grid.getD 2 []).getLast? = some 0x41#8 ∧
    (ran (.wireCharacter 0x41#7) (live 2 39)).display.col = 40 := by decide
theorem test_wire_newline_scrolls :
    let s := ran (.wireCharacter 0x41#7) (live 5 0)
    ((ran .wireNewline s).display.grid.getD 4 []).head? = some 0x41#8 := by decide
theorem test_wire_set_row : (ran (.wireSetRow 6#7) (live 0 7)).display.row = 5 := by decide

/-! ### The analog sampler (95_test_vectors.md 2.4) -/

/-- 1 0 0 0 0 0 0 0 0 1 reads as 513. -/
theorem test_adc_read :
    let s := sampling [true, false, false, false, false, false, false, false, false, true]
    lastResult (ran (.adcRead 3) s) = some (.raw .ok 513#10) ∧ (ran (.adcRead 3) s).events.length = 88 ∧
    (ran (.adcRead 3) s).adc.mosiOut = some true := by decide +kernel

/-- The first command bits of channel 3: start, single-ended, 0, 1, 1. -/
theorem test_adc_command :
    let s := sampling (List.replicate 10 false)
    ((ran (.adcRead 3) s).events.filterMap fun e =>
        match e with
        | .pinWrite .adcMosi level _ => some level
        | _ => none) = [true, true, false, true, true] := by decide +kernel

/-- VREF = 33/10: 513 is 513/310 V and 682 is 11/5 V. -/
theorem test_volts : voltsAt (33 / 10) 513#10 = 513 / 310 ∧ voltsAt (33 / 10) 682#10 = 11 / 5 := by
  norm_num [voltsAt]

/-- The third write fails: ABANDON's two writes, BusTransactionError, and the outputs (1, 0, 1). -/
theorem test_adc_abandon :
    let s := { sampling [] with env := { quiet.env with acks := [true, true, false, true, true] } }
    lastResult (ran (.adcRead 3) s) = some (.raw .busTransactionError 0#10) ∧
    withoutDelays (ran (.adcRead 3) s).events =
      [.pinWrite .adcCs false true, .pinWrite .adcMosi true true, .pinWrite .adcClk true false,
       .pinWrite .adcClk false true, .pinWrite .adcCs true true] ∧
    (ran (.adcRead 3) s).adc = { init := true, csOut := some true, clkOut := some false, mosiOut := some true } := by
  decide

theorem test_adc_channel_8 : lastResult (ran (.adcRead 8) (sampling [])) = some (.raw .invalidChannel 0#10) := by
  decide

/-- A failed repeat of ADC_INIT leaves the unit uninitialized. -/
theorem test_adc_init_fails :
    let s := { sampling [] with env := { quiet.env with acks := [true, true, true, false] } }
    (ran .adcInit s).adc.init = false ∧ (ran .adcInit s).events.length = 4 := by decide

theorem test_adc_frame :
    lastResult (ran .adcCmdCh5 (sampling (List.replicate 10 true))) = some (.raw .ok 1023#10) ∧
    (ran .adcCmdCh5 (sampling (List.replicate 10 true))).converter.command = 29#5 := by decide

/-! ### The quadrature decoder (95_test_vectors.md 2.5) -/

/-- E5: a gap of 200 is accepted; B low counts down. -/
theorem test_edge_e5 :
    (ran (.encEdge true false 1200#32) (decoder 1#32 false false (some 1000#32) true)).enc =
      { position := 0#32, lastA := true, lastB := false, lastEventTick := some 1200#32, changed := true } := by
  decide

/-- The tick wraps: gaps of 200 and 199. -/
theorem test_edge_tick_wraps :
    (ran (.encEdge true true 100#32) (decoder 0#32 false false (some 4294967196#32) false)).enc.position = 1#32 ∧
    (ran (.encEdge true true 99#32) (decoder 0#32 false false (some 4294967196#32) false)).enc.position = 0#32 := by
  decide

/-- The position wraps. -/
theorem test_enc_read_wraps :
    lastResult (ran .encRead (ran (.encEdge true true 5#32) (decoder 2147483647#32 false true none false))) =
      some (.encoder .ok (-2147483648) true) := by decide
theorem test_enc_clear :
    (ran .encClearChanged (decoder 1#32 true true none true)).enc.changed = false := by decide

/-! ### The keypad scanner (95_test_vectors.md 2.6 and W10) -/

theorem test_scan_five :
    let s := scanner none false [true, true] [some 0xFE#8, some 0xDD#8]
    lastResult (ran .kpScan s) = some (.keypad .ok (some 0x35#8) true) ∧ (ran .kpScan s).events.length = 6 ∧
    (ran .kpScan s).expander.latch = 0xFD#8 := by decide

/-- Row 2's read fails: logged, skipped, and no clear. -/
theorem test_scan_skips :
    let s := scanner (some 0x35#8) false [true, true, true, true] [some 0xFE#8, some 0xFD#8, none, some 0xF7#8]
    lastResult (ran .kpScan s) = some (.keypad .busTransactionError (some 0x35#8) false) ∧
    (ran .kpScan s).events.getD 9 .serialClose = .log (.kpBusReadFail 2) := by decide

/-- A key read on a row after a skipped one is recorded, with the skip's error. -/
theorem test_scan_key_after_skip :
    let s := scanner none false [false, true] [some 0xDD#8]
    lastResult (ran .kpScan s) = some (.keypad .busTransactionError (some 0x35#8) true) ∧
    (ran .kpScan s).events =
      [.busWrite 0x20#7 0xFE#8 false, .log (.kpBusWriteFail 0), .busWrite 0x20#7 0xFD#8 true, .delay 10000,
       .busRead 0x20#7 (some 0xDD#8)] := by decide

theorem test_kp_clear_key :
    (ran .kpClearKey (scanner (some 0x35#8) true [] [])).kp = { lastKey := none, keyPressed := true } := by
  decide
theorem test_kp_clear_flag :
    (ran .kpClearFlag (scanner (some 0x35#8) true [] [])).kp = { lastKey := some 0x35#8, keyPressed := false } := by
  decide
theorem test_kp_read :
    lastResult (ran .kpRead (scanner (some 0x35#8) true [] [])) = some (.keypad .ok (some 0x35#8) true) := by
  decide
theorem test_rowsel :
    (ran .kpRowsel2 quiet).expander.latch = 0xFB#8 ∧
    (ran .kpRowsel2 (scanner none false [false] [])).expander.latch = 0xFF#8 := by decide

/-! ### Steps -/

/-- `00` is reserved; `20 83 00 00 03 E8` has bit 7 set. -/
theorem test_illegal_frames :
    (stepped (waiting [0x00#8])).map lastResult = some (some (.status .illegalCommand)) ∧
    (stepped (waiting [0x20#8, 0x83#8, 0x00#8, 0x00#8, 0x03#8, 0xE8#8])).map lastResult =
      some (some (.status .illegalCommand)) := by decide

/-- An illegal frame leaves the agent's next bytes. -/
theorem test_illegal_frame_then_next :
    ((stepped (waiting [0x20#8, 0x04#8, 0#8, 0#8, 0#8, 0#8, 0x31#8])).map State.inbox) =
      some [.frame .host false .hostPort [0x31#8]] := by decide

/-- A truncated frame is refused. -/
theorem test_truncated_frame : stepped (waiting [0x06#8, 0x02#8]) = none := by decide

/-! ### A state and operands for the hypotheses of every statement that has any -/

/-- The operation is one HOST could issue in this state. -/
theorem witness_HostFrameRoundTrip :
    (Instr.vfdWrite (List.replicate 255 0x00#8)).surface = .hostPort ∧
    (Instr.vfdWrite (List.replicate 255 0x00#8)).wellFormed = true ∧
    (Instr.vfdSetCursor 255 0).surface = .hostPort ∧ (Instr.vfdSetCursor 255 0).wellFormed = true := by decide +kernel

theorem witness_HostDecodeTakesOneFrame :
    decode params .hostPort [0x20#8, 0x03#8, 0#8, 0#8, 0#8, 1#8, 0x30#8] = .ok (.encEdge true true 1#32, [0x30#8]) := by
  decide

theorem witness_FrameLengthIsWhatDecodeTakes :
    decode params .hostPort [0x04#8, 0x01#8, 0x41#8, 0x31#8] = .ok (.vfdWrite [0x41#8], [0x31#8]) := by decide

theorem witness_WireCommandRoundTrip :
    params.rowPat.Nodup ∧
    (Instr.wireCharacter 0x7F#7).surface ≠ .hostPort ∧ (Instr.wireCharacter 0x7F#7).wellFormed = true ∧
    Instr.adcCmdCh7.surface ≠ .hostPort ∧ Instr.kpRowsel3.surface ≠ .hostPort := by decide

theorem witness_PrintableStreamParses :
    ∀ i ∈ [Instr.wireSetRow 1#7, .wireCharacter 0x20#7, .wireCharacter 0x7E#7, .wireContentQuery],
      i.surface = .displayWire ∧ ∀ x, i = .wireCharacter x → isPrintable x = true := by
  simp [Instr.surface, isPrintable]

theorem witness_ReservedOpcodeIsIllegal :
    (∀ op ∈ [0x00#8, 0x08#8, 0x0F#8, 0x13#8, 0x1F#8, 0x23#8, 0x2F#8, 0x34#8, 0xFF#8], isReservedOpcode op = true) ∧
    (waiting [0x34#8, 0x01#8]).inbox = [.frame .host false .hostPort [0x34#8, 0x01#8]] := by decide

theorem witness_EdgeReservedBitsAreIllegal :
    4 ≤ (0x04#8).toNat ∧ 4 ≤ (0xFF#8).toNat ∧
    (waiting [0x20#8, 0x04#8, 0#8, 0#8, 0#8, 0#8]).inbox =
      [.frame .host false .hostPort [0x20#8, 0x04#8, 0#8, 0#8, 0#8, 0#8]] := by decide

theorem witness_TruncatedFrameIsRefused :
    (Instr.vfdSetCursor 2 3).surface = .hostPort ∧ (Instr.vfdSetCursor 2 3).wellFormed = true ∧
    2 < (encode params (.vfdSetCursor 2 3)).length ∧
    (waiting [0x06#8, 0x02#8]).inbox = [.frame .host false .hostPort ((encode params (.vfdSetCursor 2 3)).take 2)] := by
  decide

/-- All three clauses: HOST's frame, NOTIFIER's edge during a HOST operation, and nothing issued. -/
theorem witness_StepRunsTheDecodedInstruction :
    (waiting [0x31#8]).inbox = [.frame .host false .hostPort [0x31#8]] ∧
    decode quiet.kpParams .hostPort [0x31#8] = .ok (.kpRead, []) ∧
    ({ quiet with inbox := [.operation .notifier true (.encEdge true false 7#32)] } : State).inbox =
      [.operation .notifier true (.encEdge true false 7#32)] ∧
    quiet.inbox = [] := by decide

theorem witness_ConcurrentHostRequestIsRefused :
    ({ quiet with inbox := [.frame .host true .hostPort [0x31#8]] } : State).inbox =
      [.frame .host true .hostPort [0x31#8]] ∧
    ({ quiet with inbox := [.operation .host true .kpScan] } : State).inbox = [.operation .host true .kpScan] := by
  decide

theorem witness_OpenStartsTheSession :
    quiet.vfd.session = false ∧ quiet.nextAck = true ∧
    (serialOpen Config.port quiet.vfd.lineCfg quiet).nextAck = true := by decide

theorem witness_OpenFailsWithPortError :
    (live 0 0).vfd.session = true ∧ (scanner none false [false] []).vfd.session = false ∧
    (scanner none false [false] []).nextAck = false ∧ (scanner none false [true, false] []).vfd.session = false ∧
    (scanner none false [true, false] []).nextAck = true ∧
    (serialOpen Config.port (scanner none false [true, false] []).vfd.lineCfg
      (scanner none false [true, false] [])).nextAck = false := by decide

/-- A live session, for every statement whose hypothesis it is. -/
theorem witness_CloseEndsTheSession : (live 5 39).vfd.session = true ∧ quiet.vfd.session = false := by decide
theorem witness_ClearHomesTheCursor : (live 5 39).vfd.session = true ∧ quiet.vfd.session = false := by decide
theorem witness_WritesConcatenate : (live 5 39).vfd.session = true := by decide
theorem witness_BlinkingWrapsTheWrite :
    (live 5 39).vfd.session = true ∧ ∀ b ∈ [0x20#8, 0x7E#8, 0x0A#8], isPlain b = true := by decide
/-- R146's example of 240 bytes in one read, with three more behind them; a partial answer; and none at all. -/
theorem witness_QueryReadsUntilItStops :
    (live 5 39).vfd.session = true ∧
    AnswersQuery { live 5 39 with env := { quiet.env with rx := [List.replicate 240 1#7 ++ [2#7, 3#7, 4#7], [5#7]] } }
      [List.replicate 240 0x01#8] [[2#7, 3#7, 4#7], [5#7]] ∧
    AnswersQuery { live 5 39 with env := { quiet.env with rx := [[1#7], [], [], [], [5#7]] } }
      [[0x01#8], [], [], []] [[5#7]] ∧
    AnswersQuery { live 5 39 with env := { quiet.env with rx := [[], [], []] } } [[], [], []] [] := by
  refine ⟨rfl, ⟨[], List.replicate 240 1#7, [2#7, 3#7, 4#7], [[5#7]], rfl, ?_, rfl, ?_, .inr ?_, .inl ?_, ?_⟩,
    ⟨[[1#7], [], []], [], [], [[5#7]], rfl, rfl, rfl, by simp, .inl rfl, .inr ⟨by simp, rfl⟩, ?_⟩,
    ⟨[[], []], [], [], [], rfl, rfl, rfl, by simp, .inl rfl, .inr ⟨by simp, rfl⟩, ?_⟩⟩
  · simp [-List.reduceReplicate, offWire]
  · simp [-List.reduceReplicate]
  · simp [-List.reduceReplicate]
  · simp [-List.reduceReplicate]
  · intro n h h'; simp at h'; omega
  · intro n h h'
    simp only [List.length_cons, List.length_nil] at h'
    obtain rfl | rfl | rfl : n = 1 ∨ n = 2 ∨ n = 3 := by omega
    all_goals simp [queryStops]
  · intro n h h'
    simp only [List.length_cons, List.length_nil] at h'
    obtain rfl | rfl : n = 1 ∨ n = 2 := by omega
    all_goals simp [queryStops]
theorem witness_QueryIsBounded : (live 5 39).vfd.session = true := by decide
theorem witness_NoSessionGuard : quiet.vfd.session = false := by decide

theorem witness_NewlineRepositionsOrScrolls :
    ∀ p ∈ [(0, 0), (4, 39), (5, 0), (5, 39)],
      (live p.1 p.2).vfd.session = true ∧ (live p.1 p.2).vfd.cursorRow < 6 ∧ (live p.1 p.2).vfd.cursorCol < 40 := by
  decide

theorem witness_WriteArithmetic :
    (live 5 39).vfd.session = true ∧ (live 5 39).vfd.cursorRow < 6 ∧ (live 5 39).vfd.cursorCol < 40 ∧
    0x0A#8 ∉ [0x09#8, 0x0B#8, 0xFF#8] := by decide

/-- No session; the grid's last cell; and just outside it on each side. -/
theorem witness_SetCursorMovesOrIsRejected :
    quiet.vfd.session = false ∧ (live 1 1).vfd.session = true ∧
    ((0 : Int) ≤ 5 ∧ (5 : Int) < 6 ∧ (0 : Int) ≤ 39 ∧ (39 : Int) < 40) ∧
    ∀ p ∈ ([(-1, 0), (6, 0), (0, -1), (0, 40)] : List (Int × Int)), p.1 < 0 ∨ 6 ≤ p.1 ∨ p.2 < 0 ∨ 40 ≤ p.2 := by
  decide

theorem live_tracks (r c : Nat) (hr : r < 6) (hc : c < 40) : Tracks (live r c) := ⟨rfl, hr, hc, rfl, rfl, rfl⟩

/-- Both clauses: an open and a clear that succeed, and an operation of each kind from a tracked state. -/
theorem witness_DisplayTracksTheRenderer :
    (quiet.vfd.session = false ∧ (∃ t, exec .vfdOpen quiet = .next t ∧ t.vfd.session = true ∧
      ∃ u, exec .vfdClear t = .next u)) ∧
    Tracks (live 5 39) ∧ (∀ b ∈ [0x20#8, 0x7E#8, 0x0A#8], isPlain b = true) ∧
    (∃ t, exec (.vfdWrite [0x20#8, 0x7E#8, 0x0A#8]) (live 5 39) = .next t) ∧
    (∃ t, exec .vfdClear (live 5 39) = .next t) ∧ (∃ t, exec (.vfdSetCursor 6 0) (live 5 39) = .next t) :=
  ⟨⟨rfl, _, rfl, by decide, _, rfl⟩, live_tracks 5 39 (by decide) (by decide), by decide, ⟨_, rfl⟩, ⟨_, rfl⟩,
    ⟨_, rfl⟩⟩

theorem witness_CharacterLandsAtTheCursor :
    Tracks (live 5 39) ∧ Tracks (live 4 39) ∧ 0x20 ≤ (0x20#8).toNat ∧ (0x7E#8).toNat ≤ 0x7E :=
  ⟨live_tracks 5 39 (by decide) (by decide), live_tracks 4 39 (by decide) (by decide), by decide, by decide⟩

theorem witness_HostOperationsSendOnlyContractCommands :
    isHostOperation (.vfdWriteBlinking [0x41#8, 0x0A#8]) = true ∧ CursorInGrid (live 5 39) ∧
    (∀ b ∈ [0x41#8, 0x0A#8], isPlain b = true) ∧
    ∃ t, exec (.vfdWriteBlinking [0x41#8, 0x0A#8]) (live 5 39) = .next t :=
  ⟨by decide, fun _ => by decide, by decide, _, rfl⟩

theorem witness_WireCommandsWithStatedEffect :
    1 ≤ (1#7).toNat ∧ (6#7).toNat ≤ 6 ∧ 1 ≤ (40#7).toNat ∧ (40#7).toNat ≤ 40 := by decide

theorem witness_WireNewlineAndCharacter :
    (live 4 0).display.scroll = true ∧ (live 4 0).display.row < 5 ∧ (live 5 0).display.row = 5 ∧
    0x20 ≤ (0x7E#7).toNat ∧ (0x7E#7).toNat ≤ 0x7E ∧ (live 5 39).display.col < 40 := by decide

theorem witness_WireCommandsWithFreeEffect :
    ((0#7).toNat = 0 ∧ 6 < (7#7).toNat ∧ 40 < (41#7).toNat) ∧
    ({ quiet with display := { quiet.display with scroll := false } } : State).display.scroll = false ∧
    (0x1F#7).toNat < 0x20 ∧ (0x7F#7).toNat = 0x7F ∧ 40 ≤ (live 0 40).display.col := by decide

theorem witness_AdcInitConfiguresTheLines : quiet.env.acks = List.replicate 7 true ++ List.replicate 53 true := by
  decide

/-- The last answer fails, and the first. -/
theorem witness_AdcInitStopsAtTheFirstFailure :
    (scanner none false (List.replicate 6 true ++ [false]) []).env.acks = List.replicate 6 true ++ false :: [] ∧
    (scanner none false [false, true] []).env.acks = List.replicate 0 true ++ false :: [true] := by decide

theorem witness_InvalidChannelTouchesNothing : (-1 : Int) < 0 ∧ (7 : Int) < 8 := by decide

theorem witness_UninitializedReadTouchesNothing :
    quiet.adc.init = false ∧ (0 : Int) ≤ 0 ∧ (7 : Int) ≤ 7 := by decide

theorem witness_AdcReadSamplesTheChannel :
    (sampling (List.replicate 10 true)).adc.init = true ∧ (7 : Nat) ≤ 7 ∧
    AnswersFrame (sampling (List.replicate 10 true)) (List.replicate 10 true) [] [] :=
  ⟨rfl, by decide, rfl, by decide, by decide⟩

theorem witness_AdcReadVoltageConverts :
    (sampling (List.replicate 10 false)).adc.init = true ∧ (0 : Nat) ≤ 7 ∧
    AnswersFrame (sampling (List.replicate 10 false)) (List.replicate 10 false) [] [] :=
  ⟨rfl, by decide, rfl, by decide, by decide⟩

/-- Both ends of the channels; the 39th write fails; and the tenth level, or the first. -/
theorem witness_AdcReadSucceedsOrAbandons :
    (sampling []).adc.init = true ∧ (0 : Int) ≤ 0 ∧ (0 : Int) ≤ 7 ∧ (7 : Int) ≤ 7 ∧
    ({ quiet.env with acks := List.replicate 38 true ++ [false] } : Env).acks = List.replicate 38 true ++ false :: [] ∧
    ({ quiet.env with levels := (List.replicate 9 true).map some ++ [none] } : Env).levels =
      (List.replicate 9 true).map some ++ none :: [] ∧
    ({ quiet.env with levels := [none] } : Env).levels = ([] : List Bit).map some ++ none :: [] :=
  ⟨rfl, by decide, by decide, by decide, rfl, rfl, rfl⟩

theorem witness_CommandWordOfAChannel : (0 : Nat) ≤ 7 ∧ (7 : Nat) ≤ 7 := by decide

theorem witness_CommandFramesRunTheTransaction :
    (Instr.adcCmdCh0, 0) ∈ adcFrames ∧ (Instr.adcCmdCh7, 7) ∈ adcFrames ∧ (sampling []).adc.init = true ∧
    AnswersFrame (sampling (List.replicate 10 true)) (List.replicate 10 true) [] [] :=
  ⟨by decide, by decide, rfl, rfl, by decide, by decide⟩

theorem witness_AcceptedEdgeStepsThePosition :
    (decoder 0#32 false false (some 4294967196#32) false).enc.lastA = false ∧
    ∀ t0, (decoder 0#32 false false (some 4294967196#32) false).enc.lastEventTick = some t0 →
      200 ≤ ((100#32).toNat + 2 ^ 32 - t0.toNat) % 2 ^ 32 := by
  refine ⟨rfl, ?_⟩
  intro t0 h
  cases h
  decide

/-- Each of the three cases, the last at a gap of 199. -/
theorem witness_OtherEdgesOnlyStoreThePhases :
    (decoder 0#32 true false none false).enc.lastA = true ∧
    ∃ t0, (decoder 0#32 false false (some 4294967196#32) false).enc.lastEventTick = some t0 ∧
      ((99#32).toNat + 2 ^ 32 - t0.toNat) % 2 ^ 32 < 200 := ⟨rfl, _, rfl, by decide⟩

/-- Three pairs whose gaps are 200. -/
theorem witness_CountingLaw :
    (decoder 0#32 false false none false).enc.lastA = false ∧
    (∀ t0, (decoder 0#32 false false none false).enc.lastEventTick = some t0 → False) ∧
    ∀ (n : Nat) (p q : Tick × Tick), [(1000#32, 1100#32), (1200#32, 1201#32), (1400#32, 1400#32)][n]? = some p →
      [(1000#32, 1100#32), (1200#32, 1201#32), (1400#32, 1400#32)][n + 1]? = some q →
      200 ≤ (q.1.toNat + 2 ^ 32 - p.1.toNat) % 2 ^ 32 := by
  refine ⟨rfl, by simp [decoder], ?_⟩
  intro n p q hp hq
  match n with
  | 0 => simp at hp hq; subst hp hq; decide
  | 1 => simp at hp hq; subst hp hq; decide
  | n + 2 => simp at hq

theorem witness_ChangedFlagRace :
    (decoder 0#32 false false none false).enc.lastA = false ∧
    ∀ t0, (decoder 0#32 false false none false).enc.lastEventTick = some t0 → False := ⟨rfl, by simp [decoder]⟩

/-- The first key on row 0, and on row 3 after three misses. -/
theorem witness_ScanRecordsTheFirstKey :
    keyOf params 0xEE#8 = some 0x31#8 ∧ AnswersPass (scanner none false [true] [some 0xEE#8]) [0xEE#8] [] [] ∧
    (∀ m ∈ [0xFE#8, 0xFD#8, 0xFB#8], keyOf params m = none) ∧ keyOf params 0x77#8 = some 0x44#8 ∧
    AnswersPass (scanner none false [true, true, true, true] [some 0xFE#8, some 0xFD#8, some 0xFB#8, some 0x77#8])
      [0xFE#8, 0xFD#8, 0xFB#8, 0x77#8] [] [] :=
  ⟨by decide, ⟨rfl, rfl⟩, by decide, by decide, rfl, rfl⟩

theorem witness_ScanWithoutKeyClearsTheKey :
    [0xFF#8, 0xFF#8, 0xFF#8, 0xFF#8].length = 4 ∧ (∀ c ∈ [0xFF#8, 0xFF#8, 0xFF#8, 0xFF#8], keyOf params c = none) ∧
    AnswersPass (scanner (some 0x35#8) true (List.replicate 4 true) (List.replicate 4 (some 0xFF#8)))
      [0xFF#8, 0xFF#8, 0xFF#8, 0xFF#8] [] [] :=
  ⟨rfl, by decide, rfl, rfl⟩

/-- W10 a for one pass, and W10 c. -/
theorem witness_RepeatPressIsNotDetected :
    let s := scanner (some 0x35#8) false [true, true] [some 0xFE#8, some 0xDD#8]
    (s.kp.lastKey = some 0x35#8 ∧ s.kp.keyPressed = false ∧
      (∃ t, runAll (List.replicate 1 .kpScan) s = .next t) ∧ (ran .kpScan s).kp.lastKey = some 0x35#8) ∧
    (∃ t u, exec .kpClearKey s = .next t ∧ exec .kpScan t = .next u ∧ u.kp.lastKey = some 0x35#8) :=
  ⟨⟨rfl, rfl, ⟨_, rfl⟩, by decide⟩, _, _, rfl, rfl, by decide⟩

theorem witness_RowSelectWritesThePattern :
    (Instr.kpRowsel0, 0xFE#8) ∈ rowSelects quiet.kpParams ∧ (Instr.kpRowsel3, 0xF7#8) ∈ rowSelects quiet.kpParams ∧
    quiet.nextAck = true ∧
    (scanner none false [false] []).nextAck = false := by decide

theorem witness_KeypadTablesAreSound :
    (3 : Nat) < 4 ∧ keyOf params 0xDD#8 = some 0x35#8 ∧ keyOf params 0xFD#8 = none ∧ keyOf params 0xD0#8 = none := by
  decide

theorem witness_OnlyTheNamedOperationsWrite :
    drivesConverter (.vfdSetCursor 5 39) = false ∧ ∃ t, exec (.vfdSetCursor 5 39) (live 0 0) = .next t := ⟨rfl, _, rfl⟩
theorem witness_OneResultRecordPerOperation :
    isHostOperation .kpScan = true ∧ ∃ t, exec .kpScan quiet = .next t := ⟨by decide, _, rfl⟩

/-- VFD_OPEN's own error, and the numbers of 60_exceptions.md R261. -/
theorem witness_StatusesAreTheTables :
    (∃ t, exec .vfdOpen (live 0 0) = .next t ∧ t.results = [(.host, .status .portError)]) ∧
    statusCode .ok = 0 ∧ statusCode .busTransactionError = 4 ∧ statusCode .illegalCommand = 7 :=
  ⟨⟨_, rfl, by decide⟩, rfl, rfl, rfl⟩

theorem params_legal : params.Legal := ⟨by decide, rfl, by decide⟩

theorem witness_LaunchMeetsTheInvariant :
    params.Legal ∧ ({ params with row0 := 0xEF#8, row3 := 0xFE#8 } : KpParams).Legal :=
  ⟨params_legal, by decide, rfl, by decide⟩

/-- A live session in the grid with a request waiting meets the invariant, and its step is a next one. -/
theorem witness_StepKeepsTheInvariant :
    let s := { live 5 39 with inbox := [.operation .host false (.vfdWrite [0x41#8])] }
    s.Inv ∧ ∃ t, step s = .next t :=
  ⟨⟨fun _ => by decide, rfl, rfl, nofun, nofun, nofun, params_legal,
    ⟨rfl, by intro line h; simp [live, quiet] at h; simp [h], by decide, by decide⟩, rfl⟩, _, rfl⟩

end Sys2Proof.Tests
end

section
/-! What one instruction can do to the block's fields. `VfdStep`, `AdcStep`, `EncStep` and `KpStep` list the writes of
each unit with the operations that make them (10_state.md R22 to R41); `exec_blockStep` is the inversion lemma: every
instruction makes one `BlockStep`. -/

namespace Sys2Proof.Machine

/-! ### The writes of each unit -/

/-- The operations besides VFD_OPEN that move the renderer's cursor (10_state.md R24). -/
inductive MovesCursor : Instr → Prop
  | clear : MovesCursor .vfdClear
  | write (text : List Byte) : MovesCursor (.vfdWrite text)
  | writeBlinking (text : List Byte) : MovesCursor (.vfdWriteBlinking text)
  | setCursor (row col : Int) : MovesCursor (.vfdSetCursor row col)

/-- What instruction `i` can make of the renderer's fields `v`. -/
inductive VfdStep (i : Instr) (v w : Vfd) : Prop
  | keeps (h : w = v)
  | moves (hi : MovesCursor i) (row col : Nat) (h : w = { v with cursorRow := row, cursorCol := col })
      (hgrid : v.cursorRow < 6 ∧ v.cursorCol < 40 → row < 6 ∧ col < 40)
  | opens (hi : i = .vfdOpen) (h : w = { v with session := true, rts := true, cursorRow := 0, cursorCol := 0 })
  | closes (hi : i = .vfdClose) (h : w = { v with session := false, rts := false })

/-- What instruction `i` can make of the sampler's fields `a`. -/
inductive AdcStep (i : Instr) (a b : Adc) : Prop
  | keeps (h : b = a)
  | drives (hi : drivesConverter i = true) (h : b.init = a.init) (hd : StillDriven a b)
  | inits (hi : i = .adcInit) (h : b.init = true → b.csOut.isSome ∧ b.clkOut.isSome ∧ b.mosiOut.isSome)

/-- What instruction `i` can make of the decoder's fields `e`. -/
inductive EncStep (i : Instr) (e f : Enc) : Prop
  | keeps (h : f = e)
  | edge (a b : Bit) (τ : Tick) (hi : i = .encEdge a b τ) (h : f = edgeStep a b τ e)
  | clears (hi : i = .encClearChanged) (h : f = { e with changed := false })

/-- What instruction `i` can make of the keypad's fields `k` under the parameters `p`. -/
inductive KpStep (i : Instr) (p : KpParams) (k l : Kp) : Prop
  | keeps (h : l = k)
  | notes (hi : i = .kpScan) (key : Byte) (hkey : key ∈ p.keymap.map Prod.snd) (h : l = k.note key)
  | forgets (hi : i = .kpScan ∨ i = .kpClearKey) (h : l = { k with lastKey := none })
  | lowers (hi : i = .kpClearFlag) (h : l = { k with keyPressed := false })

/-- The history only grows, and the line by the frames of the bytes sent meanwhile (20_memory.md R67). -/
def LineGrows (s t : State) : Prop :=
  ∃ es, t.events = s.events ++ es ∧ t.link.tx = s.link.tx ++ (sentBytes es).map serialFrame

/-- All that instruction `i` can do to the block, the display and the line. -/
structure BlockStep (i : Instr) (s t : State) : Prop where
  vfd : VfdStep i s.vfd t.vfd
  adc : AdcStep i s.adc t.adc
  enc : EncStep i s.enc t.enc
  kp : KpStep i s.kpParams s.kp t.kp
  params : t.kpParams = s.kpParams
  display : s.display.wf → t.display.wf
  line : LineGrows s t

/-- `t` is `s` with neither a field of the block nor the display written. -/
structure KeepsBlock (s t : State) : Prop where
  vfd : t.vfd = s.vfd
  adc : t.adc = s.adc
  enc : t.enc = s.enc
  kp : t.kp = s.kp
  params : t.kpParams = s.kpParams
  display : t.display = s.display
  line : LineGrows s t

/-! ### Composing steps -/

theorem LineGrows.of_silent {es : List Event} {s t : State} (he : t.events = s.events ++ es) (hs : sentBytes es = [])
    (hl : t.link = s.link) : LineGrows s t := ⟨es, he, by simp [hs, hl]⟩

@[simp] theorem sentBytes_map_serialTx (bytes : List Byte) : sentBytes (bytes.map .serialTx) = bytes := by
  simp [sentBytes, List.filterMap_map]

theorem LineGrows.of_sent {sent : List Byte} {s t : State} (he : t.events = s.events ++ sent.map .serialTx)
    (hl : t.link.tx = s.link.tx ++ sent.map serialFrame) : LineGrows s t := ⟨_, he, by simp [hl]⟩

theorem LineGrows.trans {s t u : State} (h : LineGrows s t) (h' : LineGrows t u) : LineGrows s u := by
  obtain ⟨es, he, hl⟩ := h
  obtain ⟨fs, he', hl'⟩ := h'
  exact ⟨es ++ fs, by rw [he', he, List.append_assoc], by rw [hl', hl]; simp⟩

theorem KeepsBlock.trans {s t u : State} (h : KeepsBlock s t) (h' : KeepsBlock t u) : KeepsBlock s u :=
  ⟨h'.vfd.trans h.vfd, h'.adc.trans h.adc, h'.enc.trans h.enc, h'.kp.trans h.kp, h'.params.trans h.params,
    h'.display.trans h.display, h.line.trans h'.line⟩

theorem KeepsBlock.blockStep {s t : State} (i : Instr) (h : KeepsBlock s t) : BlockStep i s t :=
  ⟨.keeps h.vfd, .keeps h.adc, .keeps h.enc, .keeps h.kp, h.params, fun hd => h.display ▸ hd, h.line⟩

theorem BlockStep.then_keeps {i : Instr} {s t u : State} (h : BlockStep i s t) (h' : KeepsBlock t u) :
    BlockStep i s u :=
  ⟨h'.vfd ▸ h.vfd, h'.adc ▸ h.adc, h'.enc ▸ h.enc, h'.kp ▸ h.kp, h'.params.trans h.params,
    fun hd => h'.display ▸ h.display hd, h.line.trans h'.line⟩

theorem KeepsBlock.then_step {i : Instr} {s t u : State} (h : KeepsBlock s t) (h' : BlockStep i t u) :
    BlockStep i s u :=
  ⟨h.vfd ▸ h'.vfd, h.adc ▸ h'.adc, h.enc ▸ h'.enc, by rw [← h.params, ← h.kp]; exact h'.kp, h'.params.trans h.params,
    fun hd => h'.display (h.display ▸ hd), h.line.trans h'.line⟩

/-! ### Primitives that send nothing -/

theorem KeepsBlock.refl (s : State) : KeepsBlock s s := ⟨rfl, rfl, rfl, rfl, rfl, rfl, [], by simp, by simp [sentBytes]⟩

theorem accept_keepsBlock (agent : Agent) (rest : List Request) (s : State) : KeepsBlock s (s.accept agent rest) :=
  ⟨rfl, rfl, rfl, rfl, rfl, rfl, .of_silent (es := []) (by simp) rfl rfl⟩

theorem deliver_keepsBlock (r : Result) (s : State) : KeepsBlock s (s.deliver r) :=
  ⟨rfl, rfl, rfl, rfl, rfl, rfl, .of_silent (es := []) (by simp) rfl rfl⟩

theorem Reads.keepsBlock {es : List Event} {s t : State} (h : Reads es s t) : KeepsBlock s t :=
  ⟨h.vfd, h.adc, h.enc, h.kp, h.kpParams, h.display, .of_silent h.events h.sent h.link⟩

theorem delay_keepsBlock (us : Nat) (s : State) : KeepsBlock s (delay us s) := (delay_reads us s).keepsBlock

theorem serialOpen_keepsBlock (port : String) (cfg : LineCfg) (s : State) : KeepsBlock s (serialOpen port cfg s) := by
  unfold serialOpen
  exact ⟨by simp, by simp, by simp, by simp, by simp, by simp,
    .of_silent (es := [.serialOpen port cfg s.nextAck]) (by simp) rfl (by simp)⟩

theorem setRts_keepsBlock (level : Bit) (s : State) : KeepsBlock s (setRts level s) := by
  unfold setRts
  exact ⟨by simp, by simp, by simp, by simp, by simp, by simp,
    .of_silent (es := [.setRts level s.nextAck]) (by simp) rfl (by simp)⟩

theorem serialClose_keepsBlock (s : State) : KeepsBlock s (serialClose s) :=
  ⟨rfl, rfl, rfl, rfl, rfl, rfl, .of_silent rfl rfl rfl⟩

theorem BlockStep.deliver {i : Instr} {s t : State} (h : BlockStep i s t) (r : Result) : BlockStep i s (t.deliver r) :=
  h.then_keeps (deliver_keepsBlock r t)

/-! ### The display's wire: bytes, then a response -/

/-- `f` is a response of the reference display: it moves the display and the draws alone, and keeps the display's
shape. -/
structure IsResponse (f : State → State) : Prop where
  cases : ∀ u : State, ∃ d n, f u = { u with display := d, env := { u.env with draws := n } }
  wf : ∀ u : State, u.display.wf → (f u).display.wf

theorem displayUnspecified_response : IsResponse displayUnspecified :=
  ⟨fun _ => ⟨_, _, rfl⟩, fun _ _ => Display.unspecified_wf _⟩

theorem displayClear_response : IsResponse displayClear := ⟨fun u => ⟨_, u.env.draws, rfl⟩, displayClear_wf⟩

theorem displayHome_response : IsResponse displayHome := ⟨fun u => ⟨_, u.env.draws, rfl⟩, displayHome_wf⟩

theorem displaySetRow_response (rr : Char7) : IsResponse (displaySetRow rr) :=
  ⟨displaySetRow_cases rr, displaySetRow_wf rr⟩

theorem displaySetCol_response (cc : Char7) : IsResponse (displaySetCol cc) :=
  ⟨displaySetCol_cases cc, displaySetCol_wf cc⟩

theorem displayScrollEnable_response : IsResponse displayScrollEnable := ⟨fun u => ⟨_, u.env.draws, rfl⟩, fun _ h => h⟩

theorem displayBlink_response (on : Bool) : IsResponse (displayBlink on) :=
  ⟨fun u => ⟨_, u.env.draws, rfl⟩, fun _ h => h⟩

theorem displayCharacter_response (x : Char7) : IsResponse (displayCharacter x) :=
  ⟨displayCharacter_cases x, displayCharacter_wf x⟩

theorem displayNewline_response : IsResponse displayNewline := ⟨displayNewline_cases, displayNewline_wf⟩

theorem Sends.blockStep {sent : List Byte} {s t : State} (i : Instr) (h : Sends sent s t)
    (hd : s.display.wf → t.display.wf) : BlockStep i s t :=
  ⟨.keeps h.vfd, .keeps h.adc, .keeps h.enc, .keeps h.kp, h.kpParams, hd, .of_sent h.events h.link⟩

/-- Every wire command of 41_display.md R148 to R161 is bytes and a response. -/
theorem IsResponse.blockStep {f : State → State} (hf : IsResponse f) (i : Instr) (bytes : List Byte) (s : State) :
    BlockStep i s (f (emit bytes s)) :=
  (sends_of_response hf.cases (emit_sends bytes s)).blockStep i fun hd => hf.wf _ (by rwa [emit_display])

/-! ### The renderer's operations -/

theorem Renders.blockStep {i : Instr} {sent : List Byte} {p : Nat × Nat} {s t : State} (h : Renders sent p s t)
    (hi : MovesCursor i) (hgrid : s.cursor.1 < 6 ∧ s.cursor.2 < 40 → p.1 < 6 ∧ p.2 < 40)
    (hd : s.display.wf → t.display.wf) : BlockStep i s t :=
  ⟨.moves hi _ _ h.vfd hgrid, .keeps h.adc, .keeps h.enc, .keeps h.kp, h.kpParams, hd, .of_sent h.events h.link⟩

/-- The session guard: NoSession writes no field of the block (41_display.md R133). -/
theorem withSession_blockStep {i : Instr} {s live : State} (h : BlockStep i s live) :
    BlockStep i s (withSession s live) := by
  unfold withSession
  split
  · exact h
  · exact (deliver_keepsBlock _ s).blockStep i

theorem startSession_blockStep (s : State) : BlockStep .vfdOpen s (startSession s) := by
  have h := sendScrollEnable_sends (delay (Config.ms Config.openWaitMs) { s with vfd := { s.vfd with rts := true } })
  refine ⟨.opens rfl ?_, .keeps h.adc, .keeps h.enc, .keeps h.kp, h.kpParams, fun hd => ?_,
    (delay_keepsBlock _ _).line.trans (.of_sent h.events h.link)⟩
  · simp only [startSession, State.moveCursor]
    rw [h.vfd]
    rfl
  · exact displayScrollEnable_response.wf _ (by rwa [emit_display])

theorem openSession_blockStep (s : State) : BlockStep .vfdOpen s (openSession s).2 := by
  have hopen := serialOpen_keepsBlock Config.port s.vfd.lineCfg s
  have hrts := hopen.trans (setRts_keepsBlock true _)
  simp only [openSession]
  split
  · exact (KeepsBlock.refl s).blockStep _
  · split
    · split
      · exact hrts.then_step (startSession_blockStep _)
      · exact (hrts.trans (serialClose_keepsBlock _)).blockStep _
    · exact hopen.blockStep _

theorem closeSession_blockStep (s : State) :
    BlockStep .vfdClose s { serialClose s with vfd := { s.vfd with session := false, rts := false } } :=
  ⟨.closes rfl rfl, .keeps rfl, .keeps rfl, .keeps rfl, rfl, id, .of_silent rfl rfl rfl⟩

theorem clear_blockStep (us : Nat) (s : State) :
    BlockStep .vfdClear s ((delay us (displayHome (displayClear (emit Config.clearSeq s)))).moveCursor 0 0) := by
  have hsends := sends_of_response displayHome_response.cases
    (sends_of_response displayClear_response.cases (emit_sends Config.clearSeq s))
  have hmove := (hsends.renders.trans (moveCursor_renders 0 0 _)).blockStep .clear (fun _ => by decide)
    fun hd => displayHome_wf _ (displayClear_wf _ (by rwa [emit_display]))
  exact hmove.then_keeps (delay_keepsBlock _ _)

theorem writeBody_blockStep (text : List Byte) (s : State) : BlockStep (.vfdWrite text) s (writeBody text s) :=
  (writeBody_spec text s).blockStep (.write text) (cursorText_in_grid text s.cursor) (writeBody_wf text s)

theorem writeBlinking_blockStep (text : List Byte) (s : State) :
    BlockStep (.vfdWriteBlinking text) s (sendBlinkEnd (writeBody text (sendBlinkStart s))) := by
  have hstart := (sendBlinkStart_sends s).renders
  have hbody := writeBody_spec text (sendBlinkStart s)
  have hend := (sendBlinkEnd_sends (writeBody text (sendBlinkStart s))).renders
  have hrenders := (hstart.trans hbody).trans hend
  rw [hbody.cursor_eq, hstart.cursor_eq] at hrenders
  refine hrenders.blockStep (.writeBlinking text) (cursorText_in_grid text s.cursor) fun hd => ?_
  have hbodywf : (writeBody text (sendBlinkStart s)).display.wf :=
    writeBody_wf text _ ((displayBlink_response true).wf _ (by rwa [emit_display]))
  exact (displayBlink_response false).wf _ (by rwa [emit_display])

theorem toNat_in_grid {row col : Int} (h : inGrid row col = true) : row.toNat < 6 ∧ col.toNat < 40 := by
  simp only [inGrid, Bool.and_eq_true, decide_eq_true_eq] at h
  simp only [Config.rows, Config.cols] at h
  omega

theorem setCursor_blockStep {row col : Int} (h : inGrid row col = true) (s : State) :
    BlockStep (.vfdSetCursor row col) s ((sendPosition row.toNat col.toNat s).moveCursor row.toNat col.toNat) :=
  ((sendPosition_sends row.toNat col.toNat s).renders.trans (moveCursor_renders _ _ _)).blockStep (.setCursor row col)
    (fun _ => toNat_in_grid h) (sendPosition_wf _ _ s)

theorem query_blockStep (i : Instr) (s : State) :
    BlockStep i s (queryLoop queryFuel [] 0 (sendContentQuery s)).2 := by
  obtain ⟨_, -, hreads, -⟩ := queryLoop_spec queryFuel [] 0 (sendContentQuery s) (by decide) (by decide) (by decide)
  exact (displayUnspecified_response.blockStep i [0x04#8, 0x00#8] s).then_keeps hreads.keepsBlock

/-! ### The sampler's operations -/

theorem blockStep_of_sameOutsideAdc {i : Instr} {es : List Event} {s t : State} (ho : SameOutsideAdc s t)
    (he : t.events = s.events ++ es) (hs : sentBytes es = []) (ha : AdcStep i s.adc t.adc) : BlockStep i s t := by
  obtain ⟨hvfd, henc, hkp, hlink, hdisplay, -, -, -, -, -, hparams⟩ := ho
  exact ⟨.keeps hvfd, ha, .keeps henc, .keeps hkp, hparams, fun hd => hdisplay ▸ hd, .of_silent he hs hlink⟩

theorem Transacts.blockStep {i : Instr} {es : List Event} {s t : State} (h : Transacts es s t)
    (hi : drivesConverter i = true) : BlockStep i s t :=
  blockStep_of_sameOutsideAdc h.outside h.events h.sent (.drives hi h.init h.driven)

theorem readChannel_blockStep {i : Instr} (ch : Int) (s : State) (hi : drivesConverter i = true) :
    BlockStep i s (readChannel ch s).2 := by
  obtain ⟨_, h⟩ := readChannel_transacts ch s
  exact h.blockStep hi

theorem sendFrame_blockStep {i : Instr} (ch : BitVec 3) (s : State) (hi : drivesConverter i = true) :
    BlockStep i s (sendFrame ch s) := by
  obtain ⟨_, h, -⟩ := adcTransaction_spec ch s
  exact (h.blockStep hi).deliver _

/-- ADC_INIT ends initialized only after the three idle writes (10_state.md R30; 42_analog.md R180). -/
theorem initAdc_blockStep (s : State) : BlockStep .adcInit s (initAdc s).2 := by
  obtain ⟨es, hmodes, -, hadc, -⟩ := configurePins_spec adcPinModes (s.setInit false)
  simp only [initAdc]
  split
  · obtain ⟨fs, hidle, -, -⟩ := driveIdle_spec adcIdleLevels (configurePins adcPinModes (s.setInit false)).2
    have hboth := hmodes.trans hidle
    have hinit : (driveIdle adcIdleLevels (configurePins adcPinModes (s.setInit false)).2).2.adc.init = false :=
      hboth.init
    split
    · next hok =>
      refine blockStep_of_sameOutsideAdc hboth.transacts.outside hboth.events hboth.sent (.inits rfl fun _ => ?_)
      rw [State.setInit_adc, driveIdle_adc _ hok]
      exact ⟨rfl, rfl, rfl⟩
    · exact blockStep_of_sameOutsideAdc hboth.transacts.outside hboth.events hboth.sent
        (.inits rfl fun h => by simp [hinit] at h)
  · exact blockStep_of_sameOutsideAdc hmodes.transacts.outside hmodes.events hmodes.sent
      (.inits rfl fun h => by simp [hadc] at h)

/-! ### The keypad's operations -/

theorem Scans.blockStep {i : Instr} {es : List Event} {s t : State} (h : Scans es s t)
    (hk : KpStep i s.kpParams s.kp t.kp) : BlockStep i s t := by
  obtain ⟨hvfd, hadc, henc, hlink, hdisplay, -, -, -, -, -, hparams⟩ := h.outside
  exact ⟨.keeps hvfd, .keeps hadc, .keeps henc, hk, hparams, fun hd => hdisplay ▸ hd, .of_silent h.events h.sent hlink⟩

theorem rowKey_mem {p : KpParams} {o : RowOutcome} {k : Byte} (h : rowKey p o = some k) :
    k ∈ p.keymap.map Prod.snd := by
  cases o with
  | writeFailed => cases h
  | readFailed => cases h
  | read column => exact keyOf_mem h

theorem scanPass_kpStep (s : State) : KpStep .kpScan s.kpParams s.kp (scanPass s).settle.kp := by
  obtain ⟨outcomes, h⟩ := scanRows_spec s.kpParams s.kpParams.rowPat.zipIdx true s
  have hmatched : (scanPass s).matched = (outcomes.findSome? (rowKey s.kpParams)).isSome := h.matched
  have hkp : (scanPass s).state.kp = _ := h.kp
  unfold Pass.settle
  cases hfound : outcomes.findSome? (rowKey s.kpParams) with
  | some k =>
    obtain ⟨o, -, hkey⟩ := List.exists_of_findSome?_eq_some hfound
    rw [hfound] at hmatched hkp
    exact .notes rfl k (rowKey_mem hkey) (by simp [hmatched, hkp])
  | none =>
    rw [hfound] at hkp
    split
    · exact .forgets (.inl rfl) (by rw [State.forgetKey_kp, hkp])
    · exact .keeps hkp

theorem scanPass_blockStep (s : State) : BlockStep .kpScan s (scanPass s).settle := by
  obtain ⟨_, h⟩ := scanRows_spec s.kpParams s.kpParams.rowPat.zipIdx true s
  exact (h.scans.trans (Pass.settle_scans (scanPass s))).blockStep (scanPass_kpStep s)

theorem selectRow_blockStep (i : Instr) (p : KpParams) (pattern : Byte) (s : State) :
    BlockStep i s (selectRow p pattern s) :=
  (busWrite_scans p.addr pattern s).blockStep (.keeps (busWrite_kp p.addr pattern s))

/-! ### Every instruction -/

theorem writeEnc_blockStep {i : Instr} {e : Enc} (s : State) (h : EncStep i s.enc e) :
    BlockStep i s { s with enc := e } :=
  ⟨.keeps rfl, .keeps rfl, h, .keeps rfl, rfl, id, .of_silent (es := []) (by simp) rfl rfl⟩

theorem writeKp_blockStep {i : Instr} {k : Kp} (s : State) (h : KpStep i s.kpParams s.kp k) :
    BlockStep i s { s with kp := k } :=
  ⟨.keeps rfl, .keeps rfl, .keeps rfl, h, rfl, id, .of_silent (es := []) (by simp) rfl rfl⟩

theorem execVfdSetCursor_blockStep (row col : Int) (s : State) :
    ∃ t, execVfdSetCursor row col s = .next t ∧ BlockStep (.vfdSetCursor row col) s t := by
  refine ⟨_, rfl, withSession_blockStep ?_⟩
  split
  · next h => exact (setCursor_blockStep h s).deliver _
  · exact (deliver_keepsBlock _ s).blockStep _

theorem execVfdQuery_blockStep (s : State) : ∃ t, execVfdQuery s = .next t ∧ BlockStep .vfdQuery s t := by
  refine ⟨_, rfl, ?_⟩
  split
  · exact (query_blockStep .vfdQuery s).deliver _
  · exact (deliver_keepsBlock _ s).blockStep _

theorem exec_total_blockStep (i : Instr) (s : State) : ∃ t, exec i s = .next t ∧ BlockStep i s t :=
  match i with
  | .vfdOpen => ⟨_, rfl, (openSession_blockStep s).deliver _⟩
  | .vfdClose => ⟨_, rfl, withSession_blockStep ((closeSession_blockStep s).deliver _)⟩
  | .vfdClear => ⟨_, rfl, withSession_blockStep ((clear_blockStep _ s).deliver _)⟩
  | .vfdWrite text => ⟨_, rfl, withSession_blockStep ((writeBody_blockStep text s).deliver _)⟩
  | .vfdWriteBlinking text => ⟨_, rfl, withSession_blockStep ((writeBlinking_blockStep text s).deliver _)⟩
  | .vfdSetCursor row col => execVfdSetCursor_blockStep row col s
  | .vfdQuery => execVfdQuery_blockStep s
  | .adcInit => ⟨_, rfl, (initAdc_blockStep s).deliver _⟩
  | .adcRead ch => ⟨_, rfl, (readChannel_blockStep ch s rfl).deliver _⟩
  | .adcReadVoltage ch => ⟨_, rfl, (readChannel_blockStep ch s rfl).deliver _⟩
  | .encEdge a b τ => ⟨_, rfl, (writeEnc_blockStep s (.edge a b τ rfl rfl)).deliver _⟩
  | .encRead => ⟨_, rfl, (deliver_keepsBlock _ s).blockStep _⟩
  | .encClearChanged => ⟨_, rfl, (writeEnc_blockStep s (.clears rfl rfl)).deliver _⟩
  | .kpScan => ⟨_, rfl, (scanPass_blockStep s).deliver _⟩
  | .kpRead => ⟨_, rfl, (deliver_keepsBlock _ s).blockStep _⟩
  | .kpClearFlag => ⟨_, rfl, (writeKp_blockStep s (.lowers rfl rfl)).deliver _⟩
  | .kpClearKey => ⟨_, rfl, (writeKp_blockStep s (.forgets (.inr rfl) rfl)).deliver _⟩
  | .wireClear => ⟨_, rfl, displayClear_response.blockStep _ _ s⟩
  | .wireHome => ⟨_, rfl, displayHome_response.blockStep _ _ s⟩
  | .wireCursorUp => ⟨_, rfl, displayUnspecified_response.blockStep _ _ s⟩
  | .wireSetRow rr => ⟨_, rfl, (displaySetRow_response rr).blockStep _ _ s⟩
  | .wireSetCol cc => ⟨_, rfl, (displaySetCol_response cc).blockStep _ _ s⟩
  | .wireNewline => ⟨_, rfl, displayNewline_response.blockStep _ _ s⟩
  | .wireBackspace => ⟨_, rfl, displayUnspecified_response.blockStep _ _ s⟩
  | .wireDeleteChar => ⟨_, rfl, displayUnspecified_response.blockStep _ _ s⟩
  | .wireBlinkStart => ⟨_, rfl, (displayBlink_response true).blockStep _ _ s⟩
  | .wireBlinkEnd => ⟨_, rfl, (displayBlink_response false).blockStep _ _ s⟩
  | .wireBrightness => ⟨_, rfl, displayUnspecified_response.blockStep _ _ s⟩
  | .wireScrollEnable => ⟨_, rfl, displayScrollEnable_response.blockStep _ _ s⟩
  | .wireContentQuery => ⟨_, rfl, displayUnspecified_response.blockStep _ _ s⟩
  | .wireCharacter x => ⟨_, rfl, (displayCharacter_response (onWire (offWire x))).blockStep _ [offWire x] s⟩
  | .adcCmdCh0 => ⟨_, rfl, sendFrame_blockStep 0#3 s rfl⟩
  | .adcCmdCh1 => ⟨_, rfl, sendFrame_blockStep 1#3 s rfl⟩
  | .adcCmdCh2 => ⟨_, rfl, sendFrame_blockStep 2#3 s rfl⟩
  | .adcCmdCh3 => ⟨_, rfl, sendFrame_blockStep 3#3 s rfl⟩
  | .adcCmdCh4 => ⟨_, rfl, sendFrame_blockStep 4#3 s rfl⟩
  | .adcCmdCh5 => ⟨_, rfl, sendFrame_blockStep 5#3 s rfl⟩
  | .adcCmdCh6 => ⟨_, rfl, sendFrame_blockStep 6#3 s rfl⟩
  | .adcCmdCh7 => ⟨_, rfl, sendFrame_blockStep 7#3 s rfl⟩
  | .kpRowsel0 => ⟨_, rfl, selectRow_blockStep _ _ _ s⟩
  | .kpRowsel1 => ⟨_, rfl, selectRow_blockStep _ _ _ s⟩
  | .kpRowsel2 => ⟨_, rfl, selectRow_blockStep _ _ _ s⟩
  | .kpRowsel3 => ⟨_, rfl, selectRow_blockStep _ _ _ s⟩

/-- What an instruction can do, whatever it answers: the one inversion of `exec` the proofs below use. -/
theorem exec_blockStep {i : Instr} {s t : State} (h : exec i s = .next t) : BlockStep i s t := by
  obtain ⟨u, hu, hstep⟩ := exec_total_blockStep i s
  obtain rfl : u = t := Host.Outcome.next.inj (hu.symm.trans h)
  exact hstep

end Sys2Proof.Machine
end

section
/-! The machine's invariant through a step, unit by unit. -/

namespace Sys2Proof.Machine

theorem VfdStep.lineCfg_eq {i : Instr} {v w : Vfd} (h : VfdStep i v w) : w.lineCfg = v.lineCfg := by
  cases h <;> subst w <;> rfl

theorem VfdStep.keeps_grid {i : Instr} {v w : Vfd} (h : VfdStep i v w)
    (hv : v.session = true → v.cursorRow < 6 ∧ v.cursorCol < 40) (hw : w.session = true) :
    w.cursorRow < 6 ∧ w.cursorCol < 40 := by
  cases h with
  | keeps h => subst w; exact hv hw
  | moves _ row col h hgrid => subst w; exact hgrid (hv hw)
  | opens _ h => subst w; simp
  | closes _ h => subst w; cases hw

theorem VfdStep.keeps_rts {i : Instr} {v w : Vfd} (h : VfdStep i v w) (hv : v.rts = v.session) : w.rts = w.session := by
  cases h with
  | keeps h => subst w; exact hv
  | moves _ row col h _ => subst w; exact hv
  | opens _ h => subst w; rfl
  | closes _ h => subst w; rfl

theorem AdcStep.keeps_driven {i : Instr} {a b : Adc} (h : AdcStep i a b)
    (ha : a.init = true → a.csOut.isSome ∧ a.clkOut.isSome ∧ a.mosiOut.isSome) (hb : b.init = true) :
    b.csOut.isSome ∧ b.clkOut.isSome ∧ b.mosiOut.isSome := by
  cases h with
  | keeps h => subst b; exact ha hb
  | drives _ hinit hdriven =>
    obtain ⟨hcs, hclk, hmosi⟩ := hdriven
    obtain ⟨acs, aclk, amosi⟩ := ha (hinit ▸ hb)
    exact ⟨hcs acs, hclk aclk, hmosi amosi⟩
  | inits _ h => exact h hb

theorem edgeStep_keeps_tick (a b : Bit) (τ : Tick) {e : Enc} (he : e.changed = true → e.lastEventTick.isSome) :
    (edgeStep a b τ e).changed = true → (edgeStep a b τ e).lastEventTick.isSome := by
  unfold edgeStep
  split
  · exact fun _ => rfl
  · exact he

theorem EncStep.keeps_tick {i : Instr} {e f : Enc} (h : EncStep i e f)
    (he : e.changed = true → e.lastEventTick.isSome) (hf : f.changed = true) : f.lastEventTick.isSome := by
  cases h with
  | keeps h => subst f; exact he hf
  | edge a b τ _ h => subst f; exact edgeStep_keeps_tick a b τ he hf
  | clears _ h => subst f; cases hf

theorem note_lastKey (key : Byte) (k : Kp) : (k.note key).lastKey = some key := by
  rw [Kp.note_eq]
  split
  · assumption
  · rfl

theorem KpStep.keeps_key {i : Instr} {p : KpParams} {k l : Kp} (h : KpStep i p k l)
    (hk : ∀ key, k.lastKey = some key → key ∈ p.keymap.map Prod.snd) (key : Byte) (hl : l.lastKey = some key) :
    key ∈ p.keymap.map Prod.snd := by
  cases h with
  | keeps h => subst l; exact hk key hl
  | notes _ noted hmem h =>
    subst l
    rw [note_lastKey] at hl
    exact Option.some.inj hl ▸ hmem
  | forgets _ h => subst l; cases hl
  | lowers _ h => subst l; exact hk key hl

theorem LineGrows.keeps_wire {s t : State} (h : LineGrows s t)
    (hs : s.link.tx = (sentBytes s.events).map serialFrame) : t.link.tx = (sentBytes t.events).map serialFrame := by
  obtain ⟨es, he, hl⟩ := h
  rw [hl, hs, he, sentBytes_append, List.map_append]

theorem BlockStep.keeps_inv {i : Instr} {s t : State} (h : BlockStep i s t) (hs : s.Inv) : t.Inv where
  cursor := h.vfd.keeps_grid hs.cursor
  rts := h.vfd.keeps_rts hs.rts
  line := h.vfd.lineCfg_eq.trans hs.line
  pins := h.adc.keeps_driven hs.pins
  edge := h.enc.keeps_tick hs.edge
  key := by rw [h.params]; exact h.kp.keeps_key hs.key
  params := by rw [h.params]; exact hs.params
  display := h.display hs.display
  wire := h.line.keeps_wire hs.wire

theorem KeepsBlock.keeps_inv {s t : State} (h : KeepsBlock s t) (hs : s.Inv) : t.Inv :=
  (h.blockStep .encRead).keeps_inv hs

/-- What `fetch` hands on leaves the block as it is in `s`. -/
def Fetched.Keeps (s : State) : Fetched → Prop
  | .run _ u | .illegal u => KeepsBlock s u
  | .idle | .stop _ => True

/-- Taking a request writes the inbox and the issuer alone. -/
theorem fetch_keeps (s : State) : (fetch s).Keeps s := by
  unfold fetch
  split
  · trivial
  · split
    · trivial
    · exact accept_keepsBlock _ _ s
  · split
    · trivial
    · split
      · split
        · trivial
        · exact accept_keepsBlock _ _ s
      · trivial
      · exact accept_keepsBlock _ _ s
      · exact accept_keepsBlock _ _ s
      · trivial
      · trivial
      · trivial

/-- A step leaves the block, or is one instruction's. -/
theorem step_cases {s t : State} (h : step s = .next t) : KeepsBlock s t ∨ ∃ i, BlockStep i s t := by
  have hkeeps := fetch_keeps s
  unfold step at h
  cases hf : fetch s with
  | idle =>
    rw [hf] at h
    exact .inl (Host.Outcome.next.inj h ▸ KeepsBlock.refl s)
  | run i u =>
    rw [hf] at h hkeeps
    exact .inr ⟨i, KeepsBlock.then_step hkeeps (exec_blockStep h)⟩
  | illegal u =>
    rw [hf] at h hkeeps
    exact .inl (Host.Outcome.next.inj h ▸ KeepsBlock.trans hkeeps (deliver_keepsBlock _ u))
  | stop r =>
    rw [hf] at h
    cases h

/-- Settles O57: a step changes the block by one `BlockStep`, and each unit's writes keep its part of the
invariant. -/
theorem stepKeepsTheInvariant : Obligations.StepKeepsTheInvariant := by
  unfold Obligations.StepKeepsTheInvariant
  intro s t hs h
  rcases step_cases h with hkeeps | ⟨i, hstep⟩
  · exact hkeeps.keeps_inv hs
  · exact hstep.keeps_inv hs

end Sys2Proof.Machine
end

section
/-! The writes of each field, by the operations that make them. -/

namespace Sys2Proof.Machine

theorem VfdStep.session_eq {i : Instr} {v w : Vfd} (h : VfdStep i v w) (hopen : i ≠ .vfdOpen) (hclose : i ≠ .vfdClose) :
    w.session = v.session ∧ w.rts = v.rts := by
  cases h with
  | keeps h => subst w; exact ⟨rfl, rfl⟩
  | moves _ row col h _ => subst w; exact ⟨rfl, rfl⟩
  | opens hi _ => exact absurd hi hopen
  | closes hi _ => exact absurd hi hclose

theorem VfdStep.cursor_eq {i : Instr} {v w : Vfd} (h : VfdStep i v w) (hopen : i ≠ .vfdOpen) (hi : ¬ MovesCursor i) :
    w.cursorRow = v.cursorRow ∧ w.cursorCol = v.cursorCol := by
  cases h with
  | keeps h => subst w; exact ⟨rfl, rfl⟩
  | moves hmoves => exact absurd hmoves hi
  | opens hi _ => exact absurd hi hopen
  | closes _ h => subst w; exact ⟨rfl, rfl⟩

theorem not_movesCursor {i : Instr} (hclear : i ≠ .vfdClear) (hwrite : ∀ x, i ≠ .vfdWrite x)
    (hblink : ∀ x, i ≠ .vfdWriteBlinking x) (hset : ∀ r c, i ≠ .vfdSetCursor r c) : ¬ MovesCursor i
  | .clear => hclear rfl
  | .write text => hwrite text rfl
  | .writeBlinking text => hblink text rfl
  | .setCursor row col => hset row col rfl

theorem AdcStep.outputs_eq {i : Instr} {a b : Adc} (h : AdcStep i a b) (hi : drivesConverter i = false) :
    b.csOut = a.csOut ∧ b.clkOut = a.clkOut ∧ b.mosiOut = a.mosiOut := by
  cases h with
  | keeps h => subst b; exact ⟨rfl, rfl, rfl⟩
  | drives hdrives => simp [hi] at hdrives
  | inits hinit => subst i; cases hi

theorem AdcStep.init_eq {i : Instr} {a b : Adc} (h : AdcStep i a b) (hi : i ≠ .adcInit) : b.init = a.init := by
  cases h with
  | keeps h => subst b; rfl
  | drives _ h _ => exact h
  | inits hinit _ => exact absurd hinit hi

theorem EncStep.fields_eq {i : Instr} {e f : Enc} (h : EncStep i e f) (hi : ∀ a b τ, i ≠ .encEdge a b τ) :
    f.position = e.position ∧ f.lastA = e.lastA ∧ f.lastB = e.lastB ∧ f.lastEventTick = e.lastEventTick ∧
      (i ≠ .encClearChanged → f.changed = e.changed) := by
  cases h with
  | keeps h => subst f; exact ⟨rfl, rfl, rfl, rfl, fun _ => rfl⟩
  | edge a b τ hedge _ => exact absurd hedge (hi a b τ)
  | clears hclear h => subst f; exact ⟨rfl, rfl, rfl, rfl, fun hne => absurd hclear hne⟩

theorem KpStep.lastKey_eq {i : Instr} {p : KpParams} {k l : Kp} (h : KpStep i p k l) (hscan : i ≠ .kpScan)
    (hclear : i ≠ .kpClearKey) : l.lastKey = k.lastKey := by
  cases h with
  | keeps h => subst l; rfl
  | notes hi => exact absurd hi hscan
  | forgets hi _ => exact absurd hi (not_or.mpr ⟨hscan, hclear⟩)
  | lowers _ h => subst l; rfl

theorem KpStep.keyPressed_eq {i : Instr} {p : KpParams} {k l : Kp} (h : KpStep i p k l) (hscan : i ≠ .kpScan)
    (hclear : i ≠ .kpClearFlag) : l.keyPressed = k.keyPressed := by
  cases h with
  | keeps h => subst l; rfl
  | notes hi => exact absurd hi hscan
  | forgets _ h => subst l; rfl
  | lowers hi _ => exact absurd hi hclear

/-- Settles O54: each clause is read off the unit's list of writes. -/
theorem onlyTheNamedOperationsWrite : Obligations.OnlyTheNamedOperationsWrite := by
  unfold Obligations.OnlyTheNamedOperationsWrite
  intro i s t h
  have hstep := exec_blockStep h
  exact ⟨hstep.vfd.lineCfg_eq, hstep.params, hstep.adc.outputs_eq, hstep.vfd.session_eq,
    fun hopen hclear hwrite hblink hset => hstep.vfd.cursor_eq hopen (not_movesCursor hclear hwrite hblink hset),
    hstep.adc.init_eq, hstep.enc.fields_eq, hstep.kp.lastKey_eq, hstep.kp.keyPressed_eq⟩

end Sys2Proof.Machine
end

section
/-! The shape of every instruction's bytes, from the per-instruction laws. -/

namespace Sys2Proof.Laws.Encoding

theorem statement_of_instr : ∀ i : Instr, Statement i
  | .vfdOpen => vfdOpen
  | .vfdClose => vfdClose
  | .vfdClear => vfdClear
  | .vfdWrite text => vfdWrite text
  | .vfdWriteBlinking text => vfdWriteBlinking text
  | .vfdSetCursor row col => vfdSetCursor row col
  | .vfdQuery => vfdQuery
  | .adcInit => adcInit
  | .adcRead ch => adcRead ch
  | .adcReadVoltage ch => adcReadVoltage ch
  | .encEdge a b t => encEdge a b t
  | .encRead => encRead
  | .encClearChanged => encClearChanged
  | .kpScan => kpScan
  | .kpRead => kpRead
  | .kpClearFlag => kpClearFlag
  | .kpClearKey => kpClearKey
  | .wireClear => wireClear
  | .wireHome => wireHome
  | .wireCursorUp => wireCursorUp
  | .wireSetRow rr => wireSetRow rr
  | .wireSetCol cc => wireSetCol cc
  | .wireNewline => wireNewline
  | .wireBackspace => wireBackspace
  | .wireDeleteChar => wireDeleteChar
  | .wireBlinkStart => wireBlinkStart
  | .wireBlinkEnd => wireBlinkEnd
  | .wireBrightness => wireBrightness
  | .wireScrollEnable => wireScrollEnable
  | .wireContentQuery => wireContentQuery
  | .wireCharacter x => wireCharacter x
  | .adcCmdCh0 => adcCmdCh0
  | .adcCmdCh1 => adcCmdCh1
  | .adcCmdCh2 => adcCmdCh2
  | .adcCmdCh3 => adcCmdCh3
  | .adcCmdCh4 => adcCmdCh4
  | .adcCmdCh5 => adcCmdCh5
  | .adcCmdCh6 => adcCmdCh6
  | .adcCmdCh7 => adcCmdCh7
  | .kpRowsel0 => kpRowsel0
  | .kpRowsel1 => kpRowsel1
  | .kpRowsel2 => kpRowsel2
  | .kpRowsel3 => kpRowsel3

/-- The frame length is read off the front: bytes behind it do not matter (30_encoding.md R96). -/
theorem frameLength_append {bytes : List Byte} {n : Nat} (h : frameLength bytes = some n) (more : List Byte) :
    frameLength (bytes ++ more) = some n := by
  cases bytes with
  | nil => cases h
  | cons op tail =>
    simp only [frameLength, List.cons_append] at h ⊢
    split at h
    case h_1 | h_2 =>
      cases tail with
      | nil => cases h
      | cons len text => exact h
    all_goals exact h

end Sys2Proof.Laws.Encoding
end

section
/-! The host command port's decoder (30_encoding.md R90 to R99). `decodeHost_encode` and `decodeHost_ok` are its two
directions; `decodeHost_readsAhead` says that bytes behind a frame change nothing, so that a frame cut short can only be
`.truncated`. -/

namespace Sys2Proof

/-! ### Operands (30_encoding.md R92) -/

theorem toNat_ofInt_of_fitsByte {v : Int} (h : fitsByte v = true) : ((BitVec.ofInt 8 v).toNat : Int) = v := by
  simp only [fitsByte, Bool.and_eq_true, decide_eq_true_eq] at h
  rw [BitVec.toNat_ofInt]
  omega

@[simp] theorem fitsByte_toNat (b : Byte) : fitsByte b.toNat = true := by
  simp only [fitsByte, Bool.and_eq_true, decide_eq_true_eq]
  omega

theorem decodeText_encoded (mk : List Byte → Instr) {text : List Byte} (h : text.length ≤ 255) :
    decodeText mk (BitVec.ofNat 8 text.length :: text) = .ok (mk text, []) := by
  have hlen : text.length % 256 = text.length := by omega
  simp [decodeText, hlen]

theorem decodeText_ok {mk : List Byte → Instr} {bytes rest : List Byte} {i : Instr}
    (h : decodeText mk bytes = .ok (i, rest)) :
    ∃ text : List Byte, i = mk text ∧ text.length ≤ 255 ∧ bytes = BitVec.ofNat 8 text.length :: text ++ rest := by
  unfold decodeText at h
  split at h
  · cases h
  next len tail =>
    split at h
    next hlen =>
      cases h
      have htake : (tail.take len.toNat).length = len.toNat := by rw [List.length_take, min_eq_left hlen]
      exact ⟨_, rfl, by omega, by simp [htake]⟩
    · cases h

theorem decodeChannel_ok {mk : Int → Instr} {bytes rest : List Byte} {i : Instr}
    (h : decodeChannel mk bytes = .ok (i, rest)) : ∃ ch : Byte, i = mk ch.toNat ∧ bytes = ch :: rest := by
  unfold decodeChannel at h
  split at h
  · cases h
  · cases h
    exact ⟨_, rfl, rfl⟩

theorem decodeRowCol_ok {mk : Int → Int → Instr} {bytes rest : List Byte} {i : Instr}
    (h : decodeRowCol mk bytes = .ok (i, rest)) :
    ∃ r c : Byte, i = mk r.toNat c.toNat ∧ bytes = r :: c :: rest := by
  unfold decodeRowCol at h
  split at h
  · cases h
    exact ⟨_, _, rfl, rfl⟩
  · cases h

theorem tick_of_bytes (t : Tick) :
    t.extractLsb' 24 8 ++ t.extractLsb' 16 8 ++ t.extractLsb' 8 8 ++ t.extractLsb' 0 8 = t := by
  have h16 : t.extractLsb' 24 8 ++ t.extractLsb' 16 8 = t.extractLsb' 16 16 :=
    BitVec.extractLsb'_append_extractLsb'_eq_extractLsb' rfl
  have h8 : t.extractLsb' 16 16 ++ t.extractLsb' 8 8 = t.extractLsb' 8 24 :=
    BitVec.extractLsb'_append_extractLsb'_eq_extractLsb' rfl
  have h0 : t.extractLsb' 8 24 ++ t.extractLsb' 0 8 = t.extractLsb' 0 32 :=
    BitVec.extractLsb'_append_extractLsb'_eq_extractLsb' rfl
  rw [h16, h8, h0, BitVec.extractLsb'_eq_self]

theorem extractLsb'_append_byte {w : Nat} (x : BitVec w) (y : Byte) (n : Nat) :
    (x ++ y).extractLsb' (n + 8) 8 = x.extractLsb' n 8 := by
  rw [BitVec.extractLsb'_append_eq_of_le (by omega), Nat.add_sub_cancel]

theorem bytes_of_tick (t3 t2 t1 t0 : Byte) :
    (t3 ++ t2 ++ t1 ++ t0).extractLsb' 24 8 = t3 ∧ (t3 ++ t2 ++ t1 ++ t0).extractLsb' 16 8 = t2 ∧
      (t3 ++ t2 ++ t1 ++ t0).extractLsb' 8 8 = t1 ∧ (t3 ++ t2 ++ t1 ++ t0).extractLsb' 0 8 = t0 :=
  have lower := extractLsb'_append_byte (t3 ++ t2 ++ t1) t0
  have lower' := extractLsb'_append_byte (t3 ++ t2) t1
  ⟨(lower 16).trans ((lower' 8).trans BitVec.extractLsb'_append_eq_left),
    (lower 8).trans ((lower' 0).trans BitVec.extractLsb'_append_eq_right),
    (lower 0).trans BitVec.extractLsb'_append_eq_right, BitVec.extractLsb'_append_eq_right⟩

theorem edgeBits_fields (a b : Bit) :
    let f : Byte := 0#6 ++ BitVec.ofBool b ++ BitVec.ofBool a
    f.extractLsb' 2 6 = 0#6 ∧ f.getLsbD 0 = a ∧ f.getLsbD 1 = b := by
  cases a <;> cases b <;> decide

theorem edgeBits_of_reserved_zero : ∀ f : Byte, f.extractLsb' 2 6 = 0#6 →
    0#6 ++ BitVec.ofBool (f.getLsbD 1) ++ BitVec.ofBool (f.getLsbD 0) = f := by
  decide

theorem decodeEdge_encoded (a b : Bit) (t : Tick) : decodeEdge (encodeEdge a b t).tail = .ok (.encEdge a b t, []) := by
  obtain ⟨hzero, ha, hb⟩ := edgeBits_fields a b
  simp only [encodeEdge, List.tail_cons, decodeEdge, hzero, ha, hb, tick_of_bytes, if_true]

theorem decodeEdge_ok {bytes rest : List Byte} {i : Instr} (h : decodeEdge bytes = .ok (i, rest)) :
    ∃ (a b : Bit) (t : Tick), i = .encEdge a b t ∧ 0x20#8 :: bytes = encodeEdge a b t ++ rest := by
  unfold decodeEdge at h
  split at h
  next f t3 t2 t1 t0 tail =>
    split at h
    next hzero =>
      cases h
      obtain ⟨h3, h2, h1, h0⟩ := bytes_of_tick t3 t2 t1 t0
      refine ⟨_, _, _, rfl, ?_⟩
      simp only [encodeEdge, edgeBits_of_reserved_zero f hzero, h3, h2, h1, h0, List.cons_append, List.nil_append]
    · cases h
  · cases h

/-! ### Bytes behind a frame -/

/-- Where the decoder does not ask for more bytes, more bytes only lengthen the rest. -/
def ReadsAhead (decoder : List Byte → Except Reject (Instr × List Byte)) : Prop :=
  ∀ bytes more, decoder bytes ≠ .error .truncated →
    decoder (bytes ++ more) = (decoder bytes).map (Prod.map id (· ++ more))

theorem decodeText_readsAhead (mk : List Byte → Instr) : ReadsAhead (decodeText mk)
  | [], _, h => absurd rfl h
  | len :: tail, more, h => by
    by_cases hlen : len.toNat ≤ tail.length
    · have hmore : len.toNat ≤ (tail ++ more).length := by rw [List.length_append]; omega
      simp only [List.cons_append, decodeText, hlen, hmore, if_true, List.take_append_of_le_length,
        List.drop_append_of_le_length]
      rfl
    · exact absurd (by rw [decodeText, if_neg hlen]) h

theorem decodeChannel_readsAhead (mk : Int → Instr) : ReadsAhead (decodeChannel mk)
  | [], _, h => absurd rfl h
  | _ :: _, _, _ => rfl

theorem decodeRowCol_readsAhead (mk : Int → Int → Instr) : ReadsAhead (decodeRowCol mk)
  | [], _, h | [_], _, h => absurd rfl h
  | _ :: _ :: _, _, _ => rfl

theorem decodeEdge_readsAhead : ReadsAhead decodeEdge
  | [], _, h | [_], _, h | [_, _], _, h | [_, _, _], _, h | [_, _, _, _], _, h => absurd rfl h
  | f :: t3 :: t2 :: t1 :: t0 :: tail, more, _ => by
    simp only [List.cons_append, decodeEdge]
    split <;> rfl

theorem decodeHost_readsAhead : ReadsAhead decodeHost
  | [], _, h => absurd rfl h
  | op :: tail, more, h => by
    simp only [List.cons_append, decodeHost]
    split
    case h_4 | h_5 => exact decodeText_readsAhead _ tail more h
    case h_6 => exact decodeRowCol_readsAhead _ tail more h
    case h_9 | h_10 => exact decodeChannel_readsAhead _ tail more h
    case h_11 => exact decodeEdge_readsAhead tail more h
    all_goals rfl

/-! ### Both directions of the frame -/

theorem decodeHost_encode (p : KpParams) {i : Instr} (hs : i.surface = .hostPort) (hw : i.wellFormed = true) :
    decodeHost (encode p i) = .ok (i, []) := by
  cases i <;> cases hs
  case vfdWrite | vfdWriteBlinking => exact decodeText_encoded _ (of_decide_eq_true hw)
  case vfdSetCursor row col =>
    obtain ⟨hrow, hcol⟩ := Bool.and_eq_true_iff.mp hw
    simp only [encode, decodeHost, decodeRowCol, toNat_ofInt_of_fitsByte hrow, toNat_ofInt_of_fitsByte hcol]
  case adcRead ch | adcReadVoltage ch =>
    simp only [encode, decodeHost, decodeChannel, toNat_ofInt_of_fitsByte hw]
  case encEdge a b t => exact decodeEdge_encoded a b t
  all_goals rfl

theorem decodeHost_ok (p : KpParams) {bytes rest : List Byte} {i : Instr} (h : decodeHost bytes = .ok (i, rest)) :
    i.surface = .hostPort ∧ i.wellFormed = true ∧ bytes = encode p i ++ rest := by
  cases bytes with
  | nil => cases h
  | cons op tail =>
    simp only [decodeHost] at h
    split at h
    case h_4 | h_5 =>
      obtain ⟨text, rfl, hlen, rfl⟩ := decodeText_ok h
      exact ⟨rfl, decide_eq_true hlen, rfl⟩
    case h_6 =>
      obtain ⟨r, c, rfl, rfl⟩ := decodeRowCol_ok h
      exact ⟨rfl, by simp [Instr.wellFormed], by simp [encode]⟩
    case h_9 | h_10 =>
      obtain ⟨ch, rfl, rfl⟩ := decodeChannel_ok h
      exact ⟨rfl, by simp [Instr.wellFormed], by simp [encode]⟩
    case h_11 =>
      obtain ⟨a, b, t, rfl, hbytes⟩ := decodeEdge_ok h
      exact ⟨rfl, rfl, hbytes⟩
    case h_18 => cases h
    all_goals
      cases h
      exact ⟨rfl, rfl, rfl⟩

/-- Settles O2: a frame alone decodes, and the bytes behind it become the rest. -/
theorem hostFrameRoundTrip : Obligations.HostFrameRoundTrip := by
  unfold Obligations.HostFrameRoundTrip
  intro p i rest hs hw
  have hframe := decodeHost_encode p hs hw
  calc decodeHost (encode p i ++ rest)
      = (decodeHost (encode p i)).map (Prod.map id (· ++ rest)) :=
        decodeHost_readsAhead _ _ (by rw [hframe]; exact nofun)
    _ = .ok (i, rest) := by rw [hframe]; rfl

/-- Settles O3: the decoder inverted, opcode by opcode. -/
theorem hostDecodeTakesOneFrame : Obligations.HostDecodeTakesOneFrame := by
  unfold Obligations.HostDecodeTakesOneFrame
  intro p bytes rest i h
  exact decodeHost_ok p h

/-- Settles O4: what the decoder takes is one frame, and a frame's length is read from its first bytes. -/
theorem frameLengthIsWhatDecodeTakes : Obligations.FrameLengthIsWhatDecodeTakes := by
  unfold Obligations.FrameLengthIsWhatDecodeTakes
  intro p bytes rest i h
  obtain ⟨hs, hw, rfl⟩ := decodeHost_ok p h
  obtain ⟨-, -, hlen, -⟩ := Laws.Encoding.statement_of_instr i hw p
  rw [List.length_append, Nat.add_sub_cancel]
  exact ⟨Laws.Encoding.frameLength_append (hlen hs) rest, Nat.le_add_left ..⟩

/-- A proper beginning of a frame decodes to nothing else: otherwise the whole frame would leave bytes behind. -/
theorem decodeHost_take (p : KpParams) {i : Instr} (hs : i.surface = .hostPort) (hw : i.wellFormed = true) {n : Nat}
    (hn : n < (encode p i).length) : decodeHost ((encode p i).take n) = .error .truncated := by
  by_contra hne
  have hframe := decodeHost_readsAhead _ ((encode p i).drop n) hne
  rw [List.take_append_drop, decodeHost_encode p hs hw] at hframe
  cases hd : decodeHost ((encode p i).take n) with
  | error e => rw [hd] at hframe; cases hframe
  | ok r =>
    rw [hd] at hframe
    have hrest : [] = r.2 ++ (encode p i).drop n := congrArg Prod.snd (Except.ok.inj hframe)
    have hlen := congrArg List.length hrest
    simp only [List.length_nil, List.length_append, List.length_drop] at hlen
    omega

end Sys2Proof
end

section
/-! One step on the front request of the inbox: it runs, is illegal, or is refused (10_state.md R21; 30_encoding.md R90,
R96 to R98). -/

namespace Sys2Proof.Machine

/-! ### A request that runs -/

/-- A request outside any HOST operation, or NOTIFIER's edge, clashes with none (70_reset_and_hazards.md R305). -/
theorem clashes_eq_false {agent : Agent} {during : Bool} {i : Instr}
    (h : during = false ∨ (agent = .notifier ∧ ∃ a b t, i = .encEdge a b t)) :
    clashes agent during i = false ∧ (during && agent == .host) = false := by
  rcases h with rfl | ⟨rfl, a, b, t, rfl⟩
  · exact ⟨rfl, rfl⟩
  · cases during <;> exact ⟨rfl, rfl⟩

theorem pushRest_eq (agent : Agent) (during : Bool) (surface : Surface) (bytes : List Byte) (q : List Request) :
    pushRest agent during surface bytes q = if bytes = [] then q else .frame agent during surface bytes :: q := by
  cases bytes <;> rfl

theorem step_of_decode_ok {s : State} {agent : Agent} {during : Bool} {surface : Surface} {bytes rest : List Byte}
    {i : Instr} {q : List Request} (hin : s.inbox = .frame agent during surface bytes :: q)
    (hd : decode s.kpParams surface bytes = .ok (i, rest))
    (hrun : during = false ∨ (agent = .notifier ∧ ∃ a b t, i = .encEdge a b t)) :
    step s = exec i (s.accept agent (pushRest agent during surface rest q)) := by
  obtain ⟨hclash, hhost⟩ := clashes_eq_false hrun
  simp [step, fetch, hin, hd, hclash, hhost]

theorem step_of_operation {s : State} {agent : Agent} {during : Bool} {i : Instr} {q : List Request}
    (hin : s.inbox = .operation agent during i :: q)
    (hrun : during = false ∨ (agent = .notifier ∧ ∃ a b t, i = .encEdge a b t)) :
    step s = exec i (s.accept agent q) := by
  simp [step, fetch, hin, (clashes_eq_false hrun).1]

theorem step_of_idle {s : State} (hin : s.inbox = []) : step s = .next s := by
  simp [step, fetch, hin]

/-- Settles O10: a frame, an operation itself, and an empty inbox. -/
theorem stepRunsTheDecodedInstruction : Obligations.StepRunsTheDecodedInstruction := by
  unfold Obligations.StepRunsTheDecodedInstruction
  refine ⟨fun s agent during surface bytes rest i q hin hd hrun => ?_, fun s agent during i q hin hrun => ?_,
    fun s hin => ?_⟩
  · rw [step_of_decode_ok hin hd hrun, pushRest_eq]
    rfl
  · exact step_of_operation hin hrun
  · exact step_of_idle hin

/-! ### A frame that does not run -/

theorem step_of_truncated {s : State} {agent : Agent} {surface : Surface} {bytes : List Byte} {q : List Request}
    (hin : s.inbox = .frame agent false surface bytes :: q) (hd : decode s.kpParams surface bytes = .error .truncated) :
    step s = .refused .truncatedFrame := by
  simp [step, fetch, hin, hd]

/-- Settles O9: a proper beginning of a frame decodes to nothing but `.truncated`. -/
theorem truncatedFrameIsRefused : Obligations.TruncatedFrameIsRefused := by
  unfold Obligations.TruncatedFrameIsRefused
  intro s agent i n q hs hw hn hin
  exact step_of_truncated hin (decodeHost_take s.kpParams hs hw hn)

/-- The bytes decode to an illegal frame (30_encoding.md R97, R98). -/
def IsIllegal (bytes : List Byte) : Prop :=
  decodeHost bytes = .error .reservedBits ∨ ∃ op, decodeHost bytes = .error (.reservedOpcode op)

theorem step_of_illegal {s : State} {agent : Agent} {bytes : List Byte} {q : List Request}
    (hin : s.inbox = .frame agent false .hostPort bytes :: q) (hbytes : IsIllegal bytes) :
    step s = .next { s with
      inbox := pushRest agent false .hostPort (afterIllegal bytes) q
      issuer := agent
      results := s.results ++ [(agent, .status .illegalCommand)] } := by
  rcases hbytes with hd | ⟨op, hd⟩ <;> simp [step, fetch, hin, decode, hd] <;> rfl

/-- What an illegal frame leaves of the bytes issued with it: none, or a last part. -/
theorem pushRest_eq_append (agent : Agent) (bytes : List Byte) (q : List Request) :
    ∃ behind : List Request, (behind = [] ∨ behind = [.frame agent false .hostPort bytes]) ∧
      pushRest agent false .hostPort bytes q = behind ++ q := by
  cases bytes with
  | nil => exact ⟨[], .inl rfl, rfl⟩
  | cons b bs => exact ⟨_, .inr rfl, rfl⟩

theorem illegal_frame_yields_illegalCommand {s : State} {agent : Agent} {bytes rest : List Byte} {q : List Request}
    (hin : s.inbox = .frame agent false .hostPort bytes :: q) (hbytes : IsIllegal bytes)
    (hsuffix : afterIllegal bytes <:+ rest) :
    ∃ behind : List Request,
      (behind = [] ∨ ∃ tail, tail <:+ rest ∧ behind = [.frame agent false .hostPort tail]) ∧
      step s = .next { s with
        inbox := behind ++ q, issuer := agent, results := s.results ++ [(agent, .status .illegalCommand)] } := by
  obtain ⟨behind, hbehind, hpush⟩ := pushRest_eq_append agent (afterIllegal bytes) q
  refine ⟨behind, hbehind.imp_right fun h => ⟨_, hsuffix, h⟩, ?_⟩
  rw [step_of_illegal hin hbytes, hpush]

/-- No operation's opcode is one that R98 lists as reserved. -/
theorem hostOpcodes_not_reserved : ∀ op : Byte, op ∈ hostOpcodes → isReservedOpcode op = false := by
  decide

theorem decodeHost_of_reservedOpcode {op : Byte} (h : isReservedOpcode op = true) (rest : List Byte) :
    decodeHost (op :: rest) = .error (.reservedOpcode op) ∧ frameLength (op :: rest) = none := by
  have hop : op ∉ hostOpcodes := fun hmem => by simp [hostOpcodes_not_reserved op hmem] at h
  constructor
  · simp only [decodeHost]
    split
    case h_18 => rfl
    all_goals exact absurd (by decide) hop
  · simp only [frameLength]
    split
    case h_7 => simp [hop]
    all_goals exact absurd (by decide) hop

/-- Settles O7: a reserved opcode has no frame length, so nothing issued with it stays. -/
theorem reservedOpcodeIsIllegal : Obligations.ReservedOpcodeIsIllegal := by
  unfold Obligations.ReservedOpcodeIsIllegal
  intro s agent op rest q hop hin
  obtain ⟨hd, hlen⟩ := decodeHost_of_reservedOpcode hop rest
  refine illegal_frame_yields_illegalCommand hin (.inr ⟨op, hd⟩) ?_
  rw [afterIllegal, hlen]
  exact List.nil_suffix

/-- The reserved bits f[1][7:2] are zero only below 4. -/
theorem extractLsb'_reserved_ne_zero {f : Byte} (h : 4 ≤ f.toNat) : f.extractLsb' 2 6 ≠ 0#6 := by
  intro hzero
  have hdiv : f.toNat / 4 % 64 = 0 := by
    simpa [BitVec.extractLsb'_toNat, Nat.shiftRight_eq_div_pow] using congrArg BitVec.toNat hzero
  omega

/-- Settles O8: the frame's own six bytes are taken, and those behind it stay. -/
theorem edgeReservedBitsAreIllegal : Obligations.EdgeReservedBitsAreIllegal := by
  unfold Obligations.EdgeReservedBitsAreIllegal
  intro s agent f t3 t2 t1 t0 rest q hf hin
  refine illegal_frame_yields_illegalCommand hin (.inl ?_) (List.suffix_refl rest)
  simp only [decodeHost, decodeEdge, if_neg (extractLsb'_reserved_ne_zero hf)]

end Sys2Proof.Machine
end

section
/-! The three wires' decoders (30_encoding.md R100 to R111). `decodeWire_encode` is the display wire's round trip in
front of any further characters; a stream's is its induction. -/

namespace Sys2Proof

/-! ### The display's wire -/

@[simp] theorem onWire_offWire (x : Char7) : onWire (offWire x) = x := by
  simp [onWire, offWire]

/-- A character that is no control, and begins neither `04 00` nor `0D 0A`, is read as itself (30_encoding.md R105). -/
theorem decodeWire_character {x : Char7} {rest : List Char7} (hcontrol : x ∉ controlCodes)
    (hquery : ¬ (x = 0x04#7 ∧ rest.head? = some 0x00#7)) (hnewline : ¬ (x = 0x0D#7 ∧ rest.head? = some 0x0A#7)) :
    decodeWire (x :: rest) = .ok (.wireCharacter x, rest) := by
  simp only [controlCodes, List.mem_cons, List.not_mem_nil, or_false, not_or] at hcontrol
  obtain ⟨h08, h0B, h0C, h10, h19⟩ := hcontrol
  rw [decodeWire, if_neg h19, if_neg hquery, if_neg hnewline, if_neg h08, if_neg h0B, if_neg h0C, if_neg h10]

/-- Every display command is read back in front of any characters, if its character is. -/
theorem decodeWire_encode (p : KpParams) {i : Instr} (rest : List Char7) (hs : i.surface = .displayWire)
    (hchar : ∀ x, i = .wireCharacter x → decodeWire (x :: rest) = .ok (i, rest)) :
    decodeWire ((encode p i).map onWire ++ rest) = .ok (i, rest) := by
  cases i <;> cases hs
  case wireSetRow rr => exact congrArg (fun x => Except.ok (Instr.wireSetRow x, rest)) (onWire_offWire rr)
  case wireSetCol cc => exact congrArg (fun x => Except.ok (Instr.wireSetCol x, rest)) (onWire_offWire cc)
  case wireCharacter x => simpa [encode] using hchar x rfl
  all_goals rfl

theorem decode_displayWire (p : KpParams) {i : Instr} (hs : i.surface = .displayWire) (hw : i.wellFormed = true) :
    decode p .displayWire (encode p i) = .ok (i, []) := by
  have hd : decodeWire ((encode p i).map onWire ++ []) = .ok (i, []) :=
    decodeWire_encode p [] hs fun x hi => by
      subst hi
      exact decodeWire_character (by simpa [Instr.wellFormed] using hw) (by simp) (by simp)
  rw [List.append_nil] at hd
  rw [decode, hd]
  rfl

/-! ### The ADC wire and the keypad bus -/

theorem decode_adcWire (p : KpParams) {i : Instr} (hs : i.surface = .adcWire) :
    decode p .adcWire (encode p i) = .ok (i, []) := by
  cases i <;> cases hs <;> rfl

theorem decode_keypadBus {p : KpParams} (hp : p.rowPat.Nodup) {i : Instr} (hs : i.surface = .keypadBus) :
    decode p .keypadBus (encode p i) = .ok (i, []) := by
  simp only [KpParams.rowPat, List.nodup_cons, List.mem_cons, List.not_mem_nil, or_false, not_or] at hp
  obtain ⟨⟨h01, h02, h03⟩, ⟨h12, h13⟩, h23, -⟩ := hp
  cases i <;> cases hs <;>
    simp [encode, decode, decodeRowPattern, Ne.symm h01, Ne.symm h02, Ne.symm h03, Ne.symm h12, Ne.symm h13, Ne.symm h23]

/-- Settles O5: surface by surface. -/
theorem wireCommandRoundTrip : Obligations.WireCommandRoundTrip := by
  unfold Obligations.WireCommandRoundTrip
  intro p i hp hhost hw
  cases hs : i.surface with
  | hostPort => exact absurd hs hhost
  | displayWire => exact decode_displayWire p hs hw
  | adcWire => exact decode_adcWire p hs
  | keypadBus => exact decode_keypadBus hp hs

/-! ### A stream of display commands (30_encoding.md R105) -/

theorem decodeWire_printable {x : Char7} (h : Machine.isPrintable x = true) (rest : List Char7) :
    decodeWire (x :: rest) = .ok (.wireCharacter x, rest) := by
  have hmin : 0x20 ≤ x.toNat := by
    simp only [Machine.isPrintable, Bool.and_eq_true, decide_eq_true_eq] at h
    exact h.1
  have hne : ∀ c : Char7, c.toNat < 0x20 → x ≠ c := fun c hc hx => by subst hx; omega
  refine decodeWire_character ?_ (fun hx => hne _ (by decide) hx.1) (fun hx => hne _ (by decide) hx.1)
  intro hmem
  have : ∀ c ∈ controlCodes, c.toNat < 0x20 := by decide
  exact hne x (this x hmem) rfl

theorem parseWire_cons {fuel : Nat} {xs rest : List Char7} {i : Instr} {is : List Instr}
    (h : decodeWire xs = .ok (i, rest)) (hrest : parseWire fuel rest = .ok is) :
    parseWire (fuel + 1) xs = .ok (i :: is) := by
  cases xs with
  | nil => cases h
  | cons x xs => simp only [parseWire, h, hrest]

theorem encode_length_pos (p : KpParams) (i : Instr) : 0 < (encode p i).length := by
  cases i <;> exact Nat.succ_pos _

/-- A stream is parsed back with any fuel that is at least its length: each command takes some of both. -/
theorem parseWire_encode (p : KpParams) (is : List Instr) (fuel : Nat)
    (his : ∀ i ∈ is, i.surface = .displayWire ∧ ∀ x, i = .wireCharacter x → Machine.isPrintable x = true)
    (hfuel : (is.flatMap (encode p)).length ≤ fuel) :
    parseWire fuel ((is.flatMap (encode p)).map onWire) = .ok is := by
  induction is generalizing fuel with
  | nil => simp [parseWire]
  | cons i is ih =>
    obtain ⟨⟨hs, hprint⟩, his⟩ := List.forall_mem_cons.mp his
    rw [List.flatMap_cons, List.length_append] at hfuel
    have hpos := encode_length_pos p i
    obtain ⟨fuel, rfl⟩ : ∃ n, fuel = n + 1 := ⟨fuel - 1, by omega⟩
    rw [List.flatMap_cons, List.map_append]
    refine parseWire_cons (decodeWire_encode p _ hs fun x hi => ?_) (ih fuel his (by omega))
    rw [hi]
    exact decodeWire_printable (hprint x hi) _

/-- Settles O6: the stream's own length is fuel enough. -/
theorem printableStreamParses : Obligations.PrintableStreamParses := by
  unfold Obligations.PrintableStreamParses
  intro p is his
  exact parseWire_encode p is _ his le_rfl

end Sys2Proof
end

section
/-! The converter's frame (30_encoding.md R107 to R109): the command word of a channel, the value of ten sampled levels,
and the transaction where every answer is written in the state. -/

namespace Sys2Proof.Machine

/-! ### The command word (R107) -/

theorem toNat_channelBits {ch : Nat} (h : ch ≤ 7) : (channelBits ch).toNat = ch := by
  rw [channelBits, BitVec.toNat_ofInt]
  omega

theorem commandWord_eq_ofNat : ∀ c : BitVec 3, commandWord c = BitVec.ofNat 5 (24 + c.toNat) := by
  decide

theorem commandBits_commandWord : ∀ c : BitVec 3, commandBits (commandWord c) = channelCommand c.toNat := by
  decide

/-- Settles O39: the eight command words, for a channel operand that is one of them. -/
theorem commandWordOfAChannel : Obligations.CommandWordOfAChannel := by
  unfold Obligations.CommandWordOfAChannel
  intro ch h
  rw [commandBits_commandWord, commandWord_eq_ofNat, toNat_channelBits h, BitVec.toNat_ofNat]
  exact ⟨by omega, rfl⟩

/-! ### The assembled value (R109) -/

theorem assembleNat_lt (ds : List Bit) (raw : Nat) : assembleNat ds raw < (raw + 1) * 2 ^ ds.length := by
  induction ds generalizing raw with
  | nil => simp [assembleNat]
  | cons d ds ih =>
    have hd := d.toNat_le
    calc assembleNat ds (2 * raw + d.toNat)
        < (2 * raw + d.toNat + 1) * 2 ^ ds.length := ih _
      _ ≤ ((raw + 1) * 2) * 2 ^ ds.length := Nat.mul_le_mul_right _ (by omega)
      _ = (raw + 1) * 2 ^ (ds.length + 1) := by rw [Nat.pow_succ, Nat.mul_assoc, Nat.mul_comm 2]

/-- Doubling and adding, first level first, is the sum of `dk * 2^(9-k)`. -/
theorem assembleNat_eq_rawSum {bits : List Bit} (h : bits.length = 10) : assembleNat bits 0 = rawSum bits := by
  obtain ⟨d0, d1, d2, d3, d4, d5, d6, d7, d8, d9, rfl⟩ := ten_bits h
  have hsum : rawSum [d0, d1, d2, d3, d4, d5, d6, d7, d8, d9] =
      d0.toNat * 2 ^ 9 + (d1.toNat * 2 ^ 8 + (d2.toNat * 2 ^ 7 + (d3.toNat * 2 ^ 6 + (d4.toNat * 2 ^ 5 +
        (d5.toNat * 2 ^ 4 + (d6.toNat * 2 ^ 3 + (d7.toNat * 2 ^ 2 + (d8.toNat * 2 ^ 1 + (d9.toNat * 2 ^ 0 + 0))))))))) :=
    rfl
  simp only [hsum, assembleNat]
  omega

theorem rawSum_lt {bits : List Bit} (h : bits.length = 10) : rawSum bits < 1024 := by
  have hlt := assembleNat_lt bits 0
  rw [assembleNat_eq_rawSum h, h] at hlt
  exact hlt

/-! ### The transaction with the answers written in the state (R108) -/

/-- The outputs a transaction leaves: deselected, the clock low, MOSI at the last command bit. -/
theorem stepOutputs_transaction (w : BitVec 5) (a : Adc) :
    stepOutputs resultSteps (stepOutputs (commandSteps w) a) =
      { a with csOut := some true, clkOut := some false, mosiOut := some (w.getLsbD 0) } := rfl

theorem commandWord_getLsbD_zero : ∀ c : BitVec 3, (commandWord c).getLsbD 0 = c.toNat.testBit 0 := by
  decide

theorem adcTransaction_answered (c : BitVec 3) {s : State} {bits : List Bit} {acks : List Bool}
    {levels : List (Option Bit)} (h : AnswersFrame s bits acks levels) :
    adcTransaction c s = (some (assemble bits), afterTransaction s c.toNat bits acks levels) := by
  obtain ⟨hbits, hacks, hlevels⟩ := h
  have hcommand := runPins_answered (commandSteps (commandWord c)) [] [] (List.replicate 23 true ++ acks)
    (bits.map some ++ levels) s rfl hacks hlevels
  have hresult := fun u => runPins_answered resultSteps [] bits acks levels u hbits
  unfold adcTransaction
  rw [hcommand]
  simp only [State.sendCommand]
  rw [hresult _ rfl rfl]
  simp only [afterTransaction, stepOutputs_transaction, transactionEvents_eq c hbits, commandWord_eq_ofNat,
    ← commandWord_getLsbD_zero, List.nil_append, List.append_assoc]

/-- A frame whose every answer is written in the state delivers the sum of its levels (30_encoding.md R109). -/
theorem sendFrame_answered (c : BitVec 3) {s : State} {bits : List Bit} {acks : List Bool}
    {levels : List (Option Bit)} (h : AnswersFrame s bits acks levels) :
    sendFrame c s = { afterTransaction s c.toNat bits acks levels with
      results := s.results ++ [(s.issuer, .raw .ok (BitVec.ofNat 10 (rawSum bits)))] } := by
  simp only [sendFrame, adcTransaction_answered c h, transactionResult, assemble, assembleNat_eq_rawSum h.1]
  rfl

/-- On an initialized unit ADC_READ of a valid channel is that channel's frame (R107; 42_analog.md R181). -/
theorem exec_adcRead_of_ready {ch : Nat} (h : ch ≤ 7) {s : State} (hi : s.adc.init = true) :
    exec (.adcRead ch) s = .next (sendFrame (channelBits ch) s) := by
  have hv : validChannel ch = true := by simp [validChannel]; omega
  simp only [exec, execAdcRead, readChannel_of_ready ch s hv hi, sendFrame]

/-- Settles O36: the read is its channel's frame, which leaves the converter at the word it was sent. -/
theorem adcReadSamplesTheChannel : Obligations.AdcReadSamplesTheChannel := by
  unfold Obligations.AdcReadSamplesTheChannel
  intro s ch bits acks levels hi hch h
  refine ⟨rawSum_lt h.1, (afterTransaction s ch bits acks levels).converter, ?_⟩
  rw [exec_adcRead_of_ready hch hi, sendFrame_answered _ h, toNat_channelBits hch]

theorem exec_adcFrame {i : Instr} {ch : Nat} (h : (i, ch) ∈ adcFrames) (s : State) :
    ch ≤ 7 ∧ exec i s = .next (sendFrame (channelBits ch) s) := by
  simp only [adcFrames, List.mem_cons, Prod.mk.injEq, List.not_mem_nil, or_false] at h
  rcases h with ⟨rfl, rfl⟩ | ⟨rfl, rfl⟩ | ⟨rfl, rfl⟩ | ⟨rfl, rfl⟩ | ⟨rfl, rfl⟩ | ⟨rfl, rfl⟩ | ⟨rfl, rfl⟩ | ⟨rfl, rfl⟩ <;>
    exact ⟨by decide, rfl⟩

/-- Settles O40: a frame and ADC_READ of its channel are one transaction. -/
theorem commandFramesRunTheTransaction : Obligations.CommandFramesRunTheTransaction := by
  unfold Obligations.CommandFramesRunTheTransaction
  intro s i ch hmem
  obtain ⟨hch, hexec⟩ := exec_adcFrame hmem s
  refine ⟨fun hi => ?_, fun bits acks levels h => ?_⟩
  · rw [hexec, exec_adcRead_of_ready hch hi]
  · rw [hexec, sendFrame_answered _ h, toNat_channelBits hch]

end Sys2Proof.Machine
end

section
/-! The serial character (30_encoding.md R125), the keypad bus and its tables (R110 to R114), and the sample words and
lines. -/

namespace Sys2Proof.Machine

/-! ### The serial character -/

/-- The seven data bits of a character, least significant first. -/
theorem toNat_eq_sum_bits : ∀ x : Char7,
    (x.getLsbD 0).toNat + 2 * (x.getLsbD 1).toNat + 4 * (x.getLsbD 2).toNat + 8 * (x.getLsbD 3).toNat +
      16 * (x.getLsbD 4).toNat + 32 * (x.getLsbD 5).toNat + 64 * (x.getLsbD 6).toNat = x.toNat := by
  decide

/-- With its parity bit a character has an even number of ones. -/
theorem parityBit_makes_even : ∀ x : Char7,
    ((x.getLsbD 0).toNat + (x.getLsbD 1).toNat + (x.getLsbD 2).toNat + (x.getLsbD 3).toNat + (x.getLsbD 4).toNat +
      (x.getLsbD 5).toNat + (x.getLsbD 6).toNat + (parityBit x).toNat) % 2 = 0 := by
  decide

/-- Settles O28. -/
theorem serialFrameIs7E1 : Obligations.SerialFrameIs7E1 := by
  unfold Obligations.SerialFrameIs7E1
  intro b
  have hlow : (onWire b).toNat = b.toNat % 128 := BitVec.toNat_setWidth 7 b
  exact ⟨⟨_, _, _, _, _, _, _, _, rfl, (toNat_eq_sum_bits _).trans hlow, parityBit_makes_even _⟩, fun _ => rfl⟩

/-! ### The row selections -/

theorem exec_rowSelect {s : State} {i : Instr} {b : Byte} (h : (i, b) ∈ rowSelects s.kpParams) :
    exec i s = .next (busWrite s.kpParams.addr b s) := by
  simp only [rowSelects, List.mem_cons, Prod.mk.injEq, List.not_mem_nil, or_false] at h
  rcases h with ⟨rfl, rfl⟩ | ⟨rfl, rfl⟩ | ⟨rfl, rfl⟩ | ⟨rfl, rfl⟩ <;> rfl

theorem busWrite_of_ok (addr : BitVec 7) (b : Byte) {s : State} (h : s.nextAck = true) :
    busWrite addr b s = { s.dropAck with
      expander := { latch := b }, events := s.events ++ [.busWrite addr b true] } := by
  simp [busWrite, h, State.record]

theorem busWrite_of_failed (addr : BitVec 7) (b : Byte) {s : State} (h : s.nextAck = false) :
    busWrite addr b s = { s.dropAck with events := s.events ++ [.busWrite addr b false] } := by
  simp [busWrite, h, State.record]

/-- Settles O52. -/
theorem rowSelectWritesThePattern : Obligations.RowSelectWritesThePattern := by
  unfold Obligations.RowSelectWritesThePattern
  intro s i b h
  rw [exec_rowSelect h]
  exact ⟨fun hok => by rw [busWrite_of_ok _ _ hok], fun hfail => by rw [busWrite_of_failed _ _ hfail]⟩

/-! ### The key table -/

/-- In a table whose keys are distinct, looking a key up finds exactly its entries. -/
theorem lookup_eq_some_iff_mem {α β : Type} [BEq α] [LawfulBEq α] {l : List (α × β)} (h : (l.map Prod.fst).Nodup) (a : α)
    (b : β) : l.lookup a = some b ↔ (a, b) ∈ l := by
  rw [List.lookup_eq_some_iff]
  constructor
  · rintro ⟨before, after, rfl, -⟩
    exact List.mem_append_right _ (List.mem_cons_self ..)
  · intro hmem
    obtain ⟨before, after, rfl⟩ := List.append_of_mem hmem
    refine ⟨before, after, rfl, fun p hp => ?_⟩
    rw [List.map_append, List.map_cons, List.nodup_append] at h
    simpa using (h.2.2 p.1 (List.mem_map_of_mem hp) a (List.mem_cons_self ..)).symm

theorem defaultKeymap_nodup : (Config.defaultKeymap.map Prod.fst).Nodup := by decide

theorem standard_legal (addr : BitVec 7) : (KpParams.standard addr).Legal := by
  have hrows : ∀ b ∈ [0xFE#8, 0xFD#8, 0xFB#8, 0xF7#8], isRowPattern b = true := by decide
  exact ⟨hrows, rfl, defaultKeymap_nodup⟩

/-- Row `i`, column `j` of the table: pattern `i` with bit `4 + j` cleared (30_encoding.md R114). -/
theorem defaultKeymap_byte : ∀ i < 4, ∀ j < 4,
    (Config.defaultKeymap.map Prod.fst).getD (4 * i + j) 0#8 =
      [0xFE#8, 0xFD#8, 0xFB#8, 0xF7#8].getD i 0#8 &&& ~~~(BitVec.twoPow 8 (4 + j)) := by
  decide

/-- Settles O53. -/
theorem keypadTablesAreSound : Obligations.KeypadTablesAreSound := by
  unfold Obligations.KeypadTablesAreSound
  refine ⟨fun _ _ => rfl, fun addr => ⟨standard_legal addr, ?_, rfl, fun i j hi hj => defaultKeymap_byte i hi j hj,
    fun column k => lookup_eq_some_iff_mem defaultKeymap_nodup column k⟩⟩
  have hzeros : ∀ b ∈ [0xFE#8, 0xFD#8, 0xFB#8, 0xF7#8], ((List.range 8).filter fun k => !b.getLsbD k).length = 1 := by
    decide
  exact hzeros

/-! ### Sample words and lines -/

/-- Settles O1: the decoder evaluated on each word. -/
theorem sampleWordsDecode : Obligations.SampleWordsDecode := by
  unfold Obligations.SampleWordsDecode
  intro addr
  exact ⟨rfl, rfl, rfl, rfl, rfl, rfl, rfl, rfl, rfl⟩

/-- Settles O60: the parser and the encoder evaluated on each line. -/
theorem sampleLinesAreTheirFrames : Obligations.SampleLinesAreTheirFrames := by
  unfold Obligations.SampleLinesAreTheirFrames
  decide

end Sys2Proof.Machine
end

section
/-! The display's wire commands one at a time (41_display.md R148 to R161): the response of the reference display to each,
where R163 states one, as an equation of the state. -/

namespace Sys2Proof.Machine

/-! ### The responses R163 states -/

theorem displaySetRow_of_grid {rr : Char7} (hmin : 1 ≤ rr.toNat) (hmax : rr.toNat ≤ 6) (s : State) :
    displaySetRow rr s = { s with display := { s.display with row := rr.toNat - 1 } } := if_pos ⟨hmin, hmax⟩

theorem displaySetCol_of_grid {cc : Char7} (hmin : 1 ≤ cc.toNat) (hmax : cc.toNat ≤ 40) (s : State) :
    displaySetCol cc s = { s with display := { s.display with col := cc.toNat - 1 } } := if_pos ⟨hmin, hmax⟩

theorem displayNewline_of_row_lt {s : State} (hscroll : s.display.scroll = true) (hrow : s.display.row < 5) :
    displayNewline s = { s with display := { s.display with row := s.display.row + 1, col := 0 } } :=
  (if_pos hscroll).trans (if_pos hrow)

theorem displayNewline_of_last_row {s : State} (hscroll : s.display.scroll = true) (hrow : s.display.row = 5) :
    displayNewline s = { s with display := { s.display with
      grid := s.display.grid.drop 1 ++ [List.replicate 40 0x20#8], col := 0 } } :=
  (if_pos hscroll).trans (if_neg (by rw [hrow]; decide))

theorem displayCharacter_of_printable {x : Char7} {s : State} (hx : isPrintable x = true) (hcol : s.display.col < 40) :
    displayCharacter x s = { s with display := { s.display with
      grid := putCell s.display.grid s.display.row s.display.col (offWire x), col := s.display.col + 1 } } :=
  if_pos ⟨hx, hcol⟩

/-! ### The responses R163 leaves free -/

theorem displaySetRow_of_not_grid {rr : Char7} (h : rr.toNat = 0 ∨ 6 < rr.toNat) :
    displaySetRow rr = displayUnspecified :=
  funext fun _ => if_neg fun hgrid => by simp only [Config.rows] at hgrid; omega

theorem displaySetCol_of_not_grid {cc : Char7} (h : cc.toNat = 0 ∨ 40 < cc.toNat) :
    displaySetCol cc = displayUnspecified :=
  funext fun _ => if_neg fun hgrid => by simp only [Config.cols] at hgrid; omega

theorem displayNewline_of_no_scroll {s : State} (h : s.display.scroll = false) :
    displayNewline s = displayUnspecified s :=
  if_neg (by simp [h])

theorem isPrintable_iff {x : Char7} : isPrintable x = true ↔ 0x20 ≤ x.toNat ∧ x.toNat ≤ 0x7E := by
  simp [isPrintable]

theorem displayCharacter_of_not_shown {x : Char7} {s : State}
    (h : x.toNat < 0x20 ∨ x.toNat = 0x7F ∨ 40 ≤ s.display.col) : displayCharacter x s = displayUnspecified s := by
  refine if_neg fun ⟨hx, hcol⟩ => ?_
  obtain ⟨hmin, hmax⟩ := isPrintable_iff.mp hx
  simp only [Config.cols] at hcol
  omega

/-- Bytes sent and the display's whole state free: all that a command without a stated response does. -/
theorem displayUnspecified_emit (bytes : List Byte) (s : State) :
    ∃ d : Display, d.wf ∧ displayUnspecified (emit bytes s) =
      { emit bytes s with display := d, env := { s.env with draws := s.env.draws + 1 } } :=
  ⟨_, Display.unspecified_wf s.env.draws, by rw [displayUnspecified, emit_eq]⟩

/-! ### The commands as instructions -/

theorem exec_wireCharacter (x : Char7) (s : State) :
    exec (.wireCharacter x) s = .next (displayCharacter x (emit [offWire x] s)) := by
  change Host.Outcome.next (displayCharacter (onWire (offWire x)) (emit [offWire x] s)) = _
  rw [onWire_offWire]

/-- Settles O29. -/
theorem wireCommandsWithStatedEffect : Obligations.WireCommandsWithStatedEffect := by
  unfold Obligations.WireCommandsWithStatedEffect
  exact fun s => ⟨rfl, rfl,
    fun rr hmin hmax => congrArg Host.Outcome.next (displaySetRow_of_grid hmin hmax (emit [0x19#8, 0x11#8, offWire rr] s)),
    fun cc hmin hmax => congrArg Host.Outcome.next (displaySetCol_of_grid hmin hmax (emit [0x19#8, 0x13#8, offWire cc] s)),
    rfl, rfl, rfl⟩

/-- Settles O30. -/
theorem wireNewlineAndCharacter : Obligations.WireNewlineAndCharacter := by
  unfold Obligations.WireNewlineAndCharacter
  refine fun s => ⟨fun hscroll hrow => ?_, fun hscroll hrow => ?_, fun x hmin hmax hcol => ?_⟩
  · exact congrArg Host.Outcome.next (displayNewline_of_row_lt (s := emit [0x0D#8, 0x0A#8] s) hscroll hrow)
  · exact congrArg Host.Outcome.next (displayNewline_of_last_row (s := emit [0x0D#8, 0x0A#8] s) hscroll hrow)
  · have hshown := displayCharacter_of_printable (s := emit [offWire x] s) (isPrintable_iff.mpr ⟨hmin, hmax⟩) hcol
    rw [exec_wireCharacter, hshown]
    rfl

/-- Settles O31: every form sends its bytes, and its response is the free one. -/
theorem wireCommandsWithFreeEffect : Obligations.WireCommandsWithFreeEffect := by
  unfold Obligations.WireCommandsWithFreeEffect
  intro s i hi
  have hfree : exec i s = .next (displayUnspecified (emit (encode s.kpParams i) s)) := by
    rcases hi with rfl | rfl | rfl | rfl | rfl | ⟨rr, rfl, hrr⟩ | ⟨cc, rfl, hcc⟩ | ⟨rfl, hscroll⟩ | ⟨x, rfl, hx⟩
    · rfl
    · rfl
    · rfl
    · rfl
    · rfl
    · exact congrArg Host.Outcome.next (congrFun (displaySetRow_of_not_grid hrr) (emit _ s))
    · exact congrArg Host.Outcome.next (congrFun (displaySetCol_of_not_grid hcc) (emit _ s))
    · exact congrArg Host.Outcome.next (displayNewline_of_no_scroll (s := emit _ s) hscroll)
    · rw [exec_wireCharacter, displayCharacter_of_not_shown (by rwa [emit_display])]
      rfl
  obtain ⟨d, hd, heq⟩ := displayUnspecified_emit (encode s.kpParams i) s
  exact ⟨d, hd, by rw [hfree, heq]⟩

end Sys2Proof.Machine
end

section
/-! The session's operations (41_display.md R130 to R133, R144, R145): each as an equation of the state. -/

namespace Sys2Proof.Machine

/-! ### The session guard -/

theorem withSession_of_none {s : State} (h : s.vfd.session = false) (live : State) :
    withSession s live = { s with results := s.results ++ [(s.issuer, .status .noSession)] } :=
  if_neg (by simp [h])

theorem withSession_of_live {s : State} (h : s.vfd.session = true) (live : State) : withSession s live = live :=
  if_pos h

/-- Settles O17: the guard, operation by operation. -/
theorem noSessionGuard : Obligations.NoSessionGuard := by
  unfold Obligations.NoSessionGuard
  refine fun s h => ⟨fun i hi => ?_, congrArg Host.Outcome.next (if_neg (by simp [h]))⟩
  rcases hi with rfl | rfl | ⟨text, rfl⟩ | ⟨text, rfl⟩ | ⟨r, c, rfl⟩ <;>
    exact congrArg Host.Outcome.next (withSession_of_none h _)

/-! ### VFD_OPEN and VFD_CLOSE -/

theorem openSession_of_live {s : State} (h : s.vfd.session = true) : openSession s = (false, s) := if_pos h

theorem openSession_of_serialOpen_failed {s : State} (h : s.vfd.session = false) (hopen : s.nextAck = false) :
    openSession s = (false, serialOpen Config.port s.vfd.lineCfg s) := by
  simp [openSession, h, hopen]

theorem openSession_of_setRts_failed {s : State} (h : s.vfd.session = false) (hopen : s.nextAck = true)
    (hrts : (serialOpen Config.port s.vfd.lineCfg s).nextAck = false) :
    openSession s = (false, serialClose (setRts true (serialOpen Config.port s.vfd.lineCfg s))) := by
  simp [openSession, h, hopen, hrts]

theorem openSession_of_ok {s : State} (h : s.vfd.session = false) (hopen : s.nextAck = true)
    (hrts : (serialOpen Config.port s.vfd.lineCfg s).nextAck = true) :
    openSession s = (true, startSession (setRts true (serialOpen Config.port s.vfd.lineCfg s))) := by
  simp [openSession, h, hopen, hrts]

theorem exec_vfdOpen {s t : State} {started : Bool} (h : openSession s = (started, t)) :
    exec .vfdOpen s = .next (t.deliver (.status (if started then .ok else .portError))) := by
  simp only [exec, execVfdOpen, h]

theorem SameOutsideDisplay.trans {s t u : State} (h : SameOutsideDisplay s t) (h' : SameOutsideDisplay t u) :
    SameOutsideDisplay s u := by
  obtain ⟨a1, a2, a3, a4, a5, a6, a7, a8, a9, a10⟩ := h
  obtain ⟨b1, b2, b3, b4, b5, b6, b7, b8, b9, b10⟩ := h'
  exact ⟨b1.trans a1, b2.trans a2, b3.trans a3, b4.trans a4, b5.trans a5, b6.trans a6, b7.trans a7, b8.trans a8,
    b9.trans a9, b10.trans a10⟩

/-- `t` is `s` but for the ok/fail answers taken and the history: what SerialOpen and SetRTS can do. -/
structure TakesAcks (es : List Event) (s t : State) : Prop where
  events : t.events = s.events ++ es
  vfd : t.vfd = s.vfd
  link : t.link = s.link
  display : t.display = s.display
  rx : t.env.rx = s.env.rx
  results : t.results = s.results
  outside : SameOutsideDisplay s t

theorem TakesAcks.trans {a b : List Event} {s t u : State} (h : TakesAcks a s t) (h' : TakesAcks b t u) :
    TakesAcks (a ++ b) s u :=
  ⟨by rw [h'.events, h.events, List.append_assoc], h'.vfd.trans h.vfd, h'.link.trans h.link,
    h'.display.trans h.display, h'.rx.trans h.rx, h'.results.trans h.results, h.outside.trans h'.outside⟩

theorem dropAck_record_takesAcks (e : Event) (s : State) : TakesAcks [e] s (s.dropAck.record e) := by
  constructor <;> simp [SameOutsideDisplay, dropAck_env]

theorem serialOpen_takesAcks (port : String) (cfg : LineCfg) (s : State) :
    TakesAcks [.serialOpen port cfg s.nextAck] s (serialOpen port cfg s) := dropAck_record_takesAcks _ s

theorem setRts_takesAcks (level : Bit) (s : State) : TakesAcks [.setRts level s.nextAck] s (setRts level s) :=
  dropAck_record_takesAcks _ s

theorem serialClose_takesAcks (s : State) : TakesAcks [.serialClose] s (serialClose s) := by
  constructor <;> simp [serialClose, SameOutsideDisplay]

theorem startSession_eq (s : State) : startSession s = { s with
    vfd := { s.vfd with session := true, rts := true, cursorRow := 0, cursorCol := 0 }
    events := s.events ++ [.delay 100000, .serialTx 0x10#8]
    link := { tx := s.link.tx ++ [serialFrame 0x10#8] }
    display := { s.display with scroll := true } } := by
  simp [startSession, sendScrollEnable, displayScrollEnable, emit_eq, State.moveCursor, delay, State.record,
    Config.openInitSeq, Config.ms, Config.openWaitMs]

theorem TakesAcks.deliver_results {es : List Event} {s t : State} (h : TakesAcks es s t) (r : Result) :
    (t.deliver r).results = s.results ++ [(s.issuer, r)] := by
  obtain ⟨-, -, -, -, -, -, hissuer, -⟩ := h.outside
  rw [State.deliver_results, h.results, hissuer]

/-- Settles O13: the two answers are taken, then the session starts. -/
theorem openStartsTheSession : Obligations.OpenStartsTheSession := by
  unfold Obligations.OpenStartsTheSession
  intro s h hopen hrts
  have hport := (serialOpen_takesAcks Config.port s.vfd.lineCfg s).trans (setRts_takesAcks true _)
  rw [hopen, hrts] at hport
  have hstart := exec_vfdOpen (openSession_of_ok h hopen hrts)
  rw [startSession_eq] at hstart
  refine ⟨_, hstart, ?_, ?_, ?_, ?_, hport.deliver_results _, hport.outside, hport.rx⟩
  · simp [hport.vfd]
  · simp [hport.events]
  · simp [hport.link]
  · simp [hport.display]

/-- Settles O14: what was answered before the failure is all that moved. -/
theorem openFailsWithPortError : Obligations.OpenFailsWithPortError := by
  unfold Obligations.OpenFailsWithPortError
  refine ⟨fun s h => ?_, fun s h hopen => ?_, fun s h hopen hrts => ?_⟩
  · exact exec_vfdOpen (openSession_of_live h)
  · have hport := serialOpen_takesAcks Config.port s.vfd.lineCfg s
    rw [hopen] at hport
    exact ⟨_, exec_vfdOpen (openSession_of_serialOpen_failed h hopen), hport.vfd, hport.link, hport.display,
      hport.events, hport.deliver_results _, hport.outside⟩
  · have hport := ((serialOpen_takesAcks Config.port s.vfd.lineCfg s).trans (setRts_takesAcks true _)).trans
      (serialClose_takesAcks _)
    rw [hopen, hrts] at hport
    exact ⟨_, exec_vfdOpen (openSession_of_setRts_failed h hopen hrts), hport.vfd, hport.link, hport.display,
      hport.events, hport.deliver_results _, hport.outside⟩

/-- Settles O15. -/
theorem closeEndsTheSession : Obligations.CloseEndsTheSession := by
  unfold Obligations.CloseEndsTheSession
  exact ⟨fun _ _ => rfl, fun _ h => congrArg Host.Outcome.next (withSession_of_live h _),
    fun _ h => congrArg Host.Outcome.next (withSession_of_none h _)⟩

/-! ### VFD_CLEAR and VFD_SET_CURSOR -/

/-- Settles O16. -/
theorem clearHomesTheCursor : Obligations.ClearHomesTheCursor := by
  unfold Obligations.ClearHomesTheCursor
  refine ⟨fun _ _ => rfl, fun _ h => congrArg Host.Outcome.next (withSession_of_none h _), fun s h => ?_⟩
  refine (congrArg Host.Outcome.next (withSession_of_live h _)).trans ?_
  simp [emit_eq, displayClear, displayHome, delay, State.record, State.moveCursor, State.deliver, Config.clearSeq,
    Config.ms, Config.clearWaitMs, Config.rows, blankRow, Config.cols]

theorem toNat_oneBased {n : Nat} (h : n < 127) : (oneBased n).toNat = n + 1 := by
  rw [oneBased, BitVec.toNat_ofNat]
  omega

/-- The positioning command for a cell of the grid: its bytes, and the display's cursor there (41_display.md R136,
R163). -/
theorem sendPosition_of_grid {row col : Nat} (hrow : row < 6) (hcol : col < 40) (s : State) :
    sendPosition row col s =
      { emit (positionBytes row col) s with display := { s.display with row := row, col := col } } := by
  have hr := toNat_oneBased (n := row) (by omega)
  have hc := toNat_oneBased (n := col) (by omega)
  simp only [sendPosition, sendSetRow, sendSetCol, displaySetRow_of_grid (rr := oneBased row) (by omega) (by omega),
    displaySetCol_of_grid (cc := oneBased col) (by omega) (by omega), emit_eq, hr, hc]
  simp [positionBytes]

theorem positionBytes_of_grid {row col : Nat} (hrow : row < 6) (hcol : col < 40) : positionBytes row col =
    [0x19#8, 0x11#8, BitVec.ofNat 8 (row + 1), 0x19#8, 0x13#8, BitVec.ofNat 8 (col + 1)] := by
  rw [positionBytes, offWire_oneBased row (by omega), offWire_oneBased col (by omega)]

theorem inGrid_iff {r c : Int} : inGrid r c = true ↔ 0 ≤ r ∧ r < 6 ∧ 0 ≤ c ∧ c < 40 := by
  simp only [inGrid, Bool.and_eq_true, decide_eq_true_eq, and_assoc]
  rfl

theorem exec_vfdSetCursor_of_grid {s : State} {r c : Int} (h : s.vfd.session = true) (hgrid : inGrid r c = true) :
    exec (.vfdSetCursor r c) s =
      .next (((sendPosition r.toNat c.toNat s).moveCursor r.toNat c.toNat).deliver (.status .ok)) :=
  congrArg Host.Outcome.next ((withSession_of_live h _).trans (if_pos hgrid))

theorem exec_vfdSetCursor_of_not_grid {s : State} {r c : Int} (h : s.vfd.session = true) (hgrid : ¬ inGrid r c = true) :
    exec (.vfdSetCursor r c) s = .next (s.deliver (.status .ok)) :=
  congrArg Host.Outcome.next ((withSession_of_live h _).trans (if_neg hgrid))

/-- Settles O22: in the grid the positioning command, outside it nothing. -/
theorem setCursorMovesOrIsRejected : Obligations.SetCursorMovesOrIsRejected := by
  unfold Obligations.SetCursorMovesOrIsRejected
  refine ⟨fun _ _ _ _ => rfl, fun _ _ _ h => congrArg Host.Outcome.next (withSession_of_none h _),
    fun s r c h hr hr' hc hc' => ?_, fun s r c h hout => ?_⟩
  · have hrow : r.toNat < 6 := by omega
    have hcol : c.toNat < 40 := by omega
    rw [exec_vfdSetCursor_of_grid h (inGrid_iff.mpr ⟨hr, hr', hc, hc'⟩), sendPosition_of_grid hrow hcol,
      positionBytes_of_grid hrow hcol, emit_eq]
    rfl
  · rw [exec_vfdSetCursor_of_not_grid h (by rw [inGrid_iff]; omega)]
    rfl

end Sys2Proof.Machine
end

section
/-! VFD_WRITE and VFD_WRITE_BLINKING (41_display.md R134 to R143): what `writeBody_spec` says of the bytes and the cursor,
worked out for a newline, for a text without one, for two texts in a row, and between the blink markers. -/

namespace Sys2Proof.Machine

theorem exec_vfdWrite {s : State} (h : s.vfd.session = true) (text : List Byte) :
    exec (.vfdWrite text) s = .next ((writeBody text s).deliver (.status .ok)) :=
  congrArg Host.Outcome.next (withSession_of_live h _)

theorem exec_vfdWriteBlinking {s : State} (h : s.vfd.session = true) (text : List Byte) :
    exec (.vfdWriteBlinking text) s =
      .next ((sendBlinkEnd (writeBody text (sendBlinkStart s))).deliver (.status .ok)) :=
  congrArg Host.Outcome.next (withSession_of_live h _)

theorem Renders.outside {sent : List Byte} {p : Nat × Nat} {s t : State} (h : Renders sent p s t) :
    SameOutsideDisplay s t :=
  ⟨h.adc, h.enc, h.kp, h.converter, h.expander, h.inbox, h.issuer, h.levels, h.bytes, h.kpParams⟩

theorem Renders.deliver_results {sent : List Byte} {p : Nat × Nat} {s t : State} (h : Renders sent p s t) (r : Result) :
    (t.deliver r).results = s.results ++ [(s.issuer, r)] := by
  rw [State.deliver_results, h.results, h.issuer]

/-! ### One newline -/

theorem newlineBytes_of_grid {row : Nat} (h : row < 6) (col : Nat) : newlineBytes (row, col) = wrapBytes (row + 1) := by
  change (if row < 5 then positionBytes (row + 1) 0 else Config.scrollSeq) = _
  unfold wrapBytes
  by_cases hrow : row < 5
  · rw [if_pos hrow, if_pos (by omega), positionBytes_of_grid (by omega) (by omega)]
  · rw [if_neg hrow, if_neg (by omega)]
    rfl

theorem cursorNewline_of_grid {row : Nat} (h : row < 6) (col : Nat) :
    cursorNewline (row, col) = (min (row + 1) 5, 0) := by
  unfold cursorNewline Config.rows
  split <;> ext <;> simp <;> omega

/-- Settles O18: a text of one newline is one wrap. -/
theorem newlineRepositionsOrScrolls : Obligations.NewlineRepositionsOrScrolls := by
  unfold Obligations.NewlineRepositionsOrScrolls
  intro s h hrow _
  have hr : Renders (newlineBytes (s.vfd.cursorRow, s.vfd.cursorCol))
      (cursorNewline (s.vfd.cursorRow, s.vfd.cursorCol)) s (writeBody [0x0A#8] s) := newline_spec s
  have hlast : s.vfd.cursorRow + 1 < 6 ↔ s.vfd.cursorRow < 5 := by omega
  rw [newlineBytes_of_grid hrow, cursorNewline_of_grid hrow] at hr
  simp only [wrapBytes, hlast] at hr
  exact ⟨_, exec_vfdWrite h _, hr.vfd, hr.events, hr.link, hr.deliver_results _, hr.outside, hr.acks, hr.rx⟩

/-! ### A text without newlines (41_display.md R142) -/

/-- The cursor once `m` cells from the start of row `r` have been passed: the rows run on, but the last one stays. -/
def cursorAfterCells (r m : Nat) : Nat × Nat := (min (r + m / 40) 5, m % 40)

theorem isNewline_eq_false {b : Byte} : isNewline b = false ↔ b ≠ 0x0A#8 := by simp [isNewline]

theorem cursorAfterCells_row_lt (r m : Nat) : (cursorAfterCells r m).1 < 6 :=
  Nat.lt_succ_of_le (Nat.min_le_right ..)

/-- A row is full exactly at the multiples of its length. -/
theorem col_full_iff (r m : Nat) : (cursorAfterCells r m).2 + 1 = Config.cols ↔ (m + 1) % 40 = 0 := by
  simp only [cursorAfterCells, Config.cols]
  omega

theorem cursorByte_afterCells {b : Byte} (hb : isNewline b = false) (r m : Nat) :
    cursorByte b (cursorAfterCells r m) = cursorAfterCells r (m + 1) := by
  unfold cursorByte
  rw [hb, if_neg Bool.false_ne_true]
  by_cases hfull : (m + 1) % 40 = 0
  · rw [if_pos ((col_full_iff r m).mpr hfull), cursorNewline_of_grid (cursorAfterCells_row_lt r m)]
    ext <;> simp only [cursorAfterCells] <;> omega
  · rw [if_neg (mt (col_full_iff r m).mp hfull)]
    ext <;> simp only [cursorAfterCells] <;> omega

theorem cursorText_afterCells {text : List Byte} (ht : ∀ b ∈ text, isNewline b = false) (r m : Nat) :
    cursorText text (cursorAfterCells r m) = cursorAfterCells r (m + text.length) := by
  induction text generalizing m with
  | nil => rfl
  | cons b text ih =>
    obtain ⟨hb, ht⟩ := List.forall_mem_cons.mp ht
    rw [cursorText, cursorByte_afterCells hb, ih ht, List.length_cons, Nat.add_right_comm, Nat.add_assoc]

/-- The wrap of a full row is by the row the text would be in if the display had no last one. -/
theorem wrapBytes_min (n : Nat) : wrapBytes (min n 5 + 1) = wrapBytes (n + 1) := by
  rcases Nat.lt_or_ge n 5 with h | h
  · rw [min_eq_left h.le]
  · rw [min_eq_right h, wrapBytes, wrapBytes, if_neg (by omega), if_neg (by omega)]

theorem bytesOfByte_afterCells {b : Byte} (hb : isNewline b = false) (r m : Nat) :
    bytesOfByte b (cursorAfterCells r m) =
      b :: (if (m + 1) % 40 = 0 then wrapBytes (r + (m + 1) / 40) else []) := by
  unfold bytesOfByte
  rw [hb, if_neg Bool.false_ne_true]
  by_cases hfull : (m + 1) % 40 = 0
  · have hrow : r + (m + 1) / 40 = r + m / 40 + 1 := by omega
    rw [if_pos ((col_full_iff r m).mpr hfull), newlineBytes_of_grid (cursorAfterCells_row_lt r m) _, if_pos hfull, hrow]
    exact congrArg (b :: ·) (wrapBytes_min _)
  · rw [if_neg (mt (col_full_iff r m).mp hfull), if_neg hfull]

/-- The stream by its first byte: what follows is the text's rest, one cell further on. -/
theorem wrappedStream_cons (r0 c0 : Nat) (b : Byte) (text : List Byte) : wrappedStream r0 c0 (b :: text) =
    b :: (if (c0 + 1) % 40 = 0 then wrapBytes (r0 + (c0 + 1) / 40) else []) ++ wrappedStream r0 (c0 + 1) text := by
  have hcell : ∀ j, c0 + (j + 1) + 1 = c0 + 1 + j + 1 := by omega
  simp only [wrappedStream, List.zipIdx_cons, List.flatMap_cons, List.zipIdx_succ, List.flatMap_map, hcell,
    Nat.add_zero]

theorem bytesOfText_afterCells {text : List Byte} (ht : ∀ b ∈ text, isNewline b = false) (r m : Nat) :
    bytesOfText text (cursorAfterCells r m) = wrappedStream r m text := by
  induction text generalizing m with
  | nil => rfl
  | cons b text ih =>
    obtain ⟨hb, ht⟩ := List.forall_mem_cons.mp ht
    rw [bytesOfText, bytesOfByte_afterCells hb, cursorByte_afterCells hb, ih ht, wrappedStream_cons]

/-- Settles O19: bytes and cursor by the number of cells passed. -/
theorem writeArithmetic : Obligations.WriteArithmetic := by
  unfold Obligations.WriteArithmetic
  intro s text h hrow hcol hmem
  have ht : ∀ b ∈ text, isNewline b = false := fun b hb => isNewline_eq_false.mpr fun heq => hmem (heq ▸ hb)
  have hstart : s.cursor = cursorAfterCells s.vfd.cursorRow s.vfd.cursorCol := by
    ext <;> simp only [cursorAfterCells, State.cursor] <;> omega
  have hr := writeBody_spec text s
  rw [hstart, cursorText_afterCells ht, bytesOfText_afterCells ht] at hr
  exact ⟨_, exec_vfdWrite h _, hr.vfd, hr.events, hr.link, hr.deliver_results _, hr.outside, hr.acks, hr.rx⟩

/-! ### Two texts in a row -/

/-- `f` neither reads nor writes the result records: they can be delivered before it or after it. -/
def IgnoresResults (f : State → State) : Prop := ∀ (r : Result) (s : State), f (s.deliver r) = (f s).deliver r

theorem IgnoresResults.comp {f g : State → State} (hf : IgnoresResults f) (hg : IgnoresResults g) :
    IgnoresResults fun s => f (g s) := fun r s =>
  (congrArg f (hg r s)).trans (hf r (g s))

theorem IgnoresResults.ite {c : State → Prop} [DecidablePred c] {f g : State → State}
    (hc : ∀ r s, c (s.deliver r) ↔ c s) (hf : IgnoresResults f) (hg : IgnoresResults g) :
    IgnoresResults fun s => if c s then f s else g s := fun r s => by
  by_cases h : c s
  · simp only [h, hc, if_true, hf r s]
  · simp only [h, hc, if_false, hg r s]

theorem emit_ignoresResults (bytes : List Byte) : IgnoresResults (emit bytes) := fun r s => by
  simp only [emit_eq]
  rfl

theorem displayUnspecified_ignoresResults : IgnoresResults displayUnspecified := fun _ _ => rfl

theorem displaySetRow_ignoresResults (rr : Char7) : IgnoresResults (displaySetRow rr) :=
  .ite (fun _ _ => Iff.rfl) (fun _ _ => rfl) displayUnspecified_ignoresResults

theorem displaySetCol_ignoresResults (cc : Char7) : IgnoresResults (displaySetCol cc) :=
  .ite (fun _ _ => Iff.rfl) (fun _ _ => rfl) displayUnspecified_ignoresResults

theorem displayCharacter_ignoresResults (x : Char7) : IgnoresResults (displayCharacter x) :=
  .ite (fun _ _ => Iff.rfl) (fun _ _ => rfl) displayUnspecified_ignoresResults

theorem displayNewline_ignoresResults : IgnoresResults displayNewline :=
  .ite (fun _ _ => Iff.rfl) (.ite (fun _ _ => Iff.rfl) (fun _ _ => rfl) fun _ _ => rfl) displayUnspecified_ignoresResults

theorem sendPosition_ignoresResults (row col : Nat) : IgnoresResults (sendPosition row col) :=
  ((displaySetCol_ignoresResults _).comp (emit_ignoresResults _)).comp
    ((displaySetRow_ignoresResults _).comp (emit_ignoresResults _))

theorem newline_ignoresResults : IgnoresResults newline :=
  .ite (fun _ _ => Iff.rfl) (fun r s => sendPosition_ignoresResults _ _ r (s.moveCursor _ _))
    fun r s => displayNewline_ignoresResults.comp (emit_ignoresResults _) r (s.moveCursor _ _)

theorem writeByte_ignoresResults (b : Byte) : IgnoresResults (writeByte b) := by
  have hchar : IgnoresResults fun s => (sendCharacter b s).advance := fun r s =>
    congrArg State.advance ((displayCharacter_ignoresResults _).comp (emit_ignoresResults [b]) r s)
  have hputc : IgnoresResults (putc b) :=
    .comp (f := fun s => if s.vfd.cursorCol = Config.cols then newline s else s)
      (.ite (fun _ _ => Iff.rfl) newline_ignoresResults fun _ _ => rfl) hchar
  exact .ite (fun _ _ => Iff.rfl) newline_ignoresResults hputc

theorem writeBody_ignoresResults (text : List Byte) : IgnoresResults (writeBody text) := by
  induction text with
  | nil => exact fun _ _ => rfl
  | cons b text ih => exact ih.comp (writeByte_ignoresResults b)

/-- Settles O20: the record between the two texts is seen by neither. -/
theorem writesConcatenate : Obligations.WritesConcatenate := by
  unfold Obligations.WritesConcatenate
  intro s a b h
  have ha := writeBody_spec a s
  have hab := ha.trans (writeBody_spec b (writeBody a s))
  have hlive : ((writeBody a s).deliver (.status .ok)).vfd.session = true := by
    rw [State.deliver_vfd, ha.vfd]
    exact h
  refine ⟨_, _, _, exec_vfdWrite h a, exec_vfdWrite hlive b, exec_vfdWrite h (a ++ b), ?_⟩
  rw [writeBody_ignoresResults, writeBody_append]
  refine ⟨rfl, rfl, rfl, rfl, rfl, ?_, hab.deliver_results _⟩
  rw [State.deliver_results, hab.deliver_results, State.deliver_issuer, hab.issuer, List.append_assoc]
  rfl

/-! ### Between the blink markers -/

/-- Settles O21: the end marker turns the display's blink mode off whatever the text. -/
theorem blinkingWrapsTheWrite : Obligations.BlinkingWrapsTheWrite := by
  unfold Obligations.BlinkingWrapsTheWrite
  intro s text h
  have hstart := (sendBlinkStart_sends s).renders
  have hbody := writeBody_spec text (sendBlinkStart s)
  have hblink := (hstart.trans hbody).trans (sendBlinkEnd_sends (writeBody text (sendBlinkStart s))).renders
  rw [hbody.cursor_eq, hstart.cursor_eq] at hblink
  have hwrite := writeBody_spec text s
  refine ⟨_, _, _, exec_vfdWriteBlinking h text, exec_vfdWrite h text, hwrite.events, ?_, ?_,
    hblink.vfd.trans hwrite.vfd.symm, fun _ => rfl, hblink.deliver_results _, hblink.outside, hblink.acks, hblink.rx⟩
  · rw [State.deliver_events, hblink.events]
    simp
  · rw [State.deliver_link, hblink.link, sentBytes_map_serialTx]
    rfl

end Sys2Proof.Machine
end

section
/-! VFD_QUERY (41_display.md R146, R147): its course from what `queryLoop_spec` and `queryLoop_listed` say of the read
loop, and its bound. -/

namespace Sys2Proof.Machine

theorem exec_vfdQuery {s : State} (h : s.vfd.session = true) :
    exec .vfdQuery s = .next ((queryLoop queryFuel [] 0 (sendContentQuery s)).2.deliver
      (queryResult (queryLoop queryFuel [] 0 (sendContentQuery s)).1)) :=
  congrArg Host.Outcome.next (if_pos h)

theorem queryResult_eq (buf : List Byte) :
    queryResult buf = if buf = [] then .data .timeoutError [] else .data .ok buf := by
  simp only [queryResult, List.length_eq_zero_iff]

/-- From an empty buffer the loop's end is that of R146. -/
theorem endsWith_nil_iff {answers : List (List Byte)} (h : answers.flatten.length ≤ 240) :
    EndsWith 0 0 answers ↔
      answers ≠ [] ∧ queryStops answers ∧ ∀ n, 0 < n → n < answers.length → ¬ queryStops (answers.take n) :=
  endsWith_iff answers [] 0 (by omega) (by simpa using h) (by simp) (by simp) rfl (.inl rfl)

/-- `t` is `s` after VFD_QUERY's `04 00` and some reads. -/
structure Queries (reads : List Event) (s t : State) : Prop where
  events : t.events = s.events ++ [.serialTx 0x04#8, .serialTx 0x00#8] ++ reads
  link : t.link.tx = s.link.tx ++ [serialFrame 0x04#8, serialFrame 0x00#8]
  vfd : t.vfd = s.vfd
  acks : t.env.acks = s.env.acks
  results : t.results = s.results
  issuer : t.issuer = s.issuer
  outside : SameOutsideDisplay s t

theorem Reads.outside {reads : List Event} {s t : State} (h : Reads reads s t) : SameOutsideDisplay s t :=
  ⟨h.adc, h.enc, h.kp, h.converter, h.expander, h.inbox, h.issuer, h.levels, h.bytes, h.kpParams⟩

theorem Reads.queries {reads : List Event} {s t : State} (h : Reads reads (sendContentQuery s) t) :
    Queries reads s t :=
  have hs := sendContentQuery_sends s
  ⟨by rw [h.events, hs.events]; rfl, by rw [h.link, hs.link]; rfl, h.vfd.trans hs.vfd, h.acks.trans hs.acks,
    h.results.trans hs.results, h.issuer.trans hs.issuer, hs.renders.outside.trans h.outside⟩

theorem Queries.deliver_results {reads : List Event} {s t : State} (h : Queries reads s t) (buf : List Byte) :
    (t.deliver (queryResult buf)).results =
      s.results ++ [(s.issuer, if buf = [] then .data .timeoutError [] else .data .ok buf)] := by
  rw [State.deliver_results, h.results, h.issuer, queryResult_eq]

/-- All VFD_QUERY can do before it returns. -/
theorem query_spec (s : State) : ∃ answers,
    Queries (readTrace 0 answers) s (queryLoop queryFuel [] 0 (sendContentQuery s)).2 ∧
      (queryLoop queryFuel [] 0 (sendContentQuery s)).1 = answers.flatten ∧
      answers ≠ [] ∧ queryStops answers ∧ (∀ n, 0 < n → n < answers.length → ¬ queryStops (answers.take n)) ∧
      answers.flatten.length ≤ 240 ∧ answers.length ≤ 720 := by
  obtain ⟨answers, hends, hreads, hbuf, hcount, hlen⟩ :=
    queryLoop_spec queryFuel [] 0 (sendContentQuery s) (by decide) (by decide) (by decide)
  rw [List.length_nil, Nat.zero_add] at hlen
  obtain ⟨hne, hstops, hfirst⟩ := (endsWith_nil_iff hlen).mp hends
  exact ⟨answers, hreads.queries, hbuf, hne, hstops, hfirst, hlen, hcount⟩

/-- A read takes the front of the burst waiting, and the rest of it stays (10_state.md R42 (a)). -/
theorem serialRx_takes_front (s : State) (max : Nat) : ∃ (burst : List Char7) (later : List (List Char7)),
    (s.env.rx = burst :: later ∨ (s.env.rx = [] ∧ later = [])) ∧ s.nextRx max = (burst.take max).map offWire ∧
      (serialRx max s).env.rx.flatten = burst.drop max ++ later.flatten := by
  cases hrx : s.env.rx with
  | nil =>
    refine ⟨s.nextBurst, [], .inr ⟨rfl, rfl⟩, rfl, ?_⟩
    rw [← unread_flatten]
    simp [serialRx, State.dropRx, hrx]
  | cons burst later =>
    obtain ⟨hanswer, hleft⟩ := serialRx_listed max burst later s hrx
    exact ⟨burst, later, .inl rfl, hanswer, by rw [hleft, unread_flatten]⟩

/-- Settles O23: one read, the loop with any answers, and the loop with the bursts listed. -/
theorem queryReadsUntilItStops : Obligations.QueryReadsUntilItStops := by
  unfold Obligations.QueryReadsUntilItStops
  refine ⟨serialRx_takes_front, fun s h => ?_, fun s answers left h hanswers => ?_⟩
  · obtain ⟨answers, hq, hbuf, -, hstops, hfirst, hlen, -⟩ := query_spec s
    refine ⟨_, answers, exec_vfdQuery h, hq.events, hstops, hfirst, hlen, ?_, hq.vfd, hq.link, hq.acks, hq.outside⟩
    rw [hbuf]
    exact hq.deliver_results _
  · obtain ⟨bursts, last, extra, later, hrx, rfl, rfl, hlen, hextra, hstops, hfirst⟩ := hanswers
    have hends := (endsWith_nil_iff hlen).mpr ⟨by simp, hstops, hfirst⟩
    obtain ⟨hbuf, hleft, hreads⟩ := queryLoop_listed queryFuel [] 0 (sendContentQuery s) bursts last extra later
      (by decide) (by decide) (by decide) ((sendContentQuery_sends s).rx.trans hrx) hends (by simpa using hlen)
      (by simpa using hextra)
    have hq := hreads.queries
    refine ⟨_, exec_vfdQuery h, hq.events, ?_, hleft⟩
    rw [hbuf]
    exact hq.deliver_results _

/-! ### The bound (41_display.md R147) -/

theorem rxCount_append (a b : List Event) : rxCount (a ++ b) = rxCount a + rxCount b := List.countP_append

theorem delayCount_append (a b : List Event) : delayCount (a ++ b) = delayCount a + delayCount b := List.countP_append

/-- One SerialRx an answer, and a Delay between each two. -/
theorem readTrace_counts {answers : List (List Byte)} (h : answers ≠ []) (n : Nat) :
    rxCount (readTrace n answers) = answers.length ∧ delayCount (readTrace n answers) + 1 = answers.length := by
  induction answers generalizing n with
  | nil => exact absurd rfl h
  | cons a rest ih =>
    cases rest with
    | nil => exact ⟨rfl, rfl⟩
    | cons b rest =>
      obtain ⟨hrx, hdelay⟩ := ih (List.cons_ne_nil b rest) (n + a.length)
      have hturn : rxCount [.serialRx (240 - n) a, .delay 100000] = 1 ∧
          delayCount [.serialRx (240 - n) a, .delay 100000] = 1 := ⟨rfl, rfl⟩
      have htrace : readTrace n (a :: b :: rest) =
          [.serialRx (240 - n) a, .delay 100000] ++ readTrace (n + a.length) (b :: rest) := rfl
      rw [htrace, rxCount_append, delayCount_append, hturn.1, hturn.2, hrx, List.length_cons (a := a)]
      omega

/-- With fuel enough for the buffer and the empty reads so far, more fuel changes nothing. -/
theorem queryLoop_more_fuel (fuel extra : Nat) (buf : List Byte) (empties : Nat) (s : State) (hb : buf.length < 240)
    (he : empties < 3) (hf : 720 ≤ fuel + (3 * buf.length + empties)) :
    queryLoop (fuel + extra) buf empties s = queryLoop fuel buf empties s := by
  induction fuel generalizing buf empties s with
  | zero => omega
  | succ fuel ih =>
    rw [Nat.add_right_comm, queryLoop_succ, queryLoop_succ]
    have hread := nextRx_length (240 - buf.length) s
    have hempties := emptiesAfter_cases empties (s.nextRx (240 - buf.length))
    split
    · rfl
    · next hgo =>
      rw [List.length_append] at hgo
      exact ih _ _ _ (by rw [List.length_append]; omega) (by omega) (by rw [List.length_append]; omega)

/-- Settles O24: at most 720 answers, and a bound that never binds. -/
theorem queryIsBounded : Obligations.QueryIsBounded := by
  unfold Obligations.QueryIsBounded
  refine ⟨fun s h => ?_, fun s extra => queryLoop_more_fuel queryFuel extra [] 0 s (by decide) (by decide) (by decide)⟩
  obtain ⟨answers, hq, -, hne, -, -, -, hcount⟩ := query_spec s
  have hcounts : rxCount ([.serialTx 0x04#8, .serialTx 0x00#8] ++ readTrace 0 answers) = answers.length ∧
      delayCount ([.serialTx 0x04#8, .serialTx 0x00#8] ++ readTrace 0 answers) + 1 = answers.length :=
    readTrace_counts hne 0
  refine ⟨_, _, exec_vfdQuery h, hq.events.trans (List.append_assoc ..), ?_, ?_⟩
  · rw [hcounts.1]
    exact hcount
  · rw [hcounts.1, hcounts.2]

end Sys2Proof.Machine
end

section
/-! The reference display under the renderer (41_display.md R163, R164): where the two cursors agree, every printable
character is shown at the renderer's cursor and every newline keeps the two in step. -/

namespace Sys2Proof.Machine

/-! ### The display after one character and after a newline -/

/-- The display's cursor is the renderer's, and scroll mode is on: `Tracks` but for the session and the grid, so that it
holds within PUTC too, at the column behind the last one. -/
structure Follows (s : State) : Prop where
  scroll : s.display.scroll = true
  row : s.display.row = s.vfd.cursorRow
  col : s.display.col = s.vfd.cursorCol

theorem Tracks.follows {s : State} (h : Tracks s) : Follows s := by
  obtain ⟨-, -, -, hscroll, hrow, hcol⟩ := h
  exact ⟨hscroll, hrow, hcol⟩

theorem isPrintable_onWire {b : Byte} (hmin : 0x20 ≤ b.toNat) (hmax : b.toNat ≤ 0x7E) :
    isPrintable (onWire b) = true := by
  have : (onWire b).toNat = b.toNat % 128 := BitVec.toNat_setWidth 7 b
  exact isPrintable_iff.mpr (by omega)

theorem sendCharacter_display {s : State} {b : Byte} (hmin : 0x20 ≤ b.toNat) (hmax : b.toNat ≤ 0x7E)
    (hcol : s.display.col < 40) : (sendCharacter b s).display = { s.display with
      grid := putCell s.display.grid s.display.row s.display.col b, col := s.display.col + 1 } := by
  have hshown := displayCharacter_of_printable (s := serialTx b s) (isPrintable_onWire hmin hmax) hcol
  rw [offWire_onWire_of_lt b (by omega)] at hshown
  exact congrArg State.display hshown

theorem newline_display_of_row_lt {s : State} (hrow : s.vfd.cursorRow < 5) :
    (newline s).display = { s.display with row := s.vfd.cursorRow + 1, col := 0 } := by
  have hnewline : newline s = sendPosition (s.vfd.cursorRow + 1) 0 (s.moveCursor (s.vfd.cursorRow + 1) 0) := if_pos hrow
  rw [hnewline, sendPosition_of_grid (by omega) (by omega)]
  rfl

theorem newline_display_of_last_row {s : State} (hrow : s.vfd.cursorRow = 5) (hscroll : s.display.scroll = true)
    (hlast : s.display.row = 5) : (newline s).display = { s.display with
      grid := s.display.grid.drop 1 ++ [List.replicate 40 0x20#8], col := 0 } := by
  have hnewline : newline s = sendNewline (s.moveCursor s.vfd.cursorRow 0) := if_neg (by rw [hrow]; decide)
  rw [hnewline]
  exact congrArg State.display
    (displayNewline_of_last_row (s := emit Config.scrollSeq (s.moveCursor s.vfd.cursorRow 0)) hscroll hlast)

/-! ### The two cursors in step -/

theorem Follows.advance {s : State} {b : Byte} (h : Follows s) (hmin : 0x20 ≤ b.toNat) (hmax : b.toNat ≤ 0x7E)
    (hcol : s.vfd.cursorCol < 40) : Follows (sendCharacter b s).advance := by
  have hvfd := (sendCharacter_advance b s).vfd
  have hdisplay : (sendCharacter b s).advance.display = _ :=
    sendCharacter_display hmin hmax (h.col.trans_lt hcol)
  constructor <;> rw [hdisplay]
  · exact h.scroll
  · rw [hvfd]; exact h.row
  · rw [hvfd]; exact congrArg (· + 1) h.col

theorem Follows.newline {s : State} (h : Follows s) (hrow : s.vfd.cursorRow < 6) : Follows (newline s) := by
  have hvfd : (Machine.newline s).vfd = { s.vfd with cursorRow := min (s.vfd.cursorRow + 1) 5, cursorCol := 0 } := by
    rw [(newline_spec s).vfd, State.cursor, cursorNewline_of_grid hrow]
  rcases Nat.lt_or_ge s.vfd.cursorRow 5 with hlt | hge
  · have hdisplay := newline_display_of_row_lt hlt
    constructor <;> rw [hdisplay]
    · exact h.scroll
    · rw [hvfd]; exact (min_eq_left (Nat.succ_le_of_lt hlt)).symm
    · rw [hvfd]
  · have hlast : s.vfd.cursorRow = 5 := by omega
    have hdisplay := newline_display_of_last_row hlast h.scroll (h.row.trans hlast)
    constructor <;> rw [hdisplay]
    · exact h.scroll
    · rw [hvfd]; exact h.row.trans (by dsimp only; omega)
    · rw [hvfd]

theorem isPlain_cases {b : Byte} (h : isPlain b = true) : isNewline b = true ∨ (0x20 ≤ b.toNat ∧ b.toNat ≤ 0x7E) := by
  simpa [isPlain, or_comm] using h

theorem isNewline_of_printable {b : Byte} (h : 0x20 ≤ b.toNat) : isNewline b = false :=
  isNewline_eq_false.mpr fun heq => by simp [heq] at h

/-- A character, and the wrap if it filled its row (41_display.md R140, R141). -/
theorem writeByte_of_character {b : Byte} (hb : isNewline b = false) (s : State) : writeByte b s =
    if s.vfd.cursorCol = 39 then newline (sendCharacter b s).advance else (sendCharacter b s).advance := by
  have hfull : (sendCharacter b s).advance.vfd.cursorCol = Config.cols ↔ s.vfd.cursorCol = 39 := by
    rw [(sendCharacter_advance b s).vfd]
    exact Nat.succ_inj
  rw [writeByte, hb, if_neg Bool.false_ne_true, putc]
  simp only [hfull]

theorem Follows.writeByte {s : State} {b : Byte} (h : Follows s) (hrow : s.vfd.cursorRow < 6)
    (hcol : s.vfd.cursorCol < 40) (hb : isPlain b = true) : Follows (writeByte b s) := by
  rcases isPlain_cases hb with hn | ⟨hmin, hmax⟩
  · rw [Machine.writeByte, if_pos hn]
    exact h.newline hrow
  · have hadvance := h.advance hmin hmax hcol
    rw [writeByte_of_character (isNewline_of_printable hmin)]
    split
    · exact hadvance.newline (by rwa [(sendCharacter_advance b s).vfd])
    · exact hadvance

theorem Tracks.writeByte {s : State} {b : Byte} (h : Tracks s) (hb : isPlain b = true) : Tracks (writeByte b s) := by
  obtain ⟨hlive, hrow, hcol, -⟩ := id h
  obtain ⟨hscroll, hfrow, hfcol⟩ := h.follows.writeByte hrow hcol hb
  obtain ⟨hrow', hcol'⟩ := cursorByte_in_grid b s.cursor ⟨hrow, hcol⟩
  have hvfd := (writeByte_spec b s).vfd
  refine ⟨?_, ?_, ?_, hscroll, hfrow, hfcol⟩ <;> rw [hvfd]
  · exact hlive
  · exact hrow'
  · exact hcol'

theorem Tracks.writeBody {text : List Byte} (ht : ∀ b ∈ text, isPlain b = true) {s : State} (h : Tracks s) :
    Tracks (writeBody text s) := by
  induction text generalizing s with
  | nil => exact h
  | cons b text ih =>
    obtain ⟨hb, ht⟩ := List.forall_mem_cons.mp ht
    exact ih ht (h.writeByte hb)

/-- A change that leaves both cursors, the session and scroll mode alone. -/
theorem Tracks.of_eq {s t : State} (h : Tracks s) (hvfd : t.vfd = s.vfd) (hscroll : t.display.scroll = s.display.scroll)
    (hrow : t.display.row = s.display.row) (hcol : t.display.col = s.display.col) : Tracks t := by
  unfold Tracks
  rw [hvfd, hscroll, hrow, hcol]
  exact h

theorem exec_vfdClear_tracks {s t : State} (hlive : s.vfd.session = true) (hscroll : s.display.scroll = true)
    (h : exec .vfdClear s = .next t) : Tracks t := by
  have hclear := clearHomesTheCursor.2.2 s hlive
  obtain rfl := Host.Outcome.next.inj (hclear.symm.trans h)
  exact ⟨hlive, by simp, by simp, hscroll, rfl, rfl⟩

theorem exec_vfdSetCursor_tracks {s t : State} {r c : Int} (hs : Tracks s) (h : exec (.vfdSetCursor r c) s = .next t) :
    Tracks t := by
  obtain ⟨hlive, -, -, hscroll, -⟩ := id hs
  by_cases hgrid : inGrid r c = true
  · obtain ⟨hrow, hcol⟩ := toNat_in_grid hgrid
    rw [exec_vfdSetCursor_of_grid hlive hgrid, sendPosition_of_grid hrow hcol, emit_eq] at h
    obtain rfl := Host.Outcome.next.inj h
    exact ⟨hlive, hrow, hcol, hscroll, rfl, rfl⟩
  · rw [exec_vfdSetCursor_of_not_grid hlive hgrid] at h
    obtain rfl := Host.Outcome.next.inj h
    exact hs

theorem exec_vfdOpen_scroll {s t : State} (hs : s.vfd.session = false) (h : exec .vfdOpen s = .next t)
    (hlive : t.vfd.session = true) : t.display.scroll = true := by
  by_cases hopen : s.nextAck = true
  · by_cases hrts : (serialOpen Config.port s.vfd.lineCfg s).nextAck = true
    · obtain ⟨u, hu, -, -, -, hdisplay, -⟩ := openStartsTheSession s hs hopen hrts
      obtain rfl := Host.Outcome.next.inj (hu.symm.trans h)
      rw [hdisplay]
    · obtain ⟨u, hu, hvfd, -⟩ := openFailsWithPortError.2.2 s hs hopen (by simpa using hrts)
      obtain rfl := Host.Outcome.next.inj (hu.symm.trans h)
      simp [hvfd, hs] at hlive
  · obtain ⟨u, hu, hvfd, -⟩ := openFailsWithPortError.2.1 s hs (by simpa using hopen)
    obtain rfl := Host.Outcome.next.inj (hu.symm.trans h)
    simp [hvfd, hs] at hlive

/-- Settles O25: VFD_CLEAR brings the two cursors together, and each operation after it keeps them in step. -/
theorem displayTracksTheRenderer : Obligations.DisplayTracksTheRenderer := by
  unfold Obligations.DisplayTracksTheRenderer
  refine ⟨fun s t u hs hopen hlive hclear => exec_vfdClear_tracks hlive (exec_vfdOpen_scroll hs hopen hlive) hclear,
    fun s t i hs hi h => ?_⟩
  obtain ⟨hlive, -, -, hscroll, -⟩ := id hs
  rcases hi with rfl | ⟨r, c, rfl⟩ | ⟨text, ht, rfl | rfl⟩
  · exact exec_vfdClear_tracks hlive hscroll h
  · exact exec_vfdSetCursor_tracks hs h
  · obtain rfl := Host.Outcome.next.inj ((exec_vfdWrite hlive text).symm.trans h)
    exact hs.writeBody ht
  · obtain rfl := Host.Outcome.next.inj ((exec_vfdWriteBlinking hlive text).symm.trans h)
    have hstart : Tracks (sendBlinkStart s) := hs.of_eq rfl rfl rfl rfl
    exact (hstart.writeBody ht).of_eq rfl rfl rfl rfl

/-! ### Where a character lands -/

theorem newline_grid {s : State} (h : Follows s) (hrow : s.vfd.cursorRow < 6) : (newline s).display.grid =
    if s.vfd.cursorRow = 5 then s.display.grid.drop 1 ++ [List.replicate 40 0x20#8] else s.display.grid := by
  split
  · next hlast => rw [newline_display_of_last_row hlast h.scroll (h.row.trans hlast)]
  · next hne => rw [newline_display_of_row_lt (by omega)]

/-- Settles O26: the character, and after the last column the newline of the wrap. -/
theorem characterLandsAtTheCursor : Obligations.CharacterLandsAtTheCursor := by
  unfold Obligations.CharacterLandsAtTheCursor
  intro s b hs hmin hmax
  obtain ⟨hlive, hrow, hcol, -⟩ := id hs
  have hf := hs.follows
  have hvfd := (sendCharacter_advance b s).vfd
  have hcell : (sendCharacter b s).advance.display.grid = putCell s.display.grid s.vfd.cursorRow s.vfd.cursorCol b := by
    rw [← hf.row, ← hf.col]
    exact congrArg Display.grid (sendCharacter_display hmin hmax (hf.col.trans_lt hcol))
  refine ⟨_, exec_vfdWrite hlive [b], ?_⟩
  change (writeByte b s).display.grid = _
  rw [writeByte_of_character (isNewline_of_printable hmin)]
  by_cases hfull : s.vfd.cursorCol = 39
  · have hadvance := newline_grid (hf.advance hmin hmax hcol) (by rwa [hvfd])
    rw [if_pos hfull, hadvance, hcell, hvfd]
    simp only [hfull, and_true]
    split
    · next hlast => rw [hlast]
    · rfl
  · rw [if_neg hfull, if_neg fun h => hfull h.2, hcell]

end Sys2Proof.Machine
end

section
/-! What the host operations send (41_display.md R150 to R158; 30_encoding.md R105): the bytes of commands of the contracts,
in a row, and so a stream that parses into exactly those commands. -/

namespace Sys2Proof.Machine

/-! ### Streams of the contracts' commands -/

/-- The display commands the contracts of the host operations send, with their parameters in the grid and their
characters printable. -/
inductive ContractCommand : Instr → Prop
  | clear : ContractCommand .wireClear
  | home : ContractCommand .wireHome
  | setRow (rr : Char7) (hmin : 1 ≤ rr.toNat) (hmax : rr.toNat ≤ 6) : ContractCommand (.wireSetRow rr)
  | setCol (cc : Char7) (hmin : 1 ≤ cc.toNat) (hmax : cc.toNat ≤ 40) : ContractCommand (.wireSetCol cc)
  | newline : ContractCommand .wireNewline
  | blinkStart : ContractCommand .wireBlinkStart
  | blinkEnd : ContractCommand .wireBlinkEnd
  | scrollEnable : ContractCommand .wireScrollEnable
  | contentQuery : ContractCommand .wireContentQuery
  | character (x : Char7) (hx : isPrintable x = true) : ContractCommand (.wireCharacter x)

theorem ContractCommand.parses {i : Instr} (h : ContractCommand i) :
    i.surface = .displayWire ∧ ∀ x, i = .wireCharacter x → isPrintable x = true := by
  cases h <;> refine ⟨rfl, fun x hx => ?_⟩ <;> cases hx
  assumption

theorem ContractCommand.allowed {i : Instr} (h : ContractCommand i) :
    i ≠ .wireCursorUp ∧ i ≠ .wireBackspace ∧ i ≠ .wireDeleteChar ∧ i ≠ .wireBrightness ∧
      (∀ rr, i = .wireSetRow rr → 1 ≤ rr.toNat ∧ rr.toNat ≤ 6) ∧
      (∀ cc, i = .wireSetCol cc → 1 ≤ cc.toNat ∧ cc.toNat ≤ 40) := by
  refine ⟨?_, ?_, ?_, ?_, ?_, ?_⟩
  · rintro rfl; cases h
  · rintro rfl; cases h
  · rintro rfl; cases h
  · rintro rfl; cases h
  · rintro rr rfl
    cases h with
    | setRow _ hmin hmax => exact ⟨hmin, hmax⟩
  · rintro cc rfl
    cases h with
    | setCol _ hmin hmax => exact ⟨hmin, hmax⟩

/-- The bytes are those of contract commands in a row. No command of the display's wire has bytes that depend on the
keypad's parameters. -/
def ContractBytes (bytes : List Byte) : Prop :=
  ∃ cmds : List Instr, (∀ cmd ∈ cmds, ContractCommand cmd) ∧ bytes = cmds.flatMap (encode tableParams)

theorem ContractBytes.nil : ContractBytes [] := ⟨[], by simp, rfl⟩

theorem ContractBytes.append {a b : List Byte} (ha : ContractBytes a) (hb : ContractBytes b) :
    ContractBytes (a ++ b) := by
  obtain ⟨cmds, hcmds, rfl⟩ := ha
  obtain ⟨more, hmore, rfl⟩ := hb
  exact ⟨cmds ++ more, List.forall_mem_append.mpr ⟨hcmds, hmore⟩, List.flatMap_append.symm⟩

theorem ContractCommand.bytes {i : Instr} (h : ContractCommand i) : ContractBytes (encode tableParams i) :=
  ⟨[i], by simpa using h, by simp⟩

theorem ContractBytes.parses {bytes : List Byte} (h : ContractBytes bytes) :
    ∃ cmds, parseWire bytes.length (bytes.map onWire) = .ok cmds ∧ ∀ cmd ∈ cmds, ContractCommand cmd := by
  obtain ⟨cmds, hcmds, rfl⟩ := h
  exact ⟨cmds, parseWire_encode _ cmds _ (fun i hi => (hcmds i hi).parses) le_rfl, hcmds⟩

/-! ### The renderer's bytes -/

theorem positionBytes_contract {row col : Nat} (hrow : row < 6) (hcol : col < 40) :
    ContractBytes (positionBytes row col) := by
  have hr := toNat_oneBased (n := row) (by omega)
  have hc := toNat_oneBased (n := col) (by omega)
  exact (ContractCommand.setRow (oneBased row) (by omega) (by omega)).bytes.append
    (ContractCommand.setCol (oneBased col) (by omega) (by omega)).bytes

theorem newlineBytes_contract (p : Nat × Nat) : ContractBytes (newlineBytes p) := by
  unfold newlineBytes
  split
  · next hrow => exact positionBytes_contract (Nat.succ_lt_succ hrow) (by decide)
  · exact ContractCommand.newline.bytes

theorem character_contract {b : Byte} (hmin : 0x20 ≤ b.toNat) (hmax : b.toNat ≤ 0x7E) : ContractBytes [b] := by
  have hbytes := (ContractCommand.character (onWire b) (isPrintable_onWire hmin hmax)).bytes
  rwa [encode, offWire_onWire_of_lt b (by omega)] at hbytes

theorem bytesOfByte_contract {b : Byte} (hb : isPlain b = true) (p : Nat × Nat) : ContractBytes (bytesOfByte b p) := by
  unfold bytesOfByte
  rcases isPlain_cases hb with hn | ⟨hmin, hmax⟩
  · rw [if_pos hn]
    exact newlineBytes_contract p
  · rw [isNewline_of_printable hmin, if_neg Bool.false_ne_true]
    split
    · exact (character_contract hmin hmax).append (newlineBytes_contract _)
    · exact character_contract hmin hmax

theorem bytesOfText_contract {text : List Byte} (ht : ∀ b ∈ text, isPlain b = true) (p : Nat × Nat) :
    ContractBytes (bytesOfText text p) := by
  induction text generalizing p with
  | nil => exact .nil
  | cons b text ih =>
    obtain ⟨hb, ht⟩ := List.forall_mem_cons.mp ht
    exact (bytesOfByte_contract hb p).append (ih ht _)

/-! ### The operations -/

/-- From `s` to `t` the block sent contract commands alone. -/
def SendsContract (s t : State) : Prop := ∃ es, t.events = s.events ++ es ∧ ContractBytes (sentBytes es)

theorem SendsContract.of_silent {es : List Event} {s t : State} (he : t.events = s.events ++ es) (hs : sentBytes es = []) :
    SendsContract s t := ⟨es, he, hs ▸ .nil⟩

theorem SendsContract.of_sent {sent : List Byte} {s t : State} (he : t.events = s.events ++ sent.map .serialTx)
    (hs : ContractBytes sent) : SendsContract s t := ⟨_, he, by rwa [sentBytes_map_serialTx]⟩

theorem SendsContract.refl (s : State) : SendsContract s s := .of_silent (List.append_nil _).symm rfl

theorem SendsContract.trans {s t u : State} (h : SendsContract s t) (h' : SendsContract t u) : SendsContract s u := by
  obtain ⟨es, he, hs⟩ := h
  obtain ⟨fs, hf, hs'⟩ := h'
  exact ⟨es ++ fs, by rw [hf, he, List.append_assoc], by rw [sentBytes_append]; exact hs.append hs'⟩

theorem withSession_sendsContract {s live : State} (h : s.vfd.session = true → SendsContract s live) :
    SendsContract s (withSession s live) := by
  unfold withSession
  split
  · next hlive => exact h hlive
  · exact .refl s

theorem openSession_sendsContract (s : State) : SendsContract s (openSession s).2 := by
  have hopen := serialOpen_takesAcks Config.port s.vfd.lineCfg s
  have hboth := hopen.trans (setRts_takesAcks true _)
  simp only [openSession]
  split
  · exact .refl s
  · split
    · split
      · rw [startSession_eq]
        exact (SendsContract.of_silent hboth.events rfl).trans
          ⟨[.delay 100000, .serialTx 0x10#8], rfl, ContractCommand.scrollEnable.bytes⟩
      · exact .of_silent (hboth.trans (serialClose_takesAcks _)).events rfl
    · exact .of_silent hopen.events rfl

theorem clear_sendsContract (us : Nat) (s : State) :
    SendsContract s (delay us (displayHome (displayClear (emit Config.clearSeq s)))) := by
  have hsends : Sends Config.clearSeq s (displayHome (displayClear (emit Config.clearSeq s))) :=
    sends_of_response displayHome_response.cases
      (sends_of_response displayClear_response.cases (emit_sends Config.clearSeq s))
  exact (SendsContract.of_sent hsends.events (ContractCommand.clear.bytes.append ContractCommand.home.bytes)).trans
    (.of_silent (delay_reads us _).events rfl)

theorem writeBody_sendsContract {text : List Byte} (ht : ∀ b ∈ text, isPlain b = true) (s : State) :
    SendsContract s (writeBody text s) :=
  .of_sent (writeBody_spec text s).events (bytesOfText_contract ht _)

theorem writeBlinking_sendsContract {text : List Byte} (ht : ∀ b ∈ text, isPlain b = true) (s : State) :
    SendsContract s (sendBlinkEnd (writeBody text (sendBlinkStart s))) :=
  ((SendsContract.of_sent (sendBlinkStart_sends s).events ContractCommand.blinkStart.bytes).trans
    (writeBody_sendsContract ht _)).trans (.of_sent (sendBlinkEnd_sends _).events ContractCommand.blinkEnd.bytes)

theorem sendPosition_sendsContract {row col : Int} (h : inGrid row col = true) (s : State) :
    SendsContract s (sendPosition row.toNat col.toNat s) := by
  obtain ⟨hrow, hcol⟩ := toNat_in_grid h
  exact .of_sent (sendPosition_sends _ _ s).events (positionBytes_contract hrow hcol)

theorem query_sendsContract (s : State) : SendsContract s (queryLoop queryFuel [] 0 (sendContentQuery s)).2 := by
  obtain ⟨_, -, hreads, -⟩ := queryLoop_spec queryFuel [] 0 (sendContentQuery s) (by decide) (by decide) (by decide)
  exact (SendsContract.of_sent (sendContentQuery_sends s).events ContractCommand.contentQuery.bytes).trans
    (.of_silent hreads.events hreads.sent)

theorem initAdc_sendsContract (s : State) : SendsContract s (initAdc s).2 := by
  obtain ⟨es, hmodes, -⟩ := configurePins_spec adcPinModes (s.setInit false)
  simp only [initAdc]
  split
  · obtain ⟨fs, hidle, -⟩ := driveIdle_spec adcIdleLevels (configurePins adcPinModes (s.setInit false)).2
    have hboth := hmodes.trans hidle
    split
    · exact .of_silent hboth.events hboth.sent
    · exact .of_silent hboth.events hboth.sent
  · exact .of_silent hmodes.events hmodes.sent

theorem readChannel_sendsContract (ch : Int) (s : State) : SendsContract s (readChannel ch s).2 := by
  obtain ⟨_, h⟩ := readChannel_transacts ch s
  exact .of_silent h.events h.sent

theorem scanPass_sendsContract (s : State) : SendsContract s (scanPass s).settle := by
  obtain ⟨_, h⟩ := scanRows_spec s.kpParams s.kpParams.rowPat.zipIdx true s
  have hpass := h.scans.trans (Pass.settle_scans (scanPass s))
  exact .of_silent hpass.events hpass.sent

theorem exec_vfdSetCursor_sendsContract (row col : Int) (s : State) :
    ∃ t, exec (.vfdSetCursor row col) s = .next t ∧ SendsContract s t := by
  refine ⟨_, rfl, withSession_sendsContract fun _ => ?_⟩
  split
  · next hgrid => exact sendPosition_sendsContract hgrid s
  · exact .refl s

theorem exec_vfdQuery_sendsContract (s : State) : ∃ t, exec .vfdQuery s = .next t ∧ SendsContract s t := by
  refine ⟨_, rfl, ?_⟩
  split
  · exact query_sendsContract s
  · exact .refl s

/-- Every operation of the host port sends contract commands alone, if its text is plain. -/
theorem exec_total_sendsContract {i : Instr} (hi : isHostOperation i = true) (s : State)
    (ht : ∀ text, i = .vfdWrite text ∨ i = .vfdWriteBlinking text → ∀ b ∈ text, isPlain b = true) :
    ∃ t, exec i s = .next t ∧ SendsContract s t := by
  cases i <;> cases hi
  case vfdOpen => exact ⟨_, rfl, openSession_sendsContract s⟩
  case vfdClose =>
    exact ⟨_, rfl, withSession_sendsContract fun _ => .of_silent (es := [.serialClose]) rfl rfl⟩
  case vfdClear => exact ⟨_, rfl, withSession_sendsContract fun _ => clear_sendsContract _ s⟩
  case vfdWrite text =>
    exact ⟨_, rfl, withSession_sendsContract fun _ => writeBody_sendsContract (ht text (.inl rfl)) s⟩
  case vfdWriteBlinking text =>
    exact ⟨_, rfl, withSession_sendsContract fun _ => writeBlinking_sendsContract (ht text (.inr rfl)) s⟩
  case vfdSetCursor row col => exact exec_vfdSetCursor_sendsContract row col s
  case vfdQuery => exact exec_vfdQuery_sendsContract s
  case adcInit => exact ⟨_, rfl, initAdc_sendsContract s⟩
  case adcRead ch | adcReadVoltage ch => exact ⟨_, rfl, readChannel_sendsContract ch s⟩
  case kpScan => exact ⟨_, rfl, scanPass_sendsContract s⟩
  case encEdge | encRead | encClearChanged | kpRead | kpClearFlag | kpClearKey => exact ⟨_, rfl, .refl s⟩

/-- Settles O27: what was sent is contract commands in a row, and such a stream parses into them. -/
theorem hostOperationsSendOnlyContractCommands : Obligations.HostOperationsSendOnlyContractCommands := by
  unfold Obligations.HostOperationsSendOnlyContractCommands
  intro i s t hi _ ht h
  obtain ⟨u, hu, es, hevents, hbytes⟩ := exec_total_sendsContract hi s ht
  obtain rfl := Host.Outcome.next.inj (hu.symm.trans h)
  obtain ⟨cmds, hparse, hcmds⟩ := hbytes.parses
  exact ⟨es, cmds, hevents, hparse, fun cmd hcmd => (hcmds cmd hcmd).allowed⟩

end Sys2Proof.Machine
end

section
/-! The analog sampler's operations (42_analog.md R180 to R188): where a listed failure stops a history, what ADC_INIT
can do, and what a read of a channel can come to. -/

namespace Sys2Proof.Machine

/-! ### Listed answers that fail (notes/assumptions/3.md) -/

/-- A listed answer behind fewer than are given is among those given. -/
theorem Answered.mem_of_listed {α : Type} {given front later after : List α} {a : α}
    (h : Answered given (front ++ a :: later) after) (hlen : front.length < given.length) : a ∈ given := by
  have hget : given[front.length]? = some a := by
    rw [h.getElem? hlen (by simp)]
    simp
  exact List.mem_of_getElem? hget

/-- Answers that are all ok are no more than those listed before the first failure. -/
theorem Answered.le_of_all_ok {m n : Nat} {later after : List Bool}
    (h : Answered (List.replicate m true) (List.replicate n true ++ false :: later) after) : m ≤ n := by
  by_contra hlt
  have hmem : false ∈ List.replicate m true := h.mem_of_listed (by simpa using hlt)
  exact absurd (List.eq_of_mem_replicate hmem) (by decide)

/-- Answers given up to the first failure take the listed ones up to the first failure. -/
theorem Answered.first_failure {m n : Nat} {later after : List Bool}
    (h : Answered (List.replicate m true ++ [false]) (List.replicate n true ++ false :: later) after) :
    m = n ∧ after = later := by
  obtain ⟨drawn, heq, hdrawn⟩ := h
  simp only [List.append_assoc, List.cons_append] at heq
  have hidx : ∀ (k : Nat) (l : List Bool), (List.replicate k true ++ false :: l).idxOf false = k := fun k l => by
    rw [List.idxOf_append_of_notMem (by simp), List.idxOf_cons_self, List.length_replicate, Nat.add_zero]
  obtain rfl : m = n := by simpa only [hidx] using congrArg (List.idxOf false) heq
  obtain rfl : after = later ++ drawn := by simpa using heq
  rcases hdrawn with rfl | hnil
  · exact ⟨rfl, List.append_nil later⟩
  · exact ⟨rfl, hnil.trans (List.append_eq_nil_iff.mp hnil).1.symm⟩

/-- Primitives of the ok/fail kind that all succeeded. -/
theorem okAnswers_of_all_ok {es : List Event} (h : ∀ e ∈ es, okAnswers [e] = [true]) :
    okAnswers es = List.replicate es.length true := by
  induction es with
  | nil => rfl
  | cons e es ih =>
    rw [← List.singleton_append, okAnswers_append, h e (by simp), ih fun x hx => h x (by simp [hx])]
    rfl

theorem okAnswers_failed {e : Event} (h : okAnswers [e] = [true]) : okAnswers [e.failed] = [false] := by
  cases e <;> simp_all [okAnswers, Event.failed]

/-- Stopped among primitives of the ok/fail kind: all answers but the last are ok. -/
theorem FailsIn.okAnswers_eq {all es : List Event} (h : FailsIn all es) (hall : ∀ e ∈ all, okAnswers [e] = [true]) :
    ∃ m, es.length = m + 1 ∧ okAnswers es = List.replicate m true ++ [false] := by
  obtain ⟨done, e, later, rfl, rfl, -⟩ := h
  refine ⟨done.length, by simp, ?_⟩
  rw [okAnswers_append, okAnswers_of_all_ok fun x hx => hall x (by simp [hx]), okAnswers_failed (hall e (by simp))]

/-! ### ADC_INIT with any answers (R180) -/

theorem initEvents_eq_append : initEvents =
    (adcPinModes.map fun p => .pinMode p.1 p.2 true) ++ adcIdleLevels.map fun p => .pinWrite p.1 p.2 true := rfl

theorem initEvents_all_ok : ∀ e ∈ initEvents, okAnswers [e] = [true] := by decide

/-- All ADC_INIT can do before it returns: `init` is cleared, and set again once every primitive has succeeded. -/
theorem initAdc_spec (s : State) :
    ∃ es u, Pins es (s.setInit false) u ∧ u.env.levels = s.env.levels ∧
      ((initAdc s = (true, u.setInit true) ∧ es = initEvents) ∨ (initAdc s = (false, u) ∧ FailsIn initEvents es)) := by
  obtain ⟨es, hmodes, hlevels, -, hends⟩ := configurePins_spec adcPinModes (s.setInit false)
  rw [initEvents_eq_append]
  unfold initAdc
  rcases hm : configurePins adcPinModes (s.setInit false) with ⟨_ | _, v⟩ <;> rw [hm] at hmodes hlevels hends
  · exact ⟨es, v, hmodes, hlevels, .inr ⟨rfl, hends.append_right _⟩⟩
  · obtain rfl : es = _ := hends
    obtain ⟨fs, hidle, hlevels', hends'⟩ := driveIdle_spec adcIdleLevels v
    dsimp only
    rcases hi : driveIdle adcIdleLevels v with ⟨_ | _, u⟩ <;> rw [hi] at hidle hlevels' hends'
    · exact ⟨_, u, hmodes.trans hidle, hlevels'.trans hlevels, .inr ⟨rfl, hends'.append_left _⟩⟩
    · obtain rfl : fs = _ := hends'
      exact ⟨_, u, hmodes.trans hidle, hlevels'.trans hlevels, .inl ⟨rfl, rfl⟩⟩

theorem exec_adcInit {s t : State} {ok : Bool} (h : initAdc s = (ok, t)) :
    exec .adcInit s = .next (t.deliver (.status (if ok then .ok else .busTransactionError))) := by
  simp only [exec, execAdcInit, h]

/-- Settles O33: every answer of ADC_INIT is ok but the one that ends it, so the listed failure is that one. -/
theorem adcInitStopsAtTheFirstFailure : Obligations.AdcInitStopsAtTheFirstFailure := by
  unfold Obligations.AdcInitStopsAtTheFirstFailure
  intro s
  obtain ⟨es, u, hpins, hlevels, ⟨hinit, rfl⟩ | ⟨hinit, hfails⟩⟩ := initAdc_spec s
  · refine ⟨_, initEvents, exec_adcInit hinit, hpins.events, hpins.answers, hpins.transacts.outside, hpins.converter,
      hlevels, hpins.outputs, .inl ⟨rfl, rfl, rfl, rfl, ?_⟩, ?_⟩
    · simp [hpins.results, hpins.issuer]
    · intro n acks hn hacks
      have hlisted : Answered (okAnswers initEvents) s.env.acks u.env.acks := hpins.answers.1
      rw [okAnswers_of_all_ok initEvents_all_ok, hacks] at hlisted
      exact absurd hn (Nat.not_lt.mpr hlisted.le_of_all_ok)
  · refine ⟨_, es, exec_adcInit hinit, hpins.events, hpins.answers, hpins.transacts.outside, hpins.converter,
      hlevels, hpins.outputs, .inr ⟨hpins.init, ?_, hfails, hfails.ends rfl⟩, ?_⟩
    · simp [hpins.results, hpins.issuer]
    · intro n acks _ hacks
      obtain ⟨m, hlength, hoks⟩ := hfails.okAnswers_eq initEvents_all_ok
      have hlisted : Answered (okAnswers es) s.env.acks u.env.acks := hpins.answers.1
      rw [hacks, hoks] at hlisted
      obtain ⟨rfl, hleft⟩ := hlisted.first_failure
      exact ⟨hpins.init, hlength, hleft⟩

/-! ### ADC_INIT with the answers written in the state (R180) -/

theorem nextAck_of_listed {s : State} {a : Bool} {acks : List Bool} (h : s.env.acks = a :: acks) : s.nextAck = a := by
  simp [State.nextAck, h]

theorem dropAck_of_listed {s : State} {a : Bool} {acks : List Bool} (h : s.env.acks = a :: acks) :
    s.dropAck = { s with env := { s.env with acks := acks } } := by
  simp [State.dropAck, h]

theorem configurePins_answered (pins : List (Pin × Dir)) (acks : List Bool) (s : State)
    (ha : s.env.acks = List.replicate pins.length true ++ acks) :
    configurePins pins s =
      (true,
       { s with
         env := { s.env with acks := acks }
         events := s.events ++ pins.map fun p => .pinMode p.1 p.2 true }) := by
  induction pins generalizing s with
  | nil => simp [configurePins, ← show s.env.acks = acks from ha]
  | cons p rest ih =>
    have ha' : s.env.acks = true :: (List.replicate rest.length true ++ acks) := ha
    simp only [configurePins, pinMode, nextAck_of_listed ha', dropAck_of_listed ha', if_true]
    rw [ih _ rfl]
    simp [State.record]

/-- The idle writes leave the outputs as a pin sequence of them does. -/
theorem driveIdle_answered (pins : List (Pin × Bit)) (acks : List Bool) (s : State)
    (ha : s.env.acks = List.replicate pins.length true ++ acks) :
    driveIdle pins s =
      (true,
       { s with
         adc := stepOutputs (pins.map fun p => .write p.1 p.2) s.adc
         env := { s.env with acks := acks }
         events := s.events ++ pins.map fun p => .pinWrite p.1 p.2 true }) := by
  induction pins generalizing s with
  | nil => simp [driveIdle, stepOutputs, ← show s.env.acks = acks from ha]
  | cons p rest ih =>
    obtain ⟨pin, level⟩ := p
    have ha' : s.env.acks = true :: (List.replicate rest.length true ++ acks) := ha
    simp only [driveIdle, pinWrite, nextAck_of_listed ha', dropAck_of_listed ha', if_true]
    rw [ih _ (by simp [State.record])]
    cases pin <;> simp [State.record, State.drive, stepOutputs]

theorem initAdc_answered {s : State} {acks : List Bool} (h : s.env.acks = List.replicate 7 true ++ acks) :
    initAdc s = (true, { s with
      adc := { init := true, csOut := some true, clkOut := some false, mosiOut := some false }
      env := { s.env with acks := acks }
      events := s.events ++ initEvents }) := by
  unfold initAdc
  rw [configurePins_answered adcPinModes (List.replicate 3 true ++ acks) (s.setInit false) h]
  dsimp only
  rw [driveIdle_answered adcIdleLevels acks _ rfl, initEvents_eq_append, ← List.append_assoc]
  rfl

/-- Settles O32: the PinModes take four answers and the idle writes three. -/
theorem adcInitConfiguresTheLines : Obligations.AdcInitConfiguresTheLines := by
  unfold Obligations.AdcInitConfiguresTheLines
  intro s acks hacks
  exact exec_adcInit (initAdc_answered hacks)

/-! ### The channel (R181, R188) -/

theorem validChannel_iff {ch : Int} : validChannel ch = true ↔ 0 ≤ ch ∧ ch ≤ 7 := by
  simp [validChannel]

theorem exec_adcRead {ch : Int} {s t : State} {st : Status} {raw : BitVec 10} (h : readChannel ch s = ((st, raw), t)) :
    exec (.adcRead ch) s = .next (t.deliver (.raw st raw)) := by
  simp only [exec, execAdcRead, h]

theorem exec_adcReadVoltage {ch : Int} {s t : State} {st : Status} {raw : BitVec 10}
    (h : readChannel ch s = ((st, raw), t)) :
    exec (.adcReadVoltage ch) s = .next (t.deliver (sampleResult ch st raw)) := by
  simp only [exec, execAdcReadVoltage, h]

theorem readChannel_of_invalid {ch : Int} (h : ch < 0 ∨ 7 < ch) (s : State) :
    readChannel ch s = ((.invalidChannel, 0#10), s) := by
  have hinvalid : ¬ validChannel ch = true := by
    rw [validChannel_iff]
    omega
  simp [readChannel, hinvalid]

/-- Settles O34: the channel is judged before anything else. -/
theorem invalidChannelTouchesNothing : Obligations.InvalidChannelTouchesNothing := by
  unfold Obligations.InvalidChannelTouchesNothing
  intro s ch h
  have hread := readChannel_of_invalid h s
  exact ⟨exec_adcRead hread, ch, exec_adcReadVoltage hread⟩

/-! ### The voltage (R185 to R187) -/

theorem volt_ofNat {raw : Nat} (h : raw < 1024) : volt (BitVec.ofNat 10 raw) = (raw : Rat) * Config.vref / 1023 := by
  simp [volt, voltsAt, Nat.mod_eq_of_lt h]

theorem volt_zero : volt 0#10 = 0 := by
  rw [volt_ofNat (by decide), Nat.cast_zero, zero_mul, zero_div]

theorem volt_full : volt 1023#10 = Config.vref := by
  rw [volt_ofNat (by decide)]
  exact mul_div_cancel_left₀ _ (by norm_num)

theorem readChannel_answered {ch : Nat} (hch : ch ≤ 7) {s : State} (hi : s.adc.init = true) {bits : List Bit}
    {acks : List Bool} {levels : List (Option Bit)} (h : AnswersFrame s bits acks levels) :
    readChannel ch s = ((.ok, BitVec.ofNat 10 (rawSum bits)), afterTransaction s ch bits acks levels) := by
  rw [readChannel_of_ready ch s (validChannel_iff.mpr (by omega)) hi, adcTransaction_answered _ h,
    toNat_channelBits hch, transactionResult, assemble, assembleNat_eq_rawSum h.1]

/-- Settles O37: the transaction is ADC_READ's, and the record its sample. -/
theorem adcReadVoltageConverts : Obligations.AdcReadVoltageConverts := by
  unfold Obligations.AdcReadVoltageConverts
  refine ⟨fun s ch bits acks levels hi hch h => ?_, volt_zero, volt_full⟩
  refine ⟨(afterTransaction s ch bits acks levels).converter, ?_⟩
  rw [exec_adcReadVoltage (readChannel_answered hch hi h), ← volt_ofNat (rawSum_lt h.1)]
  rfl

/-! ### A read with any answers (R181 to R185) -/

theorem Transacts.deliver_eq {es : List Event} {s u : State} (h : Transacts es s u) (r : Result) :
    u.deliver r = { u with results := s.results ++ [(s.issuer, r)] } := by
  obtain ⟨-, -, -, -, -, -, -, hissuer, -⟩ := h.outside
  rw [State.deliver, h.results, hissuer]

theorem transactionEvents_answers (ch : Nat) {bits : List Bit} (h : bits.length = 10) :
    okAnswers (transactionEvents ch bits) = List.replicate 39 true ∧
      levelAnswers (transactionEvents ch bits) = bits.map some := by
  obtain ⟨d0, d1, d2, d3, d4, d5, d6, d7, d8, d9, rfl⟩ := ten_bits h
  exact ⟨rfl, rfl⟩

/-- On an initialized unit a read of a valid channel is one transaction, and all it can come to. -/
theorem readChannel_spec {ch : Nat} (hch : ch ≤ 7) {s : State} (hi : s.adc.init = true) :
    ∃ es u result, readChannel ch s = (transactionResult result, u) ∧ Transacts es s u ∧
      TransactionEnds (channelBits ch) es result := by
  obtain ⟨es, htransacts, hends⟩ := adcTransaction_spec (channelBits ch) s
  exact ⟨es, _, _, readChannel_of_ready ch s (validChannel_iff.mpr (by omega)) hi, htransacts, hends⟩

/-- Settles O38: either all 88 events succeeded, and no failure was listed for any of them, or the read was
abandoned. -/
theorem adcReadSucceedsOrAbandons : Obligations.AdcReadSucceedsOrAbandons := by
  unfold Obligations.AdcReadSucceedsOrAbandons
  intro s ch hi h0 h7
  obtain ⟨ch, rfl⟩ := Int.eq_ofNat_of_zero_le h0
  have hch : ch ≤ 7 := by omega
  obtain ⟨es, u, result, hread, htransacts, hends⟩ := readChannel_spec hch hi
  rw [exec_adcRead hread, exec_adcReadVoltage hread, htransacts.deliver_eq, htransacts.deliver_eq]
  cases result with
  | none =>
    obtain ⟨bits, stopped, ok1, ok2, hbits, hfails, rfl⟩ := hends
    rw [toNat_channelBits hch] at hfails
    obtain ⟨hlength, hall⟩ := transactionEvents_succeeded ch hbits
    obtain ⟨done, e, rfl, hshort, hdone, he⟩ := hfails.ends hall
    have hbound : (done ++ [e] ++ [Event.pinWrite .adcClk false ok1, .pinWrite .adcCs true ok2]).length ≤ 90 := by
      simp only [List.length_append, List.length_cons, List.length_nil]
      omega
    exact ⟨_, _, rfl, htransacts.events, htransacts.answers, hbound, htransacts.init.trans hi, htransacts.outside,
      htransacts.outputs, .inr ⟨rfl, ⟨ch, rfl⟩, bits, done, e, ok1, ok2, List.append_assoc .., hbits, hfails, hdone,
        he⟩, fun _ _ _ _ => rfl, fun _ _ _ _ => rfl⟩
  | some raw =>
    obtain ⟨bits, hbits, rfl, rfl⟩ := hends
    rw [toNat_channelBits hch] at htransacts
    obtain ⟨hlength, hall⟩ := transactionEvents_succeeded ch hbits
    obtain ⟨hoks, hlevels⟩ := transactionEvents_answers ch hbits
    obtain ⟨hacked, hleveled, -⟩ := htransacts.answers
    refine ⟨_, _, rfl, htransacts.events, htransacts.answers, by omega, htransacts.init.trans hi, htransacts.outside,
      htransacts.outputs, .inl ⟨hlength, hall, bits, assemble bits, hbits, rfl, ?_, rfl, rfl⟩, ?_, ?_⟩
    · rw [assemble, assembleNat_eq_rawSum hbits]
    · intro n acks hn hacks
      rw [hoks, hacks] at hacked
      exact absurd hn (Nat.not_lt.mpr hacked.le_of_all_ok)
    · intro front levels hfront hlisted
      rw [hlevels, hlisted] at hleveled
      exact absurd (hleveled.mem_of_listed (by simpa [hbits] using hfront)) (by simp)

end Sys2Proof.Machine
end

section
/-! The quadrature decoder's operations (43_quadrature.md R210 to R217): which notifications are accepted edges, what an
accepted one and any other makes of the decoder, and the pairs of the counting law. -/

namespace Sys2Proof.Machine

/-! ### Which notifications are accepted (R210, R211) -/

theorem tickGap_eq (t0 t : Tick) : tickGap t0 t = (t.toNat + 2 ^ 32 - t0.toNat) % 2 ^ 32 := by
  rw [tickGap, BitVec.toNat_sub]
  congr 1
  omega

theorem debounceOk_iff {last : Option Tick} {t : Tick} :
    debounceOk last t = true ↔ ∀ t0, last = some t0 → 200 ≤ (t.toNat + 2 ^ 32 - t0.toNat) % 2 ^ 32 := by
  cases last with
  | none => simp [debounceOk]
  | some t0 => simp [debounceOk, Config.debounceMs, tickGap_eq]

theorem isAccepted_iff {e : Enc} {a : Bit} {t : Tick} :
    isAccepted e a t = true ↔ e.lastA = false ∧ a = true ∧ debounceOk e.lastEventTick t = true := by
  simp only [isAccepted, isRising, Bool.and_eq_true, Bool.not_eq_true', and_assoc]

/-! ### The decoder after a notification (R210, R212, R213) -/

theorem exec_encEdge (a b : Bit) (t : Tick) (s : State) :
    exec (.encEdge a b t) s =
      .next { s with enc := edgeStep a b t s.enc, results := s.results ++ [(s.issuer, .status .ok)] } := rfl

theorem edgeStep_of_accepted {e : Enc} {t : Tick} (ha : e.lastA = false) (ht : debounceOk e.lastEventTick t = true)
    (b : Bit) : edgeStep true b t e = { acceptEdge b t e with lastA := true, lastB := b } := by
  rw [edgeStep, if_pos (isAccepted_iff.mpr ⟨ha, rfl, ht⟩)]

theorem edgeStep_of_not_accepted {e : Enc} {a : Bit} {t : Tick} (h : ¬ isAccepted e a t = true) (b : Bit) :
    edgeStep a b t e = { e with lastA := a, lastB := b } := by
  rw [edgeStep, if_neg h]

theorem acceptEdge_position_toInt (b : Bit) (t : Tick) (e : Enc) :
    (acceptEdge b t e).position.toInt = (e.position.toInt + stepDelta b).bmod (2 ^ 32) := by
  rw [acceptEdge, BitVec.toInt_add, BitVec.toInt_ofInt, Int.add_bmod_bmod]

/-- Settles O41: the step is added in 32 bits. -/
theorem acceptedEdgeStepsThePosition : Obligations.AcceptedEdgeStepsThePosition := by
  unfold Obligations.AcceptedEdgeStepsThePosition
  intro s b t ha ht
  refine ⟨_, acceptEdge_position_toInt b t s.enc, ?_⟩
  rw [exec_encEdge, edgeStep_of_accepted ha (debounceOk_iff.mpr ht)]
  rfl

/-- Settles O42: each of the three cases denies one condition of an accepted edge. -/
theorem otherEdgesOnlyStoreThePhases : Obligations.OtherEdgesOnlyStoreThePhases := by
  unfold Obligations.OtherEdgesOnlyStoreThePhases
  intro s a b t h
  have hnot : ¬ isAccepted s.enc a t = true := by
    rw [isAccepted_iff, debounceOk_iff]
    rintro ⟨hlow, hrose, houtside⟩
    obtain hhigh | hfell | ⟨t0, hlast, hinside⟩ := h
    · simp [hlow] at hhigh
    · simp [hrose] at hfell
    · exact absurd (houtside t0 hlast) (Nat.not_le.mpr hinside)
  rw [exec_encEdge, edgeStep_of_not_accepted hnot]

/-! ### Reading and clearing (R214, R215) -/

/-- Settles O43: the read only leaves its record. -/
theorem encReadReturnsPositionAndFlag : Obligations.EncReadReturnsPositionAndFlag := by
  unfold Obligations.EncReadReturnsPositionAndFlag
  exact ⟨fun _ _ => rfl, fun _ => rfl⟩

/-- Settles O44: the flag is the one field written, and the record says OK. -/
theorem encClearClearsOnlyTheFlag : Obligations.EncClearClearsOnlyTheFlag := by
  unfold Obligations.EncClearClearsOnlyTheFlag
  exact ⟨fun _ _ => rfl, fun _ => rfl⟩

/-! ### The counting law (R217) -/

theorem runAll_cons_of_next {i : Instr} {s t : State} (h : exec i s = .next t) (is : List Instr) :
    runAll (i :: is) s = runAll is t := by
  rw [runAll, h]

/-- The state after one pair of the counting law whose rise, at `t`, is accepted: A is low again, so the next rise is
seen, and the falling notification's tick is not kept. -/
def State.afterPair (β : Bit) (t : Tick) (s : State) : State :=
  { s with
    enc := { acceptEdge β t s.enc with lastA := false, lastB := β }
    results := s.results ++ [(s.issuer, .status .ok)] ++ [(s.issuer, .status .ok)] }

theorem runAll_pair {s : State} {t : Tick} (ha : s.enc.lastA = false) (ht : debounceOk s.enc.lastEventTick t = true)
    (β : Bit) (t' : Tick) (is : List Instr) :
    runAll (.encEdge true β t :: .encEdge false β t' :: is) s = runAll is (s.afterPair β t) := by
  rw [runAll_cons_of_next (exec_encEdge ..), runAll_cons_of_next (exec_encEdge ..), edgeStep_of_accepted ha ht,
    edgeStep_of_not_accepted (by simp [isAccepted_iff]), State.afterPair]

theorem stepDelta_eq_mul (b : Bit) : stepDelta b = (if b then 1 else -1) * Config.stepSize := by
  cases b <;> simp [stepDelta]

/-- Wrapping after one pair and again after `n` more is wrapping once, after all of them. -/
theorem afterPair_position_bmod (β : Bit) (t : Tick) (s : State) (n : Nat) :
    ((s.afterPair β t).enc.position.toInt + (if β then 1 else -1) * (n * Config.stepSize)).bmod (2 ^ 32) =
      (s.enc.position.toInt + (if β then 1 else -1) * ((n + 1 : Nat) * Config.stepSize)).bmod (2 ^ 32) := by
  rw [State.afterPair, acceptEdge_position_toInt, Int.bmod_add_bmod, stepDelta_eq_mul]
  congr 1
  push_cast
  ring

/-- Settles O45, by induction on the pairs: each accepted rise leaves the tick the next rise is measured from. -/
theorem countingLaw : Obligations.CountingLaw := by
  unfold Obligations.CountingLaw
  intro s β ticks
  induction ticks generalizing s with
  | nil =>
    intro ha _ _
    exact ⟨s, rfl, by simpa using (BitVec.toInt_bmod_cancel s.enc.position).symm, ha, rfl, rfl, rfl, rfl⟩
  | cons p rest ih =>
    intro ha hfirst hgaps
    have hnext : ∀ q, rest.head? = some q → 200 ≤ (q.1.toNat + 2 ^ 32 - p.1.toNat) % 2 ^ 32 := fun q hq =>
      hgaps 0 p q rfl (by simpa [List.head?_eq_getElem?] using hq)
    obtain ⟨u, hrun, hposition, hframe⟩ :=
      ih (s.afterPair β p.1) rfl (fun _ hlast => Option.some.inj hlast ▸ hnext) (fun n => hgaps (n + 1))
    have hrise : debounceOk s.enc.lastEventTick p.1 = true := debounceOk_iff.mpr fun t0 hlast => hfirst t0 hlast p rfl
    refine ⟨u, (runAll_pair ha hrise β p.2 _).trans hrun, ?_, hframe⟩
    rw [hposition, afterPair_position_bmod, List.length_cons]

end Sys2Proof.Machine
end

section
/-! The keypad scanner's operations (44_keypad.md R230 to R243): the exact course of a pass with every transaction ok,
all a pass can do with any answers, and what a pass makes of the flag. -/

namespace Sys2Proof.Machine

/-! ### The consumer's operations (R234 to R236) -/

/-- Settles O50: the three operations are one record update each. -/
theorem keypadConsumerOperations : Obligations.KeypadConsumerOperations := by
  unfold Obligations.KeypadConsumerOperations
  exact ⟨fun _ _ => ⟨rfl, rfl, rfl⟩, fun _ => ⟨rfl, rfl, rfl⟩⟩

/-! ### The trace of a pass (R242) -/

theorem rowTrace_length_le (p : KpParams) (pattern : Byte) (i : Nat) (o : RowOutcome) :
    (rowTrace p pattern i o).length ≤ 4 := by
  cases o <;> simp [rowTrace]

theorem rowsTrace_length_le (p : KpParams) (rows : List (Byte × Nat)) (outcomes : List RowOutcome) :
    (rowsTrace p rows outcomes).length ≤ 4 * rows.length := by
  induction rows generalizing outcomes with
  | nil => simp [rowsTrace]
  | cons row rows ih =>
    cases outcomes with
    | nil => simp [rowsTrace]
    | cons o outcomes =>
      have hrow := rowTrace_length_le p row.1 row.2 o
      have hrest := ih outcomes
      simp only [rowsTrace, List.zip_cons_cons, List.flatMap_cons, List.length_append, List.length_cons] at hrest ⊢
      omega

theorem rowEvents_length (p : KpParams) {rows : List (Byte × Nat)} {columns : List Byte}
    (h : columns.length ≤ rows.length) : (rowEvents p rows columns).length = 3 * columns.length := by
  induction columns generalizing rows with
  | nil => simp [rowEvents, rowsTrace]
  | cons c columns ih =>
    cases rows with
    | nil => simp at h
    | cons row rows =>
      rw [rowEvents_cons, List.length_append, ih (by simpa using h)]
      simp only [rowTrace, List.length_cons, List.length_nil]
      omega

theorem passEvents_length (p : KpParams) {columns : List Byte} (h : columns.length ≤ 4) :
    (passEvents p columns).length = 3 * columns.length := rowEvents_length p h

theorem rowEvents_append (p : KpParams) {rows : List (Byte × Nat)} {columns : List Byte}
    (h : columns.length = rows.length) (rest : List (Byte × Nat)) (later : List Byte) :
    rowEvents p (rows ++ rest) (columns ++ later) = rowEvents p rows columns ++ rowEvents p rest later := by
  simp [rowEvents, rowsTrace, List.zip_append, h]

/-- Rows beyond the columns read leave no event. -/
theorem passEvents_of_rows {p : KpParams} {rows rest : List (Byte × Nat)} {columns : List Byte}
    (hrows : p.rowPat.zipIdx = rows ++ rest) (hlen : columns.length = rows.length) :
    passEvents p columns = rowEvents p rows columns :=
  calc
    passEvents p columns = rowEvents p (rows ++ rest) (columns ++ []) := by rw [← hrows, List.append_nil]; rfl
    _ = rowEvents p rows columns ++ rowEvents p rest [] := rowEvents_append p hlen rest []
    _ = rowEvents p rows columns := by simp [rowEvents, rowsTrace]

/-! ### A pass with every transaction ok (R231, R232, R240 to R242) -/

theorem latchAfter_append (rows : List (Byte × Nat)) (pattern : Byte) (i : Nat) (latch : Byte) :
    latchAfter (rows ++ [(pattern, i)]) latch = pattern := by
  induction rows generalizing latch with
  | nil => rfl
  | cons row rows ih => exact ih row.1

/-- Misses, then the first key: the pass ends there. -/
theorem scanRows_first_key (p : KpParams) {rows rest : List (Byte × Nat)} {pattern : Byte} {i : Nat} {misses : List Byte}
    {column k : Byte} {acks : List Bool} {bytes : List (Option Byte)} {s : State} (hlen : misses.length = rows.length)
    (hmiss : ∀ m ∈ misses, keyOf p m = none) (hkey : keyOf p column = some k)
    (h : AnswersPass s (misses ++ [column]) acks bytes) :
    scanRows p (rows ++ (pattern, i) :: rest) true s =
      { matched := true, allOk := true,
        state := (s.afterRows p (rows ++ [(pattern, i)]) (misses ++ [column]) acks bytes).noteKey k } := by
  obtain ⟨hacks, hbytes⟩ := h
  rw [scanRows_misses p rows _ true misses (true :: acks) (some column :: bytes) s hlen hmiss
      (by simpa [List.replicate_succ'] using hacks) (by simpa using hbytes),
    scanRows_hit p pattern i rest true column k acks bytes _ hkey rfl rfl]
  simp [State.afterRows, latchAfter_append, latchAfter, rowEvents_append p hlen]

theorem State.noteKey_eq (k : Byte) (s : State) : s.noteKey k = { s with kp := s.kp.note k } := by
  unfold State.noteKey Kp.note
  split <;> rfl

/-- A pass that ended on a key, without a skip before it. -/
theorem exec_kpScan_of_key {s u : State} {k : Byte}
    (h : scanPass s = { matched := true, allOk := true, state := u.noteKey k }) :
    exec .kpScan s = .next (State.deliver (keypadResult .ok (u.kp.note k)) { u with kp := u.kp.note k }) := by
  rw [exec, execKpScan, h]
  simp [Pass.settle, State.noteKey_eq]

/-- A pass that read every row and met no key. -/
theorem exec_kpScan_of_no_key {s u : State} (h : scanPass s = { matched := false, allOk := true, state := u }) :
    exec .kpScan s = .next (u.forgetKey.deliver (keypadResult .ok u.forgetKey.kp)) := by
  rw [exec, execKpScan, h]
  rfl

/-- Row `n` among the four rows of a pass. -/
theorem rowPat_zipIdx_split (p : KpParams) {n : Nat} (h : n ≤ 3) :
    ∃ rows rest, p.rowPat.zipIdx = rows ++ (p.rowPat.getD n 0#8, n) :: rest ∧ n = rows.length := by
  refine ⟨p.rowPat.zipIdx.take n, p.rowPat.zipIdx.drop (n + 1), ?_⟩
  interval_cases n <;> exact ⟨rfl, rfl⟩

/-- Settles O47: the rows before the first key are passed over, and its row ends the pass. -/
theorem scanRecordsTheFirstKey : Obligations.ScanRecordsTheFirstKey := by
  unfold Obligations.ScanRecordsTheFirstKey
  intro s misses column k acks bytes hlen hmiss hkey hanswers
  obtain ⟨rows, rest, hrows, hbefore⟩ := rowPat_zipIdx_split s.kpParams hlen
  have hpass : scanPass s = _ := (congrArg (scanRows s.kpParams · true s) hrows).trans
    (scanRows_first_key s.kpParams hbefore hmiss hkey hanswers)
  have hevents := passEvents_of_rows (columns := misses ++ [column])
    (hrows.trans (List.append_cons rows _ rest)) (by simpa using hbefore)
  refine ⟨_, rfl, ?_, ?_⟩
  · rw [passEvents_length _ (by simpa using Nat.lt_succ_of_le hlen), List.length_append, List.length_singleton]
  · rw [exec_kpScan_of_key hpass, hevents, ← Kp.note_eq]
    simp [State.afterRows, latchAfter_append, State.deliver, keypadResult]

/-- Settles O48: every row is passed over, so the pass ends with no key and no skip. -/
theorem scanWithoutKeyClearsTheKey : Obligations.ScanWithoutKeyClearsTheKey := by
  unfold Obligations.ScanWithoutKeyClearsTheKey
  intro s columns acks bytes hlen hmiss hanswers
  have hpass : scanPass s = _ :=
    scanRows_misses s.kpParams s.kpParams.rowPat.zipIdx [] true columns acks bytes s hlen hmiss hanswers.1 hanswers.2
  exact ⟨by rw [passEvents_length _ hlen.le, hlen], exec_kpScan_of_no_key hpass⟩

/-! ### A pass with any answers (R230 to R233, R240 to R243) -/

/-- A row's index has no part in the latch. -/
theorem rowsLatch_eq_latchAfterPass (p : KpParams) (outcomes : List RowOutcome) (latch : Byte) :
    rowsLatch p.rowPat.zipIdx outcomes latch = latchAfterPass p outcomes latch := by
  have hfst : p.rowPat = p.rowPat.zipIdx.map Prod.fst := rfl
  rw [latchAfterPass, hfst, List.zip_map_left, List.foldl_map]
  rfl

/-- A pass over the four rows from a state that has skipped none. -/
theorem scanPass_spec (s : State) :
    ∃ outcomes, PassRuns s.kpParams s.kpParams.rowPat.zipIdx true s (scanPass s) outcomes :=
  scanRows_spec ..

theorem PassRuns.settle_kp {p : KpParams} {rows : List (Byte × Nat)} {s : State} {r : Pass} {outcomes : List RowOutcome}
    (h : PassRuns p rows true s r outcomes) : r.settle.kp = kpAfterPass p outcomes s.kp := by
  have hkp := h.kp
  have hmatched := h.matched
  have hok := h.allOk
  unfold Pass.settle kpAfterPass
  cases hkey : outcomes.findSome? (rowKey p) with
  | some k => simp [hmatched, hkp, hkey, Kp.note_eq]
  | none => cases hskip : outcomes.any rowSkipped <;> simp [hmatched, hok, hkp, hkey, hskip]

@[simp] theorem Pass.settle_expander (r : Pass) : r.settle.expander = r.state.expander := by
  unfold Pass.settle
  split <;> rfl

theorem Scans.deliver_results {es : List Event} {s t : State} (h : Scans es s t) (r : Result) :
    (t.deliver r).results = s.results ++ [(s.issuer, r)] := by
  obtain ⟨-, -, -, -, -, -, -, hissuer, -⟩ := h.outside
  rw [State.deliver_results, h.results, hissuer]

/-- Settles O49: `scanRows_spec` over the four rows, and the end of the pass. -/
theorem scanWithSkippedRows : Obligations.ScanWithSkippedRows := by
  unfold Obligations.ScanWithSkippedRows
  intro s
  obtain ⟨outcomes, h⟩ := scanPass_spec s
  obtain ⟨hmiss, hend⟩ := h.ends
  have hscans : Scans (passTrace s.kpParams outcomes) s (scanPass s).settle := by
    have htrans := h.scans.trans (Pass.settle_scans _)
    rwa [List.append_nil] at htrans
  have hstatus : (if outcomes.any rowSkipped then Status.busTransactionError else .ok) =
      if (scanPass s).allOk then .ok else .busTransactionError := by
    rw [h.allOk]
    cases outcomes.any rowSkipped <;> rfl
  refine ⟨_, outcomes, rfl, ?_, hmiss, ?_, hscans.events, hscans.answers, rowsTrace_length_le .., h.settle_kp, ?_, ?_,
    hscans.outside⟩
  · exact hend.elim (fun hall => hall.le) fun ⟨hfewer, _⟩ => hfewer.le
  · exact hend.imp_right fun ⟨_, o, hlast, hkey⟩ => ⟨o, _, hlast, (Option.some_get hkey).symm⟩
  · rw [State.deliver_expander, Pass.settle_expander, h.latch, rowsLatch_eq_latchAfterPass]
  · rw [hstatus]
    exact hscans.deliver_results _

/-! ### A repeated key (R237, R238) -/

/-- A pass that leaves `k` recorded keeps the flag if `k` was recorded before, and else has set it. -/
theorem exec_kpScan_keyPressed {s t : State} {k : Byte} (h : exec .kpScan s = .next t) (hk : t.kp.lastKey = some k) :
    t.kp.keyPressed = if s.kp.lastKey = some k then s.kp.keyPressed else true := by
  cases (exec_blockStep h).kp with
  | keeps hkeeps => rw [hkeeps] at hk ⊢; rw [if_pos hk]
  | notes _ key _ hnote =>
    rw [Kp.note_eq] at hnote
    split at hnote
    · rw [hnote] at hk ⊢; rw [if_pos hk]
    · next hnew =>
      rw [hnote] at hk ⊢
      rw [if_neg (fun hlast => hnew (hlast.trans hk.symm))]
  | forgets _ hforget => rw [hforget] at hk; cases hk
  | lowers hi => cases hi

/-- Settles O51: by induction on the passes, each of which meets a recorded key and so keeps the flag; after KP_CLEAR_KEY
no key is recorded. -/
theorem repeatPressIsNotDetected : Obligations.RepeatPressIsNotDetected := by
  unfold Obligations.RepeatPressIsNotDetected
  refine ⟨fun n => ?_, fun s t u k _ hclear hscan hk => ?_⟩
  · induction n with
    | zero =>
      intro s t k _ hflag hrun _
      cases hrun
      exact hflag
    | succ n ih =>
      intro s t k hlast hflag hrun hkeeps
      obtain ⟨u, hu, -⟩ := exec_total_blockStep .kpScan s
      have huk : u.kp.lastKey = some k := hkeeps 0 s u n.succ_pos rfl hu
      have huflag : u.kp.keyPressed = false := by rw [exec_kpScan_keyPressed hu huk, if_pos hlast, hflag]
      refine ih u t k huk huflag ((runAll_cons_of_next hu _).symm.trans hrun) fun m v w hm hv hw => ?_
      exact hkeeps (m + 1) v w (Nat.succ_lt_succ hm) ((runAll_cons_of_next hu _).trans hv) hw
  · have ht : t.kp.lastKey = none := by cases hclear; rfl
    rw [exec_kpScan_keyPressed hscan hk, ht, if_neg nofun]

end Sys2Proof.Machine
end

section
/-! The result records (60_exceptions.md R260 to R272): nothing an operation does before it returns adds one, and its
return adds exactly one, to its issuer, with a status of its own. -/

namespace Sys2Proof.Machine

/-! ### Before the return -/

/-- From `s` to `t` no record was added and the issuer is the same. -/
structure KeepsRecords (s t : State) : Prop where
  results : t.results = s.results
  issuer : t.issuer = s.issuer

theorem KeepsRecords.refl (s : State) : KeepsRecords s s := ⟨rfl, rfl⟩

theorem KeepsRecords.trans {s t u : State} (h : KeepsRecords s t) (h' : KeepsRecords t u) : KeepsRecords s u :=
  ⟨h'.results.trans h.results, h'.issuer.trans h.issuer⟩

theorem TakesAcks.keepsRecords {es : List Event} {s t : State} (h : TakesAcks es s t) : KeepsRecords s t := by
  obtain ⟨-, -, -, -, -, -, hissuer, -⟩ := h.outside
  exact ⟨h.results, hissuer⟩

theorem Sends.keepsRecords {sent : List Byte} {s t : State} (h : Sends sent s t) : KeepsRecords s t :=
  ⟨h.results, h.issuer⟩

theorem Renders.keepsRecords {sent : List Byte} {p : Nat × Nat} {s t : State} (h : Renders sent p s t) :
    KeepsRecords s t := ⟨h.results, h.issuer⟩

theorem Queries.keepsRecords {reads : List Event} {s t : State} (h : Queries reads s t) : KeepsRecords s t :=
  ⟨h.results, h.issuer⟩

theorem Transacts.keepsRecords {es : List Event} {s t : State} (h : Transacts es s t) : KeepsRecords s t := by
  obtain ⟨-, -, -, -, -, -, -, hissuer, -⟩ := h.outside
  exact ⟨h.results, hissuer⟩

theorem Scans.keepsRecords {es : List Event} {s t : State} (h : Scans es s t) : KeepsRecords s t := by
  obtain ⟨-, -, -, -, -, -, -, hissuer, -⟩ := h.outside
  exact ⟨h.results, hissuer⟩

theorem openSession_keepsRecords (s : State) : KeepsRecords s (openSession s).2 := by
  have hopen := serialOpen_takesAcks Config.port s.vfd.lineCfg s
  have hboth := hopen.trans (setRts_takesAcks true _)
  simp only [openSession]
  split
  · exact .refl s
  · split
    · split
      · rw [startSession_eq]
        exact hboth.keepsRecords.trans ⟨rfl, rfl⟩
      · exact (hboth.trans (serialClose_takesAcks _)).keepsRecords
    · exact hopen.keepsRecords

theorem clear_keepsRecords (us : Nat) (s : State) :
    KeepsRecords s ((delay us (displayHome (displayClear (emit Config.clearSeq s)))).moveCursor 0 0) :=
  (emit_sends Config.clearSeq s).keepsRecords.trans ⟨rfl, rfl⟩

theorem writeBody_keepsRecords (text : List Byte) (s : State) : KeepsRecords s (writeBody text s) :=
  (writeBody_spec text s).keepsRecords

theorem writeBlinking_keepsRecords (text : List Byte) (s : State) :
    KeepsRecords s (sendBlinkEnd (writeBody text (sendBlinkStart s))) :=
  ((sendBlinkStart_sends s).keepsRecords.trans (writeBody_keepsRecords text _)).trans
    (sendBlinkEnd_sends _).keepsRecords

theorem initAdc_keepsRecords (s : State) : KeepsRecords s (initAdc s).2 := by
  obtain ⟨_, u, hpins, -, ⟨hinit, -⟩ | ⟨hinit, -⟩⟩ := initAdc_spec s <;>
    exact hinit ▸ ⟨hpins.results, hpins.issuer⟩

theorem readChannel_keepsRecords (ch : Int) (s : State) : KeepsRecords s (readChannel ch s).2 := by
  obtain ⟨_, h⟩ := readChannel_transacts ch s
  exact h.keepsRecords

theorem scanPass_keepsRecords (s : State) : KeepsRecords s (scanPass s).settle := by
  obtain ⟨_, h⟩ := scanPass_spec s
  exact (h.scans.trans (Pass.settle_scans _)).keepsRecords

/-! ### The statuses (R261 to R268) -/

theorem transactionResult_status (result : Option (BitVec 10)) :
    (transactionResult result).1 ∈ [Status.ok, .busTransactionError] := by
  cases result <;> simp [transactionResult]

theorem readChannel_of_uninitialized {ch : Int} (h : validChannel ch = true) {s : State} (hi : s.adc.init = false) :
    readChannel ch s = ((.notInitialized, 0#10), s) := by
  simp [readChannel, h, hi]

/-- The checks of a read in order, then its transaction (R272). -/
theorem readChannel_status (ch : Int) (s : State) :
    (readChannel ch s).1.1 ∈ [Status.ok, .invalidChannel, .notInitialized, .busTransactionError] := by
  have hsubset : [Status.ok, .busTransactionError] ⊆
      [Status.ok, .invalidChannel, .notInitialized, .busTransactionError] := by decide
  unfold readChannel
  split
  · simp
  · split
    · simp
    · exact hsubset (transactionResult_status _)

theorem sampleResult_status (ch : Int) (st : Status) (raw : BitVec 10) :
    resultStatus (sampleResult ch st raw) = st := by
  unfold sampleResult
  split
  · next h => exact h.symm
  · rfl

theorem queryResult_status (buf : List Byte) : resultStatus (queryResult buf) ∈ [Status.ok, .timeoutError] := by
  unfold queryResult
  split <;> simp [resultStatus]

/-! ### The return (R260) -/

/-- The records instruction `i` can add: one, to the issuer, with a status of the table; or, off the host port, none. -/
inductive Records (i : Instr) (s t : State) : Prop
  | returns (r : Result) (hstatus : resultStatus r ∈ statusesOf i) (h : t.results = s.results ++ [(s.issuer, r)])
  | silent (hi : isHostOperation i = false) (h : t.results = s.results)

theorem KeepsRecords.returns {i : Instr} {s t : State} (h : KeepsRecords s t) {r : Result}
    (hstatus : resultStatus r ∈ statusesOf i) : Records i s (t.deliver r) :=
  .returns r hstatus (by rw [State.deliver_results, h.results, h.issuer])

theorem withSession_records {i : Instr} {s live : State} (hi : .noSession ∈ statusesOf i) (h : Records i s live) :
    Records i s (withSession s live) := by
  unfold withSession
  split
  · exact h
  · exact (KeepsRecords.refl s).returns hi

/-- An operation with a session guard answers OK or NoSession (R268). -/
theorem withSession_deliver_records {i : Instr} {s t : State} (hi : statusesOf i = [.ok, .noSession])
    (h : KeepsRecords s t) : Records i s (withSession s (t.deliver (.status .ok))) :=
  withSession_records (by simp [hi]) (h.returns (by simp [hi, resultStatus]))

theorem execVfdSetCursor_records (row col : Int) (s : State) :
    ∃ t, execVfdSetCursor row col s = .next t ∧ Records (.vfdSetCursor row col) s t := by
  refine ⟨_, rfl, withSession_records (by simp [statusesOf]) ?_⟩
  split
  · exact ((sendPosition_sends _ _ s).keepsRecords.trans (moveCursor_renders _ _ _).keepsRecords).returns (.head _)
  · exact (KeepsRecords.refl s).returns (.head _)

theorem execVfdQuery_records (s : State) : ∃ t, execVfdQuery s = .next t ∧ Records .vfdQuery s t := by
  obtain ⟨_, hquery, -⟩ := query_spec s
  refine ⟨_, rfl, ?_⟩
  split
  · exact hquery.keepsRecords.returns (List.mem_append_left [.noSession] (queryResult_status _))
  · exact (KeepsRecords.refl s).returns (by decide)

theorem sendFrame_records {i : Instr} (hi : statusesOf i = [.ok, .busTransactionError]) (ch : BitVec 3) (s : State) :
    Records i s (sendFrame ch s) := by
  obtain ⟨_, h, -⟩ := adcTransaction_spec ch s
  exact h.keepsRecords.returns (hi ▸ transactionResult_status _)

/-- A wire command returns nothing: it is bytes and a response (notes/assumptions/7.md). -/
theorem IsResponse.records {f : State → State} (hf : IsResponse f) {i : Instr} (hi : isHostOperation i = false)
    (bytes : List Byte) (s : State) : Records i s (f (emit bytes s)) :=
  .silent hi (sends_of_response hf.cases (emit_sends bytes s)).results

theorem selectRow_records {i : Instr} (hi : isHostOperation i = false) (p : KpParams) (pattern : Byte) (s : State) :
    Records i s (selectRow p pattern s) :=
  .silent hi (busWrite_scans p.addr pattern s).results

/-! ### Every instruction -/

/-- Every instruction ends in a next state, with the records the table gives it. -/
theorem exec_total_records (i : Instr) (s : State) : ∃ t, exec i s = .next t ∧ Records i s t := by
  cases i
  case vfdOpen => exact ⟨_, rfl, (openSession_keepsRecords s).returns (List.mem_pair.mpr (ite_eq_or_eq ..))⟩
  case vfdClose => exact ⟨_, rfl, withSession_deliver_records rfl ⟨rfl, rfl⟩⟩
  case vfdClear => exact ⟨_, rfl, withSession_deliver_records rfl (clear_keepsRecords _ s)⟩
  case vfdWrite text => exact ⟨_, rfl, withSession_deliver_records rfl (writeBody_keepsRecords text s)⟩
  case vfdWriteBlinking text => exact ⟨_, rfl, withSession_deliver_records rfl (writeBlinking_keepsRecords text s)⟩
  case vfdSetCursor row col => exact execVfdSetCursor_records row col s
  case vfdQuery => exact execVfdQuery_records s
  case adcInit => exact ⟨_, rfl, (initAdc_keepsRecords s).returns (List.mem_pair.mpr (ite_eq_or_eq ..))⟩
  case adcRead ch => exact ⟨_, rfl, (readChannel_keepsRecords ch s).returns (readChannel_status ch s)⟩
  case adcReadVoltage ch =>
    exact ⟨_, rfl, (readChannel_keepsRecords ch s).returns
      ((sampleResult_status ..).symm ▸ readChannel_status ch s)⟩
  case encEdge | encRead | encClearChanged | kpRead | kpClearFlag | kpClearKey =>
    exact ⟨_, rfl, .returns _ (.head _) rfl⟩
  case kpScan => exact ⟨_, rfl, (scanPass_keepsRecords s).returns (List.mem_pair.mpr (ite_eq_or_eq ..))⟩
  case wireClear => exact ⟨_, rfl, displayClear_response.records rfl _ s⟩
  case wireHome => exact ⟨_, rfl, displayHome_response.records rfl _ s⟩
  case wireSetRow rr => exact ⟨_, rfl, (displaySetRow_response rr).records rfl _ s⟩
  case wireSetCol cc => exact ⟨_, rfl, (displaySetCol_response cc).records rfl _ s⟩
  case wireNewline => exact ⟨_, rfl, displayNewline_response.records rfl _ s⟩
  case wireBlinkStart => exact ⟨_, rfl, (displayBlink_response true).records rfl _ s⟩
  case wireBlinkEnd => exact ⟨_, rfl, (displayBlink_response false).records rfl _ s⟩
  case wireScrollEnable => exact ⟨_, rfl, displayScrollEnable_response.records rfl _ s⟩
  case wireCursorUp | wireBackspace | wireDeleteChar | wireBrightness | wireContentQuery =>
    exact ⟨_, rfl, displayUnspecified_response.records rfl _ s⟩
  case wireCharacter x => exact ⟨_, exec_wireCharacter x s, (displayCharacter_response x).records rfl _ s⟩
  case adcCmdCh0 | adcCmdCh1 | adcCmdCh2 | adcCmdCh3 | adcCmdCh4 | adcCmdCh5 | adcCmdCh6 | adcCmdCh7 =>
    exact ⟨_, rfl, sendFrame_records rfl _ s⟩
  case kpRowsel0 | kpRowsel1 | kpRowsel2 | kpRowsel3 => exact ⟨_, rfl, selectRow_records rfl _ _ s⟩

theorem exec_records {i : Instr} {s t : State} (h : exec i s = .next t) : Records i s t := by
  obtain ⟨u, hu, hrecords⟩ := exec_total_records i s
  obtain rfl := Host.Outcome.next.inj (hu.symm.trans h)
  exact hrecords

/-- Settles O55: the history grows as the line does, and a host operation is not silent. -/
theorem oneResultRecordPerOperation : Obligations.OneResultRecordPerOperation := by
  unfold Obligations.OneResultRecordPerOperation
  intro i s t h
  obtain ⟨es, hevents, -⟩ := (exec_blockStep h).line
  refine ⟨⟨es, hevents⟩, fun hhost => ?_⟩
  cases exec_records h with
  | returns r _ hresults => exact ⟨r, hresults⟩
  | silent hi _ => exact absurd hhost (by simp [hi])

/-- Settles O56: what an instruction adds to the records is one with a status of its own, or nothing. -/
theorem statusesAreTheTables : Obligations.StatusesAreTheTables := by
  unfold Obligations.StatusesAreTheTables
  refine ⟨rfl, fun i s t h => ?_⟩
  cases exec_records h with
  | returns r hstatus hresults => exact ⟨_, hresults, fun _ hr => List.mem_singleton.mp hr ▸ hstatus⟩
  | silent _ hresults => exact ⟨[], by simp [hresults], nofun⟩

/-- Settles O12: `exec_total_records` covers every instruction in every state. -/
theorem everyInstructionIsEnabled : Obligations.EveryInstructionIsEnabled := by
  unfold Obligations.EveryInstructionIsEnabled
  intro i s
  obtain ⟨t, h, -⟩ := exec_total_records i s
  exact ⟨t, h⟩

/-- Settles O35: the unit's `init` is judged before any primitive. -/
theorem uninitializedReadTouchesNothing : Obligations.UninitializedReadTouchesNothing := by
  unfold Obligations.UninitializedReadTouchesNothing
  intro s ch hi hmin hmax
  have hread := readChannel_of_uninitialized (validChannel_iff.mpr ⟨hmin, hmax⟩) hi
  exact ⟨exec_adcRead hread, ch, exec_adcReadVoltage hread⟩

end Sys2Proof.Machine
end

section
/-! Launch (70_reset_and_hazards.md R291 to R293) and two hazards: an edge between HOST's read and its clear (R303), and
a HOST request during a HOST operation (R305). -/

namespace Sys2Proof.Machine

/-! ### The changed-flag race (R303) -/

theorem stepDelta_ne_zero (b : Bit) : BitVec.ofInt 32 (stepDelta b) ≠ 0#32 := by
  cases b <;> decide

/-- One step in 32 bits never wraps round to where it began (43_quadrature.md R212). -/
theorem acceptEdge_position_ne (b : Bit) (t : Tick) (e : Enc) : (acceptEdge b t e).position ≠ e.position :=
  add_ne_left.mpr (stepDelta_ne_zero b)

theorem edgeStep_of_accepted_position_ne {e : Enc} {t : Tick} (ha : e.lastA = false)
    (ht : debounceOk e.lastEventTick t = true) (b : Bit) : (edgeStep true b t e).position ≠ e.position := by
  rw [edgeStep_of_accepted ha ht]
  exact acceptEdge_position_ne b t e

/-- HOST's read and its clear with an edge between them: the read's record, then the two acknowledgements. -/
theorem runAll_read_edge_clear (a b : Bit) (t : Tick) (s : State) :
    runAll [.encRead, .encEdge a b t, .encClearChanged] s =
      .next { s with
        enc := { edgeStep a b t s.enc with changed := false }
        results := s.results ++ [(s.issuer, .encoder .ok s.enc.position.toInt s.enc.changed)] ++
          [(s.issuer, .status .ok)] ++ [(s.issuer, .status .ok)] } := by
  rw [runAll_cons_of_next (encReadReturnsPositionAndFlag.2 s), runAll_cons_of_next (exec_encEdge ..),
    runAll_cons_of_next (encClearClearsOnlyTheFlag.2 _), runAll]

/-- Settles O46: the clear lowers the flag the edge raised, and the edge's step is not in the record read before it. -/
theorem changedFlagRace : Obligations.ChangedFlagRace := by
  unfold Obligations.ChangedFlagRace
  intro s b t ha ht
  exact ⟨_, runAll_read_edge_clear true b t s, rfl, by simp,
    edgeStep_of_accepted_position_ne ha (debounceOk_iff.mpr ht) b⟩

/-! ### A HOST request during a HOST operation (R305) -/

theorem clashes_host_during (i : Instr) : clashes .host true i = true := rfl

/-- Settles O11: a frame is refused before it is decoded, and an operation whatever it is. -/
theorem concurrentHostRequestIsRefused : Obligations.ConcurrentHostRequestIsRefused := by
  unfold Obligations.ConcurrentHostRequestIsRefused
  refine ⟨fun s surface bytes q hin => ?_, fun s i q hin => ?_⟩
  · simp [step, fetch, hin]
  · simp [step, fetch, hin, clashes_host_during]

/-! ### Launch (R291 to R293) -/

/-- Settles O58: no session, no driven output, no flag and no key; the display drawn is in shape. -/
theorem launchMeetsTheInvariant : Obligations.LaunchMeetsTheInvariant := by
  unfold Obligations.LaunchMeetsTheInvariant
  intro p a0 b0 hp
  exact {
    cursor := nofun
    rts := rfl
    line := rfl
    pins := nofun
    edge := nofun
    key := nofun
    params := hp
    display := Display.unspecified_wf 0
    wire := rfl }

/-- Settles O59: the launch state's own fields. -/
theorem resetValues : Obligations.ResetValues := by
  unfold Obligations.ResetValues
  exact ⟨rfl, fun p a0 b0 => ⟨rfl, rfl, rfl, rfl, rfl, rfl⟩⟩

end Sys2Proof.Machine
end
